-- ==== Sys2Proof/Word.lean ====
section
/-! DEFINITION. The words of the block (00_scope R7, R8): bytes, bits, 32-bit register words and lists of them. -/

namespace Sys2Proof

/-- A 32-bit register word (10_state R22). -/
abbrev Word := BitVec 32

/-- A byte of data memory or of a byte sequence (00_scope R8). -/
abbrev Byte := BitVec 8

/-- `Bytes` of 00_scope R8. -/
abbrev Bytes := List Byte

/-- `Bits` of 00_scope R8: `true` is the bit 1. -/
abbrev Bits := List Bool

/-- `zext_32` of 00_scope R7: the 32-bit pattern of a natural number, truncated. -/
def zext32 (v : Nat) : Word := BitVec.ofNat 32 v

end Sys2Proof
end

