-- ==== Sys2Proof/Syntax.lean ====
section
/-! DEFINITION. The commands (30_encoding R83): one constructor per row of spec/opcode_table.json. -/

namespace Sys2Proof

/-- A decoded command (30_encoding R83, R85). The operands are registers, not fields of the word (R81); the only
immediate is FRAME_BUILD's flag `F` (R82). OPEN and SEAL carry longer names because Lean keeps `open` and `seal`
for itself. -/
inductive Instr where
  /-- 0x01, 41_bitstream_adapter R121 -/
  | ser
  /-- 0x02, 41_bitstream_adapter R123 -/
  | deser
  /-- 0x10, 42_payload_pipeline R133 -/
  | compress
  /-- 0x11, 42_payload_pipeline R134 -/
  | decompress
  /-- 0x12 SEAL, 42_payload_pipeline R136 -/
  | sealBlob
  /-- 0x13 OPEN, 42_payload_pipeline R137 -/
  | openBlob
  /-- 0x20, 43_frame_builder R152 -/
  | frameBuild (flag : Bool)
  /-- 0x21, 43_frame_builder R154 -/
  | frameParse
  /-- 0x22, 44_pixel_walker R161 -/
  | embed
  /-- 0x23, 44_pixel_walker R163 -/
  | extract
  /-- 0x24, 45_codec_operations R171 -/
  | capacity
  /-- 0x25, 45_codec_operations R173 -/
  | encode
  /-- 0x26, 45_codec_operations R175 -/
  | decode
deriving DecidableEq, Repr

end Sys2Proof
end

