-- ==== Sys2Proof/Decode.lean ====
section
/-! DEFINITION. Decoding a command word (30_encoding R80–R87), total on every 32-bit word and rejecting by name,
and the encoder written from the same table (R84). -/

namespace Sys2Proof

/-- Why a word is an illegal command (30_encoding R86, in the order of R85). Each ends as IllegalCommand. -/
inductive IllegalWord where
  /-- a 1 in bits [31:9] -/
  | reservedBits
  /-- `F = 1` on a word whose `OP` is not 0x20 -/
  | strayFlag
  /-- an `OP` that is none of the thirteen values -/
  | unassignedOp
deriving DecidableEq, Repr

/-- `OP = w[7:0]` (30_encoding R80). -/
def opField (w : Word) : Byte := w.extractLsb' 0 8

/-- `F = w[8]` (30_encoding R80, R82). -/
def flagField (w : Word) : Bool := w.getLsbD 8

/-- `w[31:9]`, reserved (30_encoding R80). -/
def reservedField (w : Word) : BitVec 23 := w.extractLsb' 9 23

/-- The operation numbers other than FRAME_BUILD's (30_encoding R83, R85). -/
def decodeOp (op : Byte) : Except IllegalWord Instr :=
  match op with
  | 0x01#8 => .ok .ser
  | 0x02#8 => .ok .deser
  | 0x10#8 => .ok .compress
  | 0x11#8 => .ok .decompress
  | 0x12#8 => .ok .sealBlob
  | 0x13#8 => .ok .openBlob
  | 0x21#8 => .ok .frameParse
  | 0x22#8 => .ok .embed
  | 0x23#8 => .ok .extract
  | 0x24#8 => .ok .capacity
  | 0x25#8 => .ok .encode
  | 0x26#8 => .ok .decode
  | _ => .error .unassignedOp

/-- `decode` of 30_encoding R85. -/
def decode (w : Word) : Except IllegalWord Instr :=
  if reservedField w ≠ 0#23 then .error .reservedBits
  else if opField w = 0x20#8 then .ok (.frameBuild (flagField w))
  else if flagField w then .error .strayFlag
  else decodeOp (opField w)

/-- The command word of an instruction (30_encoding R84; R89 for `CMD FRAME_BUILD F=<b>`). -/
def encode : Instr → Word
  | .ser => 0x00000001
  | .deser => 0x00000002
  | .compress => 0x00000010
  | .decompress => 0x00000011
  | .sealBlob => 0x00000012
  | .openBlob => 0x00000013
  | .frameBuild flag => 0x00000020 ||| (zext32 flag.toNat <<< 8)
  | .frameParse => 0x00000021
  | .embed => 0x00000022
  | .extract => 0x00000023
  | .capacity => 0x00000024
  | .encode => 0x00000025
  | .decode => 0x00000026

/-- A row of the table of 30_encoding R84: a word `w` selects the row when `w & mask = pattern`. -/
structure OpcodeRow where
  mnemonic : String
  pattern : Word
  mask : Word
deriving DecidableEq, Repr

/-- `w` selects the row (30_encoding R84). -/
def OpcodeRow.selects (r : OpcodeRow) (w : Word) : Bool := w &&& r.mask == r.pattern

/-- The table of 30_encoding R84, its columns "mnemonic", "match" and "mask". -/
def opcodeTable : List OpcodeRow :=
  [ ⟨"SER", 0x00000001, 0xFFFFFFFF⟩,
    ⟨"DESER", 0x00000002, 0xFFFFFFFF⟩,
    ⟨"COMPRESS", 0x00000010, 0xFFFFFFFF⟩,
    ⟨"DECOMPRESS", 0x00000011, 0xFFFFFFFF⟩,
    ⟨"SEAL", 0x00000012, 0xFFFFFFFF⟩,
    ⟨"OPEN", 0x00000013, 0xFFFFFFFF⟩,
    ⟨"FRAME_BUILD", 0x00000020, 0xFFFFFEFF⟩,
    ⟨"FRAME_PARSE", 0x00000021, 0xFFFFFFFF⟩,
    ⟨"EMBED", 0x00000022, 0xFFFFFFFF⟩,
    ⟨"EXTRACT", 0x00000023, 0xFFFFFFFF⟩,
    ⟨"CAPACITY", 0x00000024, 0xFFFFFFFF⟩,
    ⟨"ENCODE", 0x00000025, 0xFFFFFFFF⟩,
    ⟨"DECODE", 0x00000026, 0xFFFFFFFF⟩ ]

/-- An instruction's name in the table (30_encoding R83). -/
def mnemonicOf : Instr → String
  | .ser => "SER"
  | .deser => "DESER"
  | .compress => "COMPRESS"
  | .decompress => "DECOMPRESS"
  | .sealBlob => "SEAL"
  | .openBlob => "OPEN"
  | .frameBuild _ => "FRAME_BUILD"
  | .frameParse => "FRAME_PARSE"
  | .embed => "EMBED"
  | .extract => "EXTRACT"
  | .capacity => "CAPACITY"
  | .encode => "ENCODE"
  | .decode => "DECODE"

/-- The instruction the decoder reads from a command whose bits are `w`, of which the table gives `nbits`
(always 32 here, 30_encoding R87); the bits above `nbits` are 0. A command is one 32-bit register write, so there
is no byte order to lay it out in (30_encoding R80, 20_memory R76). -/
def decodeTableWord (nbits w : Nat) : Option Instr :=
  if w % 2 ^ nbits < 2 ^ 32 then
    match decode (BitVec.ofNat 32 (w % 2 ^ nbits)) with
    | .ok i => some i
    | .error _ => none
  else none

end Sys2Proof
end

