-- ==== Sys2Proof/Config.lean ====
section
/-! DEFINITION. What an implementation fixes (00_scope R5, R6) and the free values (40_command_engine R102,
70_reset_and_hazards R232, R245). Nothing here has a value that a proof could use. -/

namespace Sys2Proof

/-- The implementation parameters that 00_scope R5 leaves OPEN. The ranges of R5 hold by the fields' types:
`1 ≤ MEM_SIZE ≤ 2^32` and `1 ≤ NONCE_BYTES ≤ 255` are stored less one. R5 gives REG_BASE no range. DESIGN CHOICE
(log 1): State carries them, unchanged by every step. -/
structure Params where
  /-- `MEM_SIZE − 1` -/
  memLast : Word
  /-- `REG_BASE`. DESIGN CHOICE (log 18): R5 gives a platform address no width, so it is a natural number of any size. -/
  regBase : Nat
  /-- `HAS_COMP` -/
  hasComp : Bool
  /-- `HAS_CIPHER` -/
  hasCipher : Bool
  /-- `NONCE_BYTES − 1` -/
  noncePred : Fin 255
  /-- `TAG_BYTES` -/
  tagBytes : Byte
deriving DecidableEq, Repr, Inhabited

namespace Params

/-- `MEM_SIZE` (00_scope R5): the size in bytes of the window the engine may reach. -/
def memSize (p : Params) : Nat := p.memLast.toNat + 1

/-- `NONCE_BYTES` (00_scope R5). -/
def nonceBytes (p : Params) : Nat := p.noncePred.val + 1

end Params

/-- The opaque stage functions (00_scope R6). No rule says what they compute; 42_payload_pipeline R130 names the
properties a claim may assume (Safety.lean). `aeadSeal` and `aeadOpen` are the spec's `seal` and `open`, words Lean
keeps for itself. DESIGN CHOICE (log 22): R6 names the types Key and Nonce without defining them; both are byte lists
here. The machine applies the functions to 32-byte keys (10_state R38) and NONCE_BYTES-byte nonces (00_scope R9) only, and
the named properties range over those only. -/
structure Stages where
  /-- `compress : Bytes → Bytes` -/
  compress : Bytes → Bytes
  /-- `decompress : Bytes → Option Bytes` -/
  decompress : Bytes → Option Bytes
  /-- `seal : Key → Nonce → Bytes → Bytes` -/
  aeadSeal : Bytes → Bytes → Bytes → Bytes
  /-- `open : Key → Nonce → Bytes → Option Bytes` -/
  aeadOpen : Bytes → Bytes → Bytes → Option Bytes
deriving Inhabited

/-- The parameters of the chip that comes out of reset (00_scope R5, log 1). -/
opaque Config.chip : Params

/-- The chip's stage units (00_scope R6, log 2). -/
opaque Config.stages : Stages

/-- `draw_nonce()` (00_scope R9, 40_command_engine R102): byte `k` of draw number `n`, a free value (log 3). -/
opaque Config.nonceByte : Nat → Nat → Byte

/-- The byte that a reset during a command leaves at an address of the command's written regions
(70_reset_and_hazards R232): draw number `n`, address `a`, a free value (log 9). -/
opaque Config.resetByte : Nat → Nat → Byte

/-- How many moves of the host come between a start and its completion step (40_command_engine R102,
70_reset_and_hazards R245: finite, unbounded): draw number `n`, a free value (log 4). -/
opaque Config.latency : Nat → Nat

end Sys2Proof
end

