-- ==== Sys2Proof/Machine/State.lean ====
section
/-! DEFINITION. The machine's state (10_state R22, R49), the reasons a step can stop, and the state after reset
(70_reset_and_hazards R230). -/

namespace Sys2Proof.Machine

/-- The sequencing state (10_state R21). -/
inductive Seq where
  | idle
  | busy
deriving DecidableEq, Repr

/-- Data memory (10_state R46): the bytes that differ from `unlistedByte`, by rising address. -/
abbrev Memory := List Host.Cell

/-- What an address that memory does not list reads as. DESIGN CHOICE (log 8): the spec calls the contents before
the host writes them its launch input (70_reset_and_hazards R233) and gives no value. -/
def unlistedByte : Byte := 0x00

/-- The registers of the window (10_state R22). Reserved offsets are no register. -/
inductive Reg where
  | id | version | param | ctrl | status | cmd
  | errCode | errReq | errAvail
  | srcAddr | srcLen | dstAddr | dstMax | gsrcAddr | gdstAddr | width | height | policy
  | resLen | resAux | resFlag
  | key (k : Fin 8)
deriving DecidableEq, Repr

/-- What the host or the platform may do next (70_reset_and_hazards R247; 30_encoding R88, R89). -/
inductive HostMove where
  /-- a 32-bit register read at an offset of the window -/
  | regRead (off : Nat)
  /-- a 32-bit register write at an offset of the window -/
  | regWrite (off : Nat) (v : Word)
  /-- the same read, at a platform address, a natural number (00_scope R7; DESIGN CHOICE, log 18) -/
  | busRead (addr : Nat)
  /-- the same write, at a platform address -/
  | busWrite (addr : Nat) (v : Word)
  /-- a read of one byte of data memory -/
  | memRead (addr : Nat)
  /-- a write of one byte of data memory -/
  | memWrite (addr : Nat) (b : Byte)
  /-- WAIT: read STATUS until DONE reads 1 -/
  | wait
  /-- the platform asserts the reset input -/
  | reset
deriving DecidableEq, Repr

/-- What the host gets back from a read (70_reset_and_hazards R247). -/
inductive HostReply where
  | reg (off : Nat) (v : Word)
  | byte (addr : Nat) (b : Byte)
deriving DecidableEq, Repr

/-- The machine's state: the stored registers of 10_state R22 in their implemented bits, `seq`, data memory
(10_state R49), the parameters (00_scope R5, log 1), and the model's own fields: the host's side (log 5), the
counter of draws (log 3) and the running command's delay (log 4). -/
structure State where
  /-- the parameters of 00_scope R5 -/
  params : Params
  /-- 10_state R21 -/
  seq : Seq
  /-- CTRL.IRQ_EN, 10_state R25 -/
  irqEn : Bool
  /-- STATUS.DONE, 10_state R26 -/
  done : Bool
  /-- STATUS.OVR, 10_state R26 -/
  ovr : Bool
  /-- CMD, 10_state R28 -/
  cmd : Word
  /-- ERR_CODE[7:0], 10_state R29 -/
  errCode : Byte
  /-- ERR_REQ, 10_state R30 -/
  errReq : Word
  /-- ERR_AVAIL, 10_state R30 -/
  errAvail : Word
  /-- SRC_ADDR, 10_state R31 -/
  srcAddr : Word
  /-- SRC_LEN, 10_state R32 -/
  srcLen : Word
  /-- DST_ADDR, 10_state R33 -/
  dstAddr : Word
  /-- DST_MAX, 10_state R33 -/
  dstMax : Word
  /-- GSRC_ADDR, 10_state R34 -/
  gsrcAddr : Word
  /-- GDST_ADDR, 10_state R34 -/
  gdstAddr : Word
  /-- WIDTH[15:0], 10_state R35 -/
  width : BitVec 16
  /-- HEIGHT[15:0], 10_state R35 -/
  height : BitVec 16
  /-- POLICY.COMP, 10_state R36 -/
  comp : Bool
  /-- POLICY.ENC, 10_state R36 -/
  enc : Bool
  /-- POLICY.KEY_LEN, 10_state R36 -/
  keyLen : Byte
  /-- KEY0–KEY7, 10_state R37 -/
  key : Vector Word 8
  /-- RES_LEN, 10_state R39 -/
  resLen : Word
  /-- RES_AUX, 10_state R40 -/
  resAux : Word
  /-- RES_FLAG[0], 10_state R41 -/
  resFlag : Bool
  /-- data memory, 10_state R46 -/
  mem : Memory
  /-- the moves the host has still to make (log 5) -/
  host : List HostMove
  /-- what the host got back, newest first (log 5) -/
  replies : List HostReply
  /-- how many draws have been taken (log 3) -/
  draws : Nat
  /-- how many host moves still precede the running command's completion step (log 4) -/
  delay : Nat
deriving DecidableEq, Repr

/-- The model has no fault: every error of the block is a normal completion that it defines
(60_exceptions R201, R207), and it has no trap (60_exceptions R205, R206). No step answers one. -/
inductive Fault
deriving DecidableEq, Repr

/-- Moves the host does not have (60_exceptions R207, 93_implementation_defined I6, I7). -/
inductive Refusal where
  /-- Raised by no meaning: the answer of an arm of `exec` that had no meaning yet; there is none. Safe. -/
  | notModelled (mnemonic : String)
  /-- Raised by a register access at an offset that is not 4-byte aligned (10_state R43): the platform may answer
  with a bus error and the block specifies nothing. Safe (log 7). -/
  | misalignedRegisterAccess
  /-- Raised by a register access outside the 256-byte window (10_state R43, 20_memory R70): no access of the block.
  Safe (log 7). -/
  | outsideRegisterWindow
  /-- Raised by a host access to data memory at an address of 2^32 or more, where there is no byte (10_state R46). Safe
  (log 23). -/
  | outsideDataMemory
  /-- Raised by a host access to a running command's regions that 70_reset_and_hazards R240 forbids. Unsafe where a
  platform breaks that duty, as R240 itself says (log 6). -/
  | runningRegionAccess
deriving DecidableEq, Repr

/-- The machine right after reset (70_reset_and_hazards R230, R233; 10_state R22): every stored register 0, IDLE,
memory with nothing listed (log 8), the chip's parameters (log 1), and the model's own fields empty (log 13). -/
def State.reset : State where
  params := Config.chip
  seq := .idle
  irqEn := false
  done := false
  ovr := false
  cmd := 0
  errCode := 0
  errReq := 0
  errAvail := 0
  srcAddr := 0
  srcLen := 0
  dstAddr := 0
  dstMax := 0
  gsrcAddr := 0
  gdstAddr := 0
  width := 0
  height := 0
  comp := false
  enc := false
  keyLen := 0
  key := Vector.replicate 8 0
  resLen := 0
  resAux := 0
  resFlag := false
  mem := []
  host := []
  replies := []
  draws := 0
  delay := 0

end Sys2Proof.Machine
end

