-- ==== Sys2Proof/Machine/Ops.lean ====
section
/-! DEFINITION. The shared operations: data memory (20_memory), a command's result (40_command_engine R104), its
start (R101) and its completion (R104). An error is the completion's other branch, not a trap (60_exceptions R201),
and nothing returns from it (60_exceptions R206). -/

namespace Sys2Proof.Machine

/-- `MemRead(addr, 1)` (00_scope R9, 20_memory R62). -/
def Memory.read (m : Memory) (a : Nat) : Byte :=
  match m with
  | [] => unlistedByte
  | (k, v) :: rest => if k = a then v else Memory.read rest a

/-- `MemWrite(addr, 1, v)` (00_scope R9, 20_memory R62), keeping the canonical form. -/
def Memory.write (m : Memory) (a : Nat) (v : Byte) : Memory :=
  match m with
  | [] => if v = unlistedByte then [] else [(a, v)]
  | (k, x) :: rest =>
    if a < k then if v = unlistedByte then (k, x) :: rest else (a, v) :: (k, x) :: rest
    else if a = k then if v = unlistedByte then rest else (a, v) :: rest
    else (k, x) :: Memory.write rest a v

/-- Canonical form above an address: rising addresses that exist (10_state R46), no byte an unlisted one reads as. -/
def Memory.wfFrom (lo : Nat) (m : Memory) : Bool :=
  match m with
  | [] => true
  | (k, v) :: rest => decide (lo ≤ k) && decide (k < 2 ^ 32) && decide (v ≠ unlistedByte) && Memory.wfFrom (k + 1) rest

/-- The canonical form of data memory. -/
def Memory.wf (m : Memory) : Bool := m.wfFrom 0

/-- `ReadBytes(a, n)` (00_scope R9; 20_memory R67). -/
def Memory.readBytes (m : Memory) (a : Nat) : Nat → Bytes
  | 0 => []
  | n + 1 => m.read a :: m.readBytes (a + 1) n

/-- `WriteBytes(a, s)` (00_scope R9; 20_memory R67). -/
def Memory.writeBytes (m : Memory) (a : Nat) : Bytes → Memory
  | [] => m
  | b :: rest => Memory.writeBytes (m.write a b) (a + 1) rest

/-- All writes of a command (40_command_engine R104, R110). -/
def Memory.writeAll (m : Memory) : List (Nat × Bytes) → Memory
  | [] => m
  | (a, bytes) :: rest => Memory.writeAll (m.writeBytes a bytes) rest

/-- The bit an element of a bit array stands for: bit 0 of its byte (20_memory R64). -/
def elementBit (b : Byte) : Bool := b.getLsbD 0

/-- The element the engine writes for a bit: 0x00 or 0x01 (20_memory R64). -/
def bitElement (b : Bool) : Byte := if b then 0x01 else 0x00

/-- `ReadBits(a, n)` (20_memory R64). -/
def Memory.readBits (m : Memory) (a n : Nat) : Bits := (m.readBytes a n).map elementBit

/-- The bytes that `WriteBits` stores for a bit sequence (20_memory R64). -/
def bitElements (s : Bits) : Bytes := s.map bitElement

/-- The errors of 60_exceptions R200. -/
inductive CommandError where
  | invalidKeyLength
  | messageTooLarge
  | truncatedHeader
  | truncatedPayload
  | malformedLength
  | corruptPayload
  | authenticationFailed
  | ciphertextTooShort
  | illegalCommand
  | stageAbsent
  | addressRange
  | overlap
  | outputOverflow
deriving DecidableEq, Repr

/-- `code(e)` of 60_exceptions R200; 0x00 is success. -/
def errorCode : CommandError → Byte
  | .invalidKeyLength => 0x01
  | .messageTooLarge => 0x02
  | .truncatedHeader => 0x03
  | .truncatedPayload => 0x04
  | .malformedLength => 0x05
  | .corruptPayload => 0x06
  | .authenticationFailed => 0x07
  | .ciphertextTooShort => 0x08
  | .illegalCommand => 0x10
  | .stageAbsent => 0x11
  | .addressRange => 0x12
  | .overlap => 0x13
  | .outputOverflow => 0x14

/-- `raise <Error>(req, avail)` (00_scope R9): an error with its report values (60_exceptions R203). -/
structure Raise where
  err : CommandError
  req : Word
  avail : Word
deriving DecidableEq, Repr

/-- `ok(writes, len, aux, flag)` of 40_command_engine R104. -/
structure Commit where
  writes : List (Nat × Bytes)
  len : Nat
  aux : Word
  flag : Bool
deriving DecidableEq, Repr

/-- What `exec` of 40_command_engine R104 gives. -/
abbrev Result := Except Raise Commit

/-- The completion step's effect on the state (40_command_engine R104, R110; 60_exceptions R201, R203, R205): all of
a command's writes and its results, or the code and report with the results zeroed and no write. Every completion
takes a draw (R102; 92_eei_decisions D46) and ends the delay (log 4). -/
def State.complete (s : State) : Result → State
  | .ok c =>
    { s with
      mem := s.mem.writeAll c.writes
      resLen := zext32 c.len, resAux := c.aux, resFlag := c.flag
      errCode := 0, errReq := 0, errAvail := 0
      seq := .idle, done := true, draws := s.draws + 1, delay := 0 }
  | .error e =>
    { s with
      resLen := 0, resAux := 0, resFlag := false
      errCode := errorCode e.err, errReq := e.req, errAvail := e.avail
      seq := .idle, done := true, draws := s.draws + 1, delay := 0 }

/-- An accepted start (40_command_engine R101; 10_state R28), with the delay until its completion step drawn
(40_command_engine R102, 70_reset_and_hazards R245; log 4). -/
def State.start (s : State) (w : Word) : State :=
  { s with cmd := w, seq := .busy, done := false, draws := s.draws + 1, delay := Config.latency s.draws }

end Sys2Proof.Machine
end

