-- ==== Sys2Proof/Machine/Operands.lean ====
section
/-! DEFINITION. The operands a command reads (40_command_engine R105): numbers as registers hold them (00_scope R7),
the grid's size, the key, the nonce, and the regions a command reads and writes. -/

namespace Sys2Proof.Machine

/-- `sat_32` of 00_scope R7. -/
def sat32 (v : Nat) : Word := BitVec.ofNat 32 (min v (2 ^ 32 - 1))

/-- `twos_32` of 00_scope R7. -/
def twos32 (v : Int) : Word := BitVec.ofInt 32 v

/-- The number of pixels `W·H` (10_state R35). -/
def State.pixels (s : State) : Nat := s.width.toNat * s.height.toNat

/-- `G = 4·W·H`, computed without overflow (40_command_engine R105, R108). -/
def State.gridSize (s : State) : Nat := 4 * s.pixels

/-- Key byte `j` (10_state R38). -/
def State.keyByte (s : State) (j : Nat) : Byte := (s.key.toList.getD (j / 4) 0).extractLsb' (8 * (j % 4)) 8

/-- The 32-byte key (10_state R38). -/
def State.keyBytes (s : State) : Bytes := (List.range 32).map s.keyByte

/-- The completion step's draw `nonce` (40_command_engine R102): `NONCE_BYTES` free bytes (log 3). -/
def State.nonce (s : State) : Bytes := (List.range s.params.nonceBytes).map (Config.nonceByte s.draws)

/-- A region `(address, length)` (00_scope R12). -/
abbrev Region := Nat × Nat

/-- `(SRC_ADDR, n)` -/
def State.srcRegion (s : State) : Region := (s.srcAddr.toNat, s.srcLen.toNat)

/-- `(DST_ADDR, DST_MAX)` (10_state R33) -/
def State.dstRegion (s : State) : Region := (s.dstAddr.toNat, s.dstMax.toNat)

/-- `(GSRC_ADDR, G)` -/
def State.gsrcRegion (s : State) : Region := (s.gsrcAddr.toNat, s.gridSize)

/-- `(GDST_ADDR, G)` -/
def State.gdstRegion (s : State) : Region := (s.gdstAddr.toNat, s.gridSize)

/-- The column "read regions" of 40_command_engine R105. -/
def readRegions (i : Instr) (s : State) : List Region :=
  match i with
  | .ser => [s.srcRegion]
  | .deser => [s.srcRegion]
  | .compress => [s.srcRegion]
  | .decompress => [s.srcRegion]
  | .sealBlob => [s.srcRegion]
  | .openBlob => [s.srcRegion]
  | .frameBuild _ => [s.srcRegion]
  | .frameParse => [s.srcRegion]
  | .embed => [s.srcRegion, s.gsrcRegion]
  | .extract => [s.gsrcRegion]
  | .capacity => []
  | .encode => [s.srcRegion, s.gsrcRegion]
  | .decode => [s.gsrcRegion]

/-- The column "written regions" of 40_command_engine R105. -/
def writtenRegions (i : Instr) (s : State) : List Region :=
  match i with
  | .ser => [s.dstRegion]
  | .deser => [s.dstRegion]
  | .compress => [s.dstRegion]
  | .decompress => [s.dstRegion]
  | .sealBlob => [s.dstRegion]
  | .openBlob => [s.dstRegion]
  | .frameBuild _ => [s.dstRegion]
  | .frameParse => [s.dstRegion]
  | .embed => [s.gdstRegion]
  | .extract => [s.dstRegion]
  | .capacity => []
  | .encode => [s.gdstRegion]
  | .decode => [s.dstRegion]

/-- The byte of the region at an address (00_scope R12: half open). -/
def Region.covers (r : Region) (a : Nat) : Bool := decide (r.1 ≤ a) && decide (a < r.1 + r.2)

/-- The bytes at SRC_ADDR (40_command_engine R105, 20_memory R67). -/
def State.srcBytes (s : State) : Bytes := s.mem.readBytes s.srcAddr.toNat s.srcLen.toNat

/-- The bit array at SRC_ADDR (20_memory R64). -/
def State.srcBits (s : State) : Bits := s.mem.readBits s.srcAddr.toNat s.srcLen.toNat

/-- The bytes of the source grid (20_memory R65). -/
def State.gridBytes (s : State) : Bytes := s.mem.readBytes s.gsrcAddr.toNat s.gridSize

/-- `emit(out)` and the results of a command with a linear destination (40_command_engine R112): OutputOverflow when
`out` is longer than DST_MAX. -/
def State.emit (s : State) (out : Bytes) (len : Nat) (aux : Word) (flag : Bool) : Result :=
  if s.dstMax.toNat < out.length then .error ⟨.outputOverflow, sat32 out.length, s.dstMax⟩
  else .ok ⟨[(s.dstAddr.toNat, out)], len, aux, flag⟩

end Sys2Proof.Machine
end

