-- ==== Sys2Proof/Machine/Flags.lean ====
section
/-! DEFINITION. The flags (10_state R26, R27), the interrupt output (60_exceptions R210), and the register words made
of fields (10_state R22–R26, R35, R36). -/

namespace Sys2Proof.Machine

/-- STATUS.BUSY reads `seq = BUSY` (10_state R26). -/
def State.busyBit (s : State) : Bool := s.seq == .busy

/-- STATUS.ERR reads `ERR_CODE ≠ 0` (10_state R26). -/
def State.errBit (s : State) : Bool := s.errCode != 0

/-- A bit at a place of a register word. -/
def bitAt (b : Bool) (i : Nat) : Word := zext32 b.toNat <<< i

/-- STATUS (10_state R26): BUSY 0, DONE 1, ERR 2, OVR 3, the rest 0. -/
def State.statusWord (s : State) : Word := bitAt s.busyBit 0 ||| bitAt s.done 1 ||| bitAt s.errBit 2 ||| bitAt s.ovr 3

/-- CTRL (10_state R25): IRQ_EN 0, the rest 0. -/
def State.ctrlWord (s : State) : Word := bitAt s.irqEn 0

/-- POLICY (10_state R36): COMP 0, ENC 1, KEY_LEN 15:8, the rest 0. -/
def State.policyWord (s : State) : Word := bitAt s.comp 0 ||| bitAt s.enc 1 ||| (s.keyLen.zeroExtend 32 <<< 8)

/-- ID (10_state R23): the ASCII bytes "STG1". -/
def idWord : Word := 0x53544731

/-- VERSION (10_state R23): major 1, minor 0. -/
def versionWord : Word := 0x00010000

/-- PARAM (10_state R24). -/
def paramWord (p : Params) : Word :=
  bitAt p.hasComp 0 ||| bitAt p.hasCipher 1 ||| (zext32 p.nonceBytes <<< 8) ||| (p.tagBytes.zeroExtend 32 <<< 16)

/-- The interrupt output (60_exceptions R210): level, active high; nothing else raises it (R211). -/
def State.irq (s : State) : Bool := s.done && s.irqEn

end Sys2Proof.Machine
end

