-- ==== Sys2Proof/Machine/Checks.lean ====
section
/-! DEFINITION. The checks every command makes before its body, in order (40_command_engine R106–R109, R113), and
the run of a command. -/

namespace Sys2Proof.Machine

/-- `needsComp` (40_command_engine R113). -/
def needsComp (i : Instr) (s : State) : Bool :=
  match i with
  | .ser => false
  | .deser => false
  | .compress => true
  | .decompress => true
  | .sealBlob => false
  | .openBlob => false
  | .frameBuild _ => false
  | .frameParse => false
  | .embed => false
  | .extract => false
  | .capacity => false
  | .encode => s.comp
  | .decode => false

/-- `needsCipher` (40_command_engine R113). -/
def needsCipher (i : Instr) (s : State) : Bool :=
  match i with
  | .ser => false
  | .deser => false
  | .compress => false
  | .decompress => false
  | .sealBlob => true
  | .openBlob => true
  | .frameBuild _ => false
  | .frameParse => false
  | .embed => false
  | .extract => false
  | .capacity => false
  | .encode => s.enc
  | .decode => s.enc

/-- `usesKey` (40_command_engine R107). -/
def usesKey (i : Instr) (s : State) : Bool :=
  match i with
  | .ser => false
  | .deser => false
  | .compress => false
  | .decompress => false
  | .sealBlob => true
  | .openBlob => true
  | .frameBuild _ => false
  | .frameParse => false
  | .embed => false
  | .extract => false
  | .capacity => false
  | .encode => s.enc
  | .decode => s.enc

/-- `command ∈ {EMBED, ENCODE}` (40_command_engine R109). -/
def mayEmbedInPlace (i : Instr) : Bool :=
  match i with
  | .ser => false
  | .deser => false
  | .compress => false
  | .decompress => false
  | .sealBlob => false
  | .openBlob => false
  | .frameBuild _ => false
  | .frameParse => false
  | .embed => true
  | .extract => false
  | .capacity => false
  | .encode => true
  | .decode => false

/-- The stage check fails (40_command_engine R113). -/
def stageMissing (i : Instr) (s : State) : Bool :=
  (needsComp i s && !s.params.hasComp) || (needsCipher i s && !s.params.hasCipher)

/-- The key check fails (40_command_engine R107). -/
def keyLengthWrong (i : Instr) (s : State) : Bool := usesKey i s && s.keyLen != 32

/-- `admitted(a, n)` (20_memory R61), in unbounded arithmetic. -/
def admitted (p : Params) (r : Region) : Bool := decide (r.2 = 0) || decide (r.1 + r.2 ≤ p.memSize)

/-- A region of the command is not admitted (40_command_engine R108). -/
def outOfRange (i : Instr) (s : State) : Bool :=
  !((readRegions i s).all (admitted s.params) && (writtenRegions i s).all (admitted s.params))

/-- `overlaps` (20_memory R72). -/
def overlaps (r t : Region) : Bool :=
  decide (0 < r.2) && decide (0 < t.2) && decide (r.1 < t.1 + t.2) && decide (t.1 < r.1 + r.2)

/-- `inPlace` (40_command_engine R109), comparing regions by value as its pseudocode does (DEDUCED, log 10). -/
def inPlace (i : Instr) (s : State) (w r : Region) : Bool :=
  mayEmbedInPlace i && w == s.gdstRegion && r == s.gsrcRegion && s.gdstAddr == s.gsrcAddr

/-- A written region overlaps a read region, other than in place (40_command_engine R109). -/
def overlapping (i : Instr) (s : State) : Bool :=
  (writtenRegions i s).any fun w => (readRegions i s).any fun r => overlaps w r && !inPlace i s w r

/-- The checks 2 to 5 of 40_command_engine R106, the first that fails; check 1 is the decoder's. -/
def precheck (i : Instr) (s : State) : Option Raise :=
  if stageMissing i s then some ⟨.stageAbsent, 0, 0⟩
  else if keyLengthWrong i s then some ⟨.invalidKeyLength, 32, s.keyLen.zeroExtend 32⟩
  else if outOfRange i s then some ⟨.addressRange, 0, 0⟩
  else if overlapping i s then some ⟨.overlap, 0, 0⟩
  else none

/-- The result of a command: its checks, then its body (40_command_engine R106, R114). -/
def checkedResult (i : Instr) (s : State) (body : Result) : Result :=
  match precheck i s with
  | some e => .error e
  | none => body

/-- The completion step of a command whose body gives `body` (40_command_engine R104). -/
def runCommand (i : Instr) (s : State) (body : Result) : Host.Outcome State Fault Refusal :=
  .next (s.complete (checkedResult i s body))

/-- The completion step of a word that decodes to Illegal: check 1 of 40_command_engine R106 (30_encoding R86). -/
def illegalCommand (s : State) : Host.Outcome State Fault Refusal :=
  .next (s.complete (.error ⟨.illegalCommand, 0, 0⟩))

end Sys2Proof.Machine
end

