-- ==== Sys2Proof/Machine/Adapter.lean ====
section
/-! DEFINITION. The bitstream adapter: the conversion functions and SER, DESER (41_bitstream_adapter R120–R123). -/

namespace Sys2Proof.Machine

/-- The bits of a byte, most significant first (41_bitstream_adapter R120). -/
def byteBits (b : Byte) : Bits :=
  [b.getLsbD 7, b.getLsbD 6, b.getLsbD 5, b.getLsbD 4, b.getLsbD 3, b.getLsbD 2, b.getLsbD 1, b.getLsbD 0]

/-- `bytesToBits` (41_bitstream_adapter R120). -/
def bytesToBits (bs : Bytes) : Bits := bs.flatMap byteBits

/-- The number a bit sequence spells, most significant bit first: `Σ s[j]·2^(n−1−j)`, as in 41_bitstream_adapter
R122 for a byte and 43_frame_builder R153 for the length. -/
def bitsToNat (s : Bits) : Nat := s.foldl (fun v b => 2 * v + b.toNat) 0

/-- `bitsToBytes` (41_bitstream_adapter R122); `none` is MalformedLength. -/
def bitsToBytes : Bits → Option Bytes
  | [] => some []
  | b7 :: b6 :: b5 :: b4 :: b3 :: b2 :: b1 :: b0 :: rest =>
    (bitsToBytes rest).map fun bs => BitVec.ofNat 8 (bitsToNat [b7, b6, b5, b4, b3, b2, b1, b0]) :: bs
  | _ => none

/-- `raise MalformedLength` over a bit sequence of length `n` (41_bitstream_adapter R123; 60_exceptions R203). -/
def malformedLength (n : Nat) : Raise := ⟨.malformedLength, zext32 n, zext32 (n % 8)⟩

/-- The body of SER (41_bitstream_adapter R121). -/
def serBody (s : State) : Result :=
  s.emit (bitElements (bytesToBits s.srcBytes)) (8 * s.srcLen.toNat) 0 false

/-- SER (41_bitstream_adapter R121). -/
def execSer (s : State) : Host.Outcome State Fault Refusal := runCommand .ser s (serBody s)

/-- The body of DESER (41_bitstream_adapter R123). -/
def deserBody (s : State) : Result :=
  match bitsToBytes s.srcBits with
  | none => .error (malformedLength s.srcLen.toNat)
  | some out => s.emit out (s.srcLen.toNat / 8) 0 false

/-- DESER (41_bitstream_adapter R123). -/
def execDeser (s : State) : Host.Outcome State Fault Refusal := runCommand .deser s (deserBody s)

end Sys2Proof.Machine
end

