-- ==== Sys2Proof/Machine/Pipeline.lean ====
section
/-! DEFINITION. The payload pipeline (42_payload_pipeline R131, R135, R138) and COMPRESS, DECOMPRESS, SEAL, OPEN
(R133, R134, R136, R137). Each body and each meaning takes the stage functions as an argument (00_scope R6); the
machine gives it the chip's. -/

namespace Sys2Proof.Machine

/-- `nonce ++ seal(key, nonce, plaintext)` (42_payload_pipeline R135). -/
def sealedBlob (st : Stages) (key nonce plain : Bytes) : Bytes := nonce ++ st.aeadSeal key nonce plain

/-- `openBlob` (42_payload_pipeline R135). -/
def unsealBlob (st : Stages) (p : Params) (key blob : Bytes) : Except Raise Bytes :=
  if blob.length < p.nonceBytes then .error ⟨.ciphertextTooShort, zext32 p.nonceBytes, zext32 blob.length⟩
  else
    match st.aeadOpen key (blob.take p.nonceBytes) (blob.drop p.nonceBytes) with
    | none => .error ⟨.authenticationFailed, 0, 0⟩
    | some plain => .ok plain

/-- `pipeEnc` (42_payload_pipeline R131, R140). -/
def pipeEnc (st : Stages) (msg : Bytes) (comp enc : Bool) (key nonce : Bytes) : Bytes :=
  let p1 := if comp then st.compress msg else msg
  if enc then sealedBlob st key nonce p1 else p1

/-- The last stage of `pipeDec` (42_payload_pipeline R138). -/
def unpack (st : Stages) (p : Params) (flag : Bool) (p1 : Bytes) : Except Raise Bytes :=
  if flag then
    if p.hasComp then
      match st.decompress p1 with
      | none => .error ⟨.corruptPayload, 0, 0⟩
      | some msg => .ok msg
    else .error ⟨.stageAbsent, 0, 0⟩
  else .ok p1

/-- `pipeDec` (42_payload_pipeline R138, R139). -/
def pipeDec (st : Stages) (p : Params) (payload : Bytes) (flag enc : Bool) (key : Bytes) : Except Raise Bytes :=
  if enc then
    match unsealBlob st p key payload with
    | .error e => .error e
    | .ok p1 => unpack st p flag p1
  else unpack st p flag payload

/-- The end of a stage command: `emit(out)` with `RES_LEN = len(out)` (42_payload_pipeline R133–R137). -/
def State.emitAll (s : State) (out : Bytes) : Result := s.emit out out.length 0 false

/-- The body of COMPRESS (42_payload_pipeline R133). -/
def compressBody (st : Stages) (s : State) : Result := s.emitAll (st.compress s.srcBytes)

/-- COMPRESS over given stage units (42_payload_pipeline R133). -/
def compressWith (st : Stages) (s : State) : Host.Outcome State Fault Refusal :=
  runCommand .compress s (compressBody st s)

/-- COMPRESS (42_payload_pipeline R133). -/
def execCompress (s : State) : Host.Outcome State Fault Refusal := compressWith Config.stages s

/-- The body of DECOMPRESS (42_payload_pipeline R134). -/
def decompressBody (st : Stages) (s : State) : Result :=
  match st.decompress s.srcBytes with
  | none => .error ⟨.corruptPayload, 0, 0⟩
  | some out => s.emitAll out

/-- DECOMPRESS over given stage units (42_payload_pipeline R134). -/
def decompressWith (st : Stages) (s : State) : Host.Outcome State Fault Refusal :=
  runCommand .decompress s (decompressBody st s)

/-- DECOMPRESS (42_payload_pipeline R134). -/
def execDecompress (s : State) : Host.Outcome State Fault Refusal := decompressWith Config.stages s

/-- The body of SEAL (42_payload_pipeline R136). -/
def sealBody (st : Stages) (s : State) : Result := s.emitAll (sealedBlob st s.keyBytes s.nonce s.srcBytes)

/-- SEAL over given stage units (42_payload_pipeline R136). -/
def sealWith (st : Stages) (s : State) : Host.Outcome State Fault Refusal := runCommand .sealBlob s (sealBody st s)

/-- SEAL (42_payload_pipeline R136). -/
def execSeal (s : State) : Host.Outcome State Fault Refusal := sealWith Config.stages s

/-- The body of OPEN (42_payload_pipeline R137). -/
def openBody (st : Stages) (s : State) : Result :=
  match unsealBlob st s.params s.keyBytes s.srcBytes with
  | .error e => .error e
  | .ok out => s.emitAll out

/-- OPEN over given stage units (42_payload_pipeline R137). -/
def openWith (st : Stages) (s : State) : Host.Outcome State Fault Refusal := runCommand .openBlob s (openBody st s)

/-- OPEN (42_payload_pipeline R137). -/
def execOpen (s : State) : Host.Outcome State Fault Refusal := openWith Config.stages s

end Sys2Proof.Machine
end

