-- ==== Sys2Proof/Machine/Frame.lean ====
section
/-! DEFINITION. The frame (43_frame_builder R150, R153) and FRAME_BUILD, FRAME_PARSE (R152, R154). -/

namespace Sys2Proof.Machine

/-- `be32` (43_frame_builder R150). -/
def be32 (n : Nat) : Bytes :=
  [BitVec.ofNat 8 (n / 2 ^ 24), BitVec.ofNat 8 (n / 2 ^ 16), BitVec.ofNat 8 (n / 2 ^ 8), BitVec.ofNat 8 n]

/-- `frame(f, p)` (43_frame_builder R150). -/
def frame (f : Bool) (p : Bytes) : Bits := f :: (bytesToBits (be32 p.length) ++ bytesToBits p)

/-- What `parseFrame` returns: `(flag, L, payload)` (43_frame_builder R153). -/
structure Parsed where
  flag : Bool
  len : Nat
  payload : Bytes
deriving DecidableEq, Repr

/-- The length field of a frame: bits 1 to 32, big-endian (43_frame_builder R153). -/
def frameLength (s : Bits) : Nat := bitsToNat ((s.drop 1).take 32)

/-- `parseFrame` (43_frame_builder R153). The slice is a whole number of bytes, so the MalformedLength branch is
never reached (R155; log 17). -/
def parseFrame (s : Bits) : Except Raise Parsed :=
  if s.length < 33 then .error ⟨.truncatedHeader, 33, zext32 s.length⟩
  else
    let n := frameLength s
    let rem := s.length - 33
    if rem < 8 * n then .error ⟨.truncatedPayload, zext32 n, zext32 (rem / 8)⟩
    else
      let slice := (s.drop 33).take (8 * n)
      match bitsToBytes slice with
      | none => .error (malformedLength slice.length)
      | some payload => .ok ⟨s.headD false, n, payload⟩

/-- The body of FRAME_BUILD (43_frame_builder R152). -/
def frameBuildBody (flag : Bool) (s : State) : Result :=
  s.emit (bitElements (frame flag s.srcBytes)) (33 + 8 * s.srcLen.toNat) s.srcLen flag

/-- FRAME_BUILD (43_frame_builder R152). -/
def execFrameBuild (flag : Bool) (s : State) : Host.Outcome State Fault Refusal :=
  runCommand (.frameBuild flag) s (frameBuildBody flag s)

/-- The body of FRAME_PARSE (43_frame_builder R154). -/
def frameParseBody (s : State) : Result :=
  match parseFrame s.srcBits with
  | .error e => .error e
  | .ok f => s.emit f.payload f.len (zext32 (33 + 8 * f.len)) f.flag

/-- FRAME_PARSE (43_frame_builder R154). -/
def execFrameParse (s : State) : Host.Outcome State Fault Refusal := runCommand .frameParse s (frameParseBody s)

end Sys2Proof.Machine
end

