-- ==== Sys2Proof/Machine/Walker.lean ====
section
/-! DEFINITION. The pixel-grid walker (44_pixel_walker R160, R162) and EMBED, EXTRACT (R161, R163). -/

namespace Sys2Proof.Machine

/-- A red byte with its LSB overwritten: `(b & 0xFE) | bit` (44_pixel_walker R160). -/
def setRedLsb (b : Byte) (bit : Bool) : Byte := (b &&& 0xFE) ||| bitElement bit

/-- `embed(gb, s)` (44_pixel_walker R160): one pixel of four bytes R, G, B, A (20_memory R65) for each bit, in
row-major order; the pixels past the bits are copied. -/
def embed : Bytes → Bits → Bytes
  | r :: g :: b :: a :: rest, bit :: bits => setRedLsb r bit :: g :: b :: a :: embed rest bits
  | gb, _ => gb

/-- `extract(gb)` (44_pixel_walker R162): the red LSB of every pixel, in row-major order. -/
def extract : Bytes → Bits
  | r :: _ :: _ :: _ :: rest => r.getLsbD 0 :: extract rest
  | _ => []

/-- The body of EMBED (44_pixel_walker R161). -/
def embedBody (s : State) : Result :=
  if s.pixels < s.srcLen.toNat then .error ⟨.messageTooLarge, s.srcLen, zext32 s.pixels⟩
  else .ok ⟨[(s.gdstAddr.toNat, embed s.gridBytes s.srcBits)], s.srcLen.toNat, 0, false⟩

/-- EMBED (44_pixel_walker R161). -/
def execEmbed (s : State) : Host.Outcome State Fault Refusal := runCommand .embed s (embedBody s)

/-- The body of EXTRACT (44_pixel_walker R163). -/
def extractBody (s : State) : Result := s.emit (bitElements (extract s.gridBytes)) s.pixels 0 false

/-- EXTRACT (44_pixel_walker R163). -/
def execExtract (s : State) : Host.Outcome State Fault Refusal := runCommand .extract s (extractBody s)

end Sys2Proof.Machine
end

