-- ==== Sys2Proof/Machine/Codec.lean ====
section
/-! DEFINITION. The codec operations CAPACITY, ENCODE, DECODE (45_codec_operations R170–R175). -/

namespace Sys2Proof.Machine

/-- `capacity(W, H)` (45_codec_operations R170; 90_conflicts C1), a signed number of bytes. -/
def capacity (w h : Nat) : Int := Int.fdiv ((w * h : Int) - 33) 8

/-- The capacity of the grid that WIDTH and HEIGHT give. -/
def State.capacity (s : State) : Int := Sys2Proof.Machine.capacity s.width.toNat s.height.toNat

/-- The body of CAPACITY (45_codec_operations R171). -/
def capacityBody (s : State) : Result := .ok ⟨[], 0, twos32 s.capacity, false⟩

/-- CAPACITY (45_codec_operations R171). -/
def execCapacity (s : State) : Host.Outcome State Fault Refusal := runCommand .capacity s (capacityBody s)

/-- The payload ENCODE embeds (45_codec_operations R173; 42_payload_pipeline R131). -/
def encodePayload (st : Stages) (s : State) : Bytes := pipeEnc st s.srcBytes s.comp s.enc s.keyBytes s.nonce

/-- The body of ENCODE (45_codec_operations R173). -/
def encodeBody (st : Stages) (s : State) : Result :=
  let payload := encodePayload st s
  let n := payload.length
  if s.pixels < 33 + 8 * n then .error ⟨.messageTooLarge, sat32 n, twos32 s.capacity⟩
  else .ok ⟨[(s.gdstAddr.toNat, embed s.gridBytes (frame s.comp payload))], 33 + 8 * n, zext32 n, s.comp⟩

/-- ENCODE over given stage units (45_codec_operations R173). -/
def encodeWith (st : Stages) (s : State) : Host.Outcome State Fault Refusal := runCommand .encode s (encodeBody st s)

/-- ENCODE (45_codec_operations R173). -/
def execEncode (s : State) : Host.Outcome State Fault Refusal := encodeWith Config.stages s

/-- The body of DECODE (45_codec_operations R175). -/
def decodeBody (st : Stages) (s : State) : Result :=
  match parseFrame (extract s.gridBytes) with
  | .error e => .error e
  | .ok f =>
    match pipeDec st s.params f.payload f.flag s.enc s.keyBytes with
    | .error e => .error e
    | .ok msg => s.emit msg msg.length (zext32 f.len) f.flag

/-- DECODE over given stage units (45_codec_operations R175). -/
def decodeWith (st : Stages) (s : State) : Host.Outcome State Fault Refusal := runCommand .decode s (decodeBody st s)

/-- DECODE (45_codec_operations R175). -/
def execDecode (s : State) : Host.Outcome State Fault Refusal := decodeWith Config.stages s

end Sys2Proof.Machine
end

