-- ==== Sys2Proof/Machine/Dispatch.lean ====
section
/-! DEFINITION. Dispatch: one arm per command (30_encoding R83), each a direct call of its meaning. -/

namespace Sys2Proof.Machine

/-- A command's completion step (40_command_engine R104), its checks and body read from the command's own rule. -/
def exec (i : Instr) (s : State) : Host.Outcome State Fault Refusal :=
  match i with
  | .ser => Sys2Proof.Machine.execSer s
  | .deser => Sys2Proof.Machine.execDeser s
  | .compress => Sys2Proof.Machine.execCompress s
  | .decompress => Sys2Proof.Machine.execDecompress s
  | .sealBlob => Sys2Proof.Machine.execSeal s
  | .openBlob => Sys2Proof.Machine.execOpen s
  | .frameBuild flag => Sys2Proof.Machine.execFrameBuild flag s
  | .frameParse => Sys2Proof.Machine.execFrameParse s
  | .embed => Sys2Proof.Machine.execEmbed s
  | .extract => Sys2Proof.Machine.execExtract s
  | .capacity => Sys2Proof.Machine.execCapacity s
  | .encode => Sys2Proof.Machine.execEncode s
  | .decode => Sys2Proof.Machine.execDecode s

end Sys2Proof.Machine
end

