-- ==== Sys2Proof/WellFormed.lean ====
section
/-! DEFINITION. Which terms of the syntax are well-formed commands. -/

namespace Sys2Proof

/-- Every term of `Instr` is a command the block has: twelve constructors carry nothing, and FRAME_BUILD's flag is
typed as a bit (30_encoding R82), so no ill-formed term can be written. -/
def Instr.wf : Instr → Bool
  | .ser => true
  | .deser => true
  | .compress => true
  | .decompress => true
  | .sealBlob => true
  | .openBlob => true
  | .frameBuild flag => flag.toNat ≤ 1
  | .frameParse => true
  | .embed => true
  | .extract => true
  | .capacity => true
  | .encode => true
  | .decode => true

/-- A host register access that the model has: 32 bits wide at a 4-byte-aligned offset inside the 256-byte window
(10_state R43). -/
def offsetWf (off : Nat) : Bool := off % 4 == 0 && off < 256

end Sys2Proof
end

