-- ==== Sys2Proof/Machine/HostPort.lean ====
section
/-! DEFINITION. The host's side (70_reset_and_hazards R247): register reads and writes (10_state R22, R42–R45), memory
accesses and the duty of R240, reset (R230–R232), WAIT (30_encoding R89), and which agent moves next (R245). -/

namespace Sys2Proof.Machine

/-- The offset of a register (10_state R22). -/
def Reg.offset : Reg → Nat
  | .id => 0x00
  | .version => 0x04
  | .param => 0x08
  | .ctrl => 0x0C
  | .status => 0x10
  | .cmd => 0x14
  | .errCode => 0x18
  | .errReq => 0x1C
  | .errAvail => 0x20
  | .srcAddr => 0x24
  | .srcLen => 0x28
  | .dstAddr => 0x2C
  | .dstMax => 0x30
  | .gsrcAddr => 0x34
  | .gdstAddr => 0x38
  | .width => 0x3C
  | .height => 0x40
  | .policy => 0x44
  | .resLen => 0x48
  | .resAux => 0x4C
  | .resFlag => 0x50
  | .key k => 0x60 + 4 * k.val

/-- Every register of the window but the keys (10_state R22). -/
def plainRegs : List Reg :=
  [ .id, .version, .param, .ctrl, .status, .cmd, .errCode, .errReq, .errAvail, .srcAddr, .srcLen, .dstAddr, .dstMax,
    .gsrcAddr, .gdstAddr, .width, .height, .policy, .resLen, .resAux, .resFlag ]

/-- Every register of the window (10_state R22, R37). -/
def allRegs : List Reg := plainRegs ++ (List.ofFn Reg.key)

/-- The register at an offset; `none` at a reserved offset (10_state R22, R42). -/
def regAt (off : Nat) : Option Reg := allRegs.find? fun r => r.offset == off

/-- The value a host read returns (10_state R22–R26, R28–R41, R45); the keys are write-only and read 0 (R37). -/
def readReg (s : State) : Reg → Word
  | .id => idWord
  | .version => versionWord
  | .param => paramWord s.params
  | .ctrl => s.ctrlWord
  | .status => s.statusWord
  | .cmd => s.cmd
  | .errCode => s.errCode.zeroExtend 32
  | .errReq => s.errReq
  | .errAvail => s.errAvail
  | .srcAddr => s.srcAddr
  | .srcLen => s.srcLen
  | .dstAddr => s.dstAddr
  | .dstMax => s.dstMax
  | .gsrcAddr => s.gsrcAddr
  | .gdstAddr => s.gdstAddr
  | .width => s.width.zeroExtend 32
  | .height => s.height.zeroExtend 32
  | .policy => s.policyWord
  | .resLen => s.resLen
  | .resAux => s.resAux
  | .resFlag => bitAt s.resFlag 0
  | .key _ => 0

/-- The locked registers (10_state R44). -/
def locked : Reg → Bool
  | .id => false
  | .version => false
  | .param => false
  | .ctrl => false
  | .status => false
  | .cmd => true
  | .errCode => false
  | .errReq => false
  | .errAvail => false
  | .srcAddr => true
  | .srcLen => true
  | .dstAddr => true
  | .dstMax => true
  | .gsrcAddr => true
  | .gdstAddr => true
  | .width => true
  | .height => true
  | .policy => true
  | .resLen => false
  | .resAux => false
  | .resFlag => false
  | .key _ => true

/-- A write that takes effect: stored in the implemented bits; CMD starts a command (40_command_engine R101); STATUS
clears by ones (10_state R26); read-only registers ignore it (R22). -/
def storeReg (s : State) (r : Reg) (v : Word) : State :=
  match r with
  | .id => s
  | .version => s
  | .param => s
  | .ctrl => { s with irqEn := v.getLsbD 0 }
  | .status => { s with done := s.done && !v.getLsbD 1, ovr := s.ovr && !v.getLsbD 3 }
  | .cmd => s.start v
  | .errCode => s
  | .errReq => s
  | .errAvail => s
  | .srcAddr => { s with srcAddr := v }
  | .srcLen => { s with srcLen := v }
  | .dstAddr => { s with dstAddr := v }
  | .dstMax => { s with dstMax := v }
  | .gsrcAddr => { s with gsrcAddr := v }
  | .gdstAddr => { s with gdstAddr := v }
  | .width => { s with width := v.extractLsb' 0 16 }
  | .height => { s with height := v.extractLsb' 0 16 }
  | .policy => { s with comp := v.getLsbD 0, enc := v.getLsbD 1, keyLen := v.extractLsb' 8 8 }
  | .resLen => s
  | .resAux => s
  | .resFlag => s
  | .key k => { s with key := s.key.set k v }

/-- A host write to a register (10_state R44): lost, with OVR set, when the register is locked and a command runs. -/
def writeReg (s : State) (r : Reg) (v : Word) : State :=
  if locked r && s.busyBit then { s with ovr := true } else storeReg s r v

/-- A host read at an offset; a reserved offset reads 0 (10_state R42). -/
def readOffset (s : State) (off : Nat) : Word :=
  match regAt off with
  | some r => readReg s r
  | none => 0

/-- A host write at an offset; at a reserved offset it has no effect, even while busy (10_state R42). -/
def writeOffset (s : State) (off : Nat) (v : Word) : State :=
  match regAt off with
  | some r => writeReg s r v
  | none => s

/-- The host gets a reply back (70_reset_and_hazards R247). -/
def State.reply (s : State) (r : HostReply) : State := { s with replies := r :: s.replies }

/-- The platform address of an offset of the window (10_state R22, 20_memory R70). -/
def busAddress (p : Params) (off : Nat) : Nat := p.regBase + off

/-- A register access at a platform address: that at its distance from REG_BASE, in unbounded arithmetic (00_scope R7,
20_memory R70); an address below REG_BASE is outside the window. -/
def atBusAddress (p : Params) (addr : Nat) (go : Nat → Host.Outcome State Fault Refusal) :
    Host.Outcome State Fault Refusal :=
  if addr < p.regBase then .refused .outsideRegisterWindow else go (addr - p.regBase)

/-- A register access at an offset: refused when it is none that the host has (10_state R43, log 7). -/
def atOffset (off : Nat) (go : Host.Outcome State Fault Refusal) : Host.Outcome State Fault Refusal :=
  if 256 ≤ off then .refused .outsideRegisterWindow
  else if off % 4 ≠ 0 then .refused .misalignedRegisterAccess
  else go

/-- The read regions of the running command; none while idle or for an illegal word (40_command_engine R105). -/
def runningReads (s : State) : List Region :=
  match s.seq, decode s.cmd with
  | .busy, .ok i => readRegions i s
  | _, _ => []

/-- The written regions of the running command; none while idle or for an illegal word (40_command_engine R105). -/
def runningWrites (s : State) : List Region :=
  match s.seq, decode s.cmd with
  | .busy, .ok i => writtenRegions i s
  | _, _ => []

/-- The host may read the byte (70_reset_and_hazards R240). -/
def mayRead (s : State) (a : Nat) : Bool := !(runningWrites s).any fun r => r.covers a

/-- The host may write the byte (70_reset_and_hazards R240). -/
def mayWrite (s : State) (a : Nat) : Bool := mayRead s a && !(runningReads s).any fun r => r.covers a

/-- Free bytes over the addresses from `a` on that exist, `n` of them at most (70_reset_and_hazards R232; log 9). -/
def scramble (draw : Nat) (m : Memory) (a : Nat) : Nat → Memory
  | 0 => m
  | n + 1 => if a < 2 ^ 32 then scramble draw (m.write a (Config.resetByte draw a)) (a + 1) n else m

/-- Free bytes over every region of a list (70_reset_and_hazards R232). -/
def scrambleAll (draw : Nat) (m : Memory) : List Region → Memory
  | [] => m
  | (a, n) :: rest => scrambleAll draw (scramble draw m a n) rest

/-- The reset input (70_reset_and_hazards R230–R232): every stored register at its reset value, IDLE, no completion;
memory kept, but for the written regions of a running command. The parameters and the host's side are outside the
block and stay. -/
def resetInput (s : State) : State :=
  { State.reset with
    params := s.params
    mem := scrambleAll s.draws s.mem (runningWrites s)
    host := s.host, replies := s.replies, draws := s.draws + 1 }

/-- A data-memory access at an address: refused where there is no byte (10_state R46, log 23). -/
def atMemAddress (addr : Nat) (go : Host.Outcome State Fault Refusal) : Host.Outcome State Fault Refusal :=
  if 2 ^ 32 ≤ addr then .refused .outsideDataMemory else go

/-- A host read of one byte of data memory (70_reset_and_hazards R240, R247). -/
def hostMemRead (s : State) (addr : Nat) : Host.Outcome State Fault Refusal :=
  atMemAddress addr
    (if mayRead s addr then .next (s.reply (.byte addr (s.mem.read addr))) else .refused .runningRegionAccess)

/-- A host write of one byte of data memory (70_reset_and_hazards R240, R247). -/
def hostMemWrite (s : State) (addr : Nat) (b : Byte) : Host.Outcome State Fault Refusal :=
  atMemAddress addr
    (if mayWrite s addr then .next { s with mem := s.mem.write addr b } else .refused .runningRegionAccess)

/-- A host read of a register (10_state R43, R45). -/
def hostRegRead (s : State) (off : Nat) : Host.Outcome State Fault Refusal :=
  atOffset off (.next (s.reply (.reg off (readOffset s off))))

/-- A host write of a register (10_state R43, R44). -/
def hostRegWrite (s : State) (off : Nat) (v : Word) : Host.Outcome State Fault Refusal :=
  atOffset off (.next (writeOffset s off v))

/-- A successful poll of WAIT is a read of STATUS; an unsuccessful one changes nothing and is made again
(30_encoding R89; log 4). `s` still has the WAIT at the head of its moves and `rest` after it. -/
def hostWait (s : State) (rest : List HostMove) : Host.Outcome State Fault Refusal :=
  if s.done then
    .next ({ s with host := rest, delay := s.delay - 1 }.reply (.reg Reg.status.offset (readReg s .status)))
  else .next s

/-- One move of the host over the state it is made in (70_reset_and_hazards R247). -/
def hostMove (s : State) : HostMove → Host.Outcome State Fault Refusal
  | .regRead off => hostRegRead s off
  | .regWrite off v => hostRegWrite s off v
  | .busRead addr => atBusAddress s.params addr fun off => hostRegRead s off
  | .busWrite addr v => atBusAddress s.params addr fun off => hostRegWrite s off v
  | .memRead addr => hostMemRead s addr
  | .memWrite addr b => hostMemWrite s addr b
  | .wait => hostWait s s.host
  | .reset => .next (resetInput s)

/-- The host's turn: its next move, made with the moves after it left. With no move left the block stays as it is
(60_exceptions R221, 70_reset_and_hazards R247; log 12). -/
def hostTurn (s : State) : Host.Outcome State Fault Refusal :=
  match s.host with
  | [] => .next s
  | .wait :: rest => hostWait s rest
  | m :: rest => hostMove { s with host := rest, delay := s.delay - 1 } m

/-- The host has nothing to do but wait for the engine: no move left, or a WAIT whose poll reads DONE = 0. -/
def hostIdles (s : State) : Bool :=
  match s.host with
  | [] => true
  | .wait :: _ => !s.done
  | _ :: _ => false

/-- The engine's step comes now: a command runs, and its delay is over or the host only waits for it
(40_command_engine R102, 70_reset_and_hazards R245; log 4). -/
def engineMoves (s : State) : Bool := s.busyBit && (hostIdles s || s.delay == 0)

/-- A running command whose completion step comes next, whatever the host has still to do (log 11). -/
def State.commandAtHand (s : State) (w : Word) : State := { s with cmd := w, seq := .busy, done := false, delay := 0 }

end Sys2Proof.Machine
end

