-- ==== Sys2Proof/Machine/Step.lean ====
section
/-! DEFINITION. One step of the machine: the engine's completion step (40_command_engine R104) or the host's turn
(70_reset_and_hazards R247). -/

namespace Sys2Proof.Machine

/-- One step: the running command's completion when the engine moves, else the host's turn. -/
def step (s : State) : Host.Outcome State Fault Refusal :=
  if engineMoves s then
    match decode s.cmd with
    | .ok i => exec i s
    | .error _ => illegalCommand s
  else hostTurn s

/-- The state in which the very next step completes the command whose bits are `w`: the block fetches nothing
(20_memory R76), a command comes from a write to CMD (30_encoding R80), and this stands for that accepted start with
its delay over (log 11). -/
def State.withFetchWord (s : State) (nbits w : Nat) : State := s.commandAtHand (BitVec.ofNat 32 (w % 2 ^ nbits))

end Sys2Proof.Machine
end

