-- ==== Sys2Proof/Machine/Script.lean ====
section
/-! DEFINITION. The host-script forms and pseudo-instructions (30_encoding R88, R89), expanded to host moves. -/

namespace Sys2Proof.Machine

/-- `WR <REG>, <value>` (30_encoding R88). -/
def scriptWr (r : Reg) (v : Word) : List HostMove := [.regWrite r.offset v]

/-- `RD <REG>` (30_encoding R88). -/
def scriptRd (r : Reg) : List HostMove := [.regRead r.offset]

/-- `MEM <addr>: <b0> <b1> ...` (30_encoding R88), its addresses unbounded (00_scope R7): R88 does not say what a list
that runs past 2^32 − 1 stores, and its moves past there are refused (DESIGN CHOICE, log 23). -/
def scriptMem (addr : Nat) : Bytes → List HostMove
  | [] => []
  | b :: rest => .memWrite addr b :: scriptMem (addr + 1) rest

/-- `CMD <MNEMONIC>[ F=<b>]` (30_encoding R89). -/
def scriptCmd (i : Instr) : List HostMove := scriptWr .cmd (encode i)

/-- `WAIT` (30_encoding R89). -/
def scriptWait : List HostMove := [.wait]

/-- `RUN <MNEMONIC>[ F=<b>]` (30_encoding R89). -/
def scriptRun (i : Instr) : List HostMove := scriptCmd i ++ scriptWait

/-- The word that holds four key bytes, the first in the least significant byte (30_encoding R89, 10_state R38). -/
def keyWord (bs : Bytes) : Word :=
  (bs.getD 0 0).zeroExtend 32 ||| ((bs.getD 1 0).zeroExtend 32 <<< 8) ||| ((bs.getD 2 0).zeroExtend 32 <<< 16)
    ||| ((bs.getD 3 0).zeroExtend 32 <<< 24)

/-- `KEY <k0> ... <k31>` (30_encoding R89). -/
def scriptKey (bs : Bytes) : List HostMove :=
  (List.ofFn fun k : Fin 8 => scriptWr (.key k) (keyWord ((bs.drop (4 * k.val)).take 4))).flatten

end Sys2Proof.Machine
end

