-- ==== Sys2Proof/Safety.lean ====
section
/-! DEFINITION. The terms that claims about the machine use: the named properties of the stage units
(42_payload_pipeline R130), what a completion leaves alone, success and failure of a command (40_command_engine R104),
and the invariants of the state. -/

namespace Sys2Proof

/-- `P_COMP_RT` (42_payload_pipeline R130). -/
def Stages.CompRT (st : Stages) : Prop := ∀ m, st.decompress (st.compress m) = some m

/-- `k` is a Key: 32 bytes (00_scope R5, 10_state R38; log 22). -/
def IsKey (k : Bytes) : Prop := k.length = 32

/-- `n` is a Nonce of the chip: NONCE_BYTES bytes (00_scope R9; log 22). -/
def IsNonce (p : Params) (n : Bytes) : Prop := n.length = p.nonceBytes

/-- `P_AEAD_RT` (42_payload_pipeline R130). -/
def Stages.AeadRT (st : Stages) (p : Params) : Prop :=
  ∀ k n m, IsKey k → IsNonce p n → st.aeadOpen k n (st.aeadSeal k n m) = some m

/-- `P_AEAD_LEN` (42_payload_pipeline R130, 93_implementation_defined G1). -/
def Stages.AeadLen (st : Stages) (p : Params) : Prop :=
  ∀ k n m, IsKey k → IsNonce p n → (st.aeadSeal k n m).length = m.length + p.tagBytes.toNat

/-- `P_AEAD_KEY` (42_payload_pipeline R130, 93_implementation_defined G4). -/
def Stages.AeadKey (st : Stages) (p : Params) : Prop :=
  ∀ k k' n m, IsKey k → IsKey k' → IsNonce p n → k' ≠ k → st.aeadOpen k' n (st.aeadSeal k n m) = none

/-- `P_AEAD_TAMPER` (42_payload_pipeline R130, 93_implementation_defined G4). -/
def Stages.AeadTamper (st : Stages) (p : Params) : Prop :=
  ∀ k n c, IsKey k → IsNonce p n → (∀ m, c ≠ st.aeadSeal k n m) → st.aeadOpen k n c = none

/-- `P_AEAD_SHORT` (42_payload_pipeline R130, 93_implementation_defined G2). -/
def Stages.AeadShort (st : Stages) (p : Params) : Prop :=
  ∀ k n c, IsKey k → IsNonce p n → c.length < p.tagBytes.toNat → st.aeadOpen k n c = none

namespace Machine

/-- The operand registers of 40_command_engine R105 hold the same values. -/
structure SameOperands (s t : State) : Prop where
  srcAddr : t.srcAddr = s.srcAddr
  srcLen : t.srcLen = s.srcLen
  dstAddr : t.dstAddr = s.dstAddr
  dstMax : t.dstMax = s.dstMax
  gsrcAddr : t.gsrcAddr = s.gsrcAddr
  gdstAddr : t.gdstAddr = s.gdstAddr
  width : t.width = s.width
  height : t.height = s.height
  comp : t.comp = s.comp
  enc : t.enc = s.enc
  keyLen : t.keyLen = s.keyLen
  key : t.key = s.key

/-- What no completion changes (10_state R47, 40_command_engine R104): the operands, CTRL, STATUS.OVR, CMD, the
parameters and the host's side. -/
structure KeepsConfiguration (s t : State) : Prop extends SameOperands s t where
  params : t.params = s.params
  irqEn : t.irqEn = s.irqEn
  ovr : t.ovr = s.ovr
  cmd : t.cmd = s.cmd
  host : t.host = s.host
  replies : t.replies = s.replies

/-- A completed command (40_command_engine R104): IDLE, DONE, the configuration kept. -/
structure Completes (s t : State) : Prop extends KeepsConfiguration s t where
  seq : t.seq = .idle
  done : t.done = true

/-- A command completed with success and these results (40_command_engine R104, R111). -/
structure Succeeds (s t : State) (len aux : Word) (flag : Bool) : Prop extends Completes s t where
  resLen : t.resLen = len
  resAux : t.resAux = aux
  resFlag : t.resFlag = flag
  errCode : t.errCode = 0
  errReq : t.errReq = 0
  errAvail : t.errAvail = 0

/-- A command completed with an error and this report (40_command_engine R104, R110; 60_exceptions R201). -/
structure FailsWith (s t : State) (code : Byte) (req avail : Word) : Prop extends Completes s t where
  mem : t.mem = s.mem
  resLen : t.resLen = 0
  resAux : t.resAux = 0
  resFlag : t.resFlag = false
  errCode : t.errCode = code
  errReq : t.errReq = req
  errAvail : t.errAvail = avail

/-- The result and error registers hold the same values (10_state R29, R30, R39–R41). -/
structure SameOutcome (t u : State) : Prop where
  resLen : u.resLen = t.resLen
  resAux : u.resAux = t.resAux
  resFlag : u.resFlag = t.resFlag
  errCode : u.errCode = t.errCode
  errReq : u.errReq = t.errReq
  errAvail : u.errAvail = t.errAvail

/-- Every byte outside `[a, a + n)` reads as before (20_memory R78). -/
def UnchangedOutside (m m' : Memory) (a n : Nat) : Prop := ∀ x, x < a ∨ a + n ≤ x → m'.read x = m.read x

/-- The bytes at `a` are `bytes` and no other byte changed. -/
def Stores (m m' : Memory) (a : Nat) (bytes : Bytes) : Prop :=
  m'.readBytes a bytes.length = bytes ∧ UnchangedOutside m m' a bytes.length

/-- The common checks pass (40_command_engine R106, checks 2 to 5). -/
structure ChecksPass (i : Instr) (s : State) : Prop where
  stage : stageMissing i s = false
  keyLength : keyLengthWrong i s = false
  range : outOfRange i s = false
  overlap : overlapping i s = false

/-- The commands that use the draw (40_command_engine R102): SEAL, and ENCODE with ENC = 1. -/
def UsesDraw (i : Instr) (s : State) : Prop := i = .sealBlob ∨ (i = .encode ∧ s.enc = true)

/-- Two states agree on what a command reads: the operand registers of its row in 40_command_engine R105, the bytes
of its read regions, the parameters, and, for a command that uses it, the draw (R102). -/
def AgreeOnOperands (i : Instr) (s t : State) : Prop :=
  t.params = s.params ∧ (UsesDraw i s → t.draws = s.draws) ∧
  (∀ r ∈ readRegions i s, ∀ x, r.covers x = true → t.mem.read x = s.mem.read x) ∧
  match i with
  | .ser | .deser | .compress | .decompress | .frameBuild _ | .frameParse =>
    t.srcAddr = s.srcAddr ∧ t.srcLen = s.srcLen ∧ t.dstAddr = s.dstAddr ∧ t.dstMax = s.dstMax
  | .sealBlob | .openBlob =>
    t.srcAddr = s.srcAddr ∧ t.srcLen = s.srcLen ∧ t.dstAddr = s.dstAddr ∧ t.dstMax = s.dstMax ∧
      t.keyLen = s.keyLen ∧ t.key = s.key
  | .embed =>
    t.srcAddr = s.srcAddr ∧ t.srcLen = s.srcLen ∧ t.gsrcAddr = s.gsrcAddr ∧ t.gdstAddr = s.gdstAddr ∧
      t.width = s.width ∧ t.height = s.height
  | .extract =>
    t.gsrcAddr = s.gsrcAddr ∧ t.width = s.width ∧ t.height = s.height ∧ t.dstAddr = s.dstAddr ∧ t.dstMax = s.dstMax
  | .capacity => t.width = s.width ∧ t.height = s.height
  | .encode =>
    t.srcAddr = s.srcAddr ∧ t.srcLen = s.srcLen ∧ t.gsrcAddr = s.gsrcAddr ∧ t.gdstAddr = s.gdstAddr ∧
      t.width = s.width ∧ t.height = s.height ∧ t.comp = s.comp ∧ t.enc = s.enc ∧ t.keyLen = s.keyLen ∧ t.key = s.key
  | .decode =>
    t.gsrcAddr = s.gsrcAddr ∧ t.width = s.width ∧ t.height = s.height ∧ t.dstAddr = s.dstAddr ∧
      t.dstMax = s.dstMax ∧ t.enc = s.enc ∧ t.keyLen = s.keyLen ∧ t.key = s.key

/-- The codes of 60_exceptions R200; no other is ever written. -/
def resultCodes : List Byte :=
  [0x00, 0x01, 0x02, 0x03, 0x04, 0x05, 0x06, 0x07, 0x08, 0x10, 0x11, 0x12, 0x13, 0x14]

/-- The result and error registers describe one completed command (10_state R29, R30, R39–R41; 60_exceptions R200):
a code of the table; no report after success; no result after an error. -/
structure ReportConsistent (s : State) : Prop where
  code : s.errCode ∈ resultCodes
  report : s.errCode = 0 → s.errReq = 0 ∧ s.errAvail = 0
  result : s.errCode ≠ 0 → s.resLen = 0 ∧ s.resAux = 0 ∧ s.resFlag = false

/-- While a command runs, DONE reads 0 (40_command_engine R100). -/
def BusyNotDone (s : State) : Prop := s.seq = .busy → s.done = false

end Machine

end Sys2Proof
end

