-- ==== Sys2Proof/Certificates/Slice0/Obligations.lean ====
section
/-! DEFINITION. The statements for the provers, from the numbered rules of spec/. Each docstring names the rule. -/

open Sys2Proof Sys2Proof.Machine

/-! ### Encoding (30_encoding) -/

/-- 30_encoding R84, R85: decoding gives a command exactly for that command's own word. -/
def Obligations.DecodeExactlyInvertsEncode : Prop :=
  ∀ (w : Word) (i : Instr), decode w = .ok i ↔ w = encode i

/-- 30_encoding R84: a word selects a row of the table when `w & mask = match`, at most one row matches, and the
decoder gives the selected row's command, FRAME_BUILD's flag being the F bit. -/
def Obligations.TableRowsSelectTheDecodedCommand : Prop :=
  ∀ w : Word,
    (∀ i, decode w = .ok i ↔
      (∃ r ∈ opcodeTable, w &&& r.mask = r.pattern ∧ r.mnemonic = mnemonicOf i) ∧
        ∀ f, i = .frameBuild f → f = w.getLsbD 8) ∧
    ∀ r ∈ opcodeTable, ∀ r' ∈ opcodeTable, w &&& r.mask = r.pattern → w &&& r'.mask = r'.pattern → r = r'

/-- 30_encoding R86: which words are illegal; one is accepted like any other, sets BUSY, and completes with
IllegalCommand, no memory write and no operand register changed. -/
def Obligations.IllegalWordsCompleteWithIllegalCommand : Prop :=
  (∀ w : Word, (∀ i, decode w ≠ .ok i) ↔
    (w.extractLsb' 9 23 ≠ 0#23 ∨ (w.getLsbD 8 = true ∧ w.extractLsb' 0 8 ≠ 0x20#8) ∨
      w.extractLsb' 0 8 ∉
        [0x01#8, 0x02#8, 0x10#8, 0x11#8, 0x12#8, 0x13#8, 0x20#8, 0x21#8, 0x22#8, 0x23#8, 0x24#8, 0x25#8, 0x26#8])) ∧
  (∀ (s : State) (w : Word), s.seq = .idle → (∀ i, decode w ≠ .ok i) →
    (writeReg s .cmd w).seq = .busy ∧ (writeReg s .cmd w).cmd = w) ∧
  (∀ s : State, engineMoves s = true → (∀ i, decode s.cmd ≠ .ok i) →
    ∃ t, step s = .next t ∧ FailsWith s t 0x10 0 0)

/-- 30_encoding R84: some words of the table, and some that are none. -/
def Obligations.SampleWordsDecode : Prop :=
  decode 0b00000000000000000000000000000001#32 = .ok .ser ∧
  decode 0b00000000000000000000000000010011#32 = .ok .openBlob ∧
  decode 0b00000000000000000000000100100000#32 = .ok (.frameBuild true) ∧
  decode 0b00000000000000000000000000100010#32 = .ok .embed ∧
  decode 0b00000000000000000000000000100110#32 = .ok .decode ∧
  decode 0x00000000#32 = .error .unassignedOp ∧
  decode 0x00000101#32 = .error .strayFlag ∧
  decode 0x00000220#32 = .error .reservedBits

/-! ### The step and its agents (00_scope R13, 40_command_engine R100–R104, 70_reset_and_hazards R245, R247) -/

/-- 40_command_engine R102, R104: when the engine moves, the step is the decoded command's completion; else it is the
host's turn. The engine never moves while idle, and moves at once where the host has no move left, polls DONE = 0, or no
delay is left (log 4), as in the state that stands for a fetched command (log 11). -/
def Obligations.StepRunsTheDecodedCommand : Prop :=
  ∀ s : State,
    (∀ i, engineMoves s = true → decode s.cmd = .ok i → step s = exec i s) ∧
    (engineMoves s = false → step s = hostTurn s) ∧
    (s.seq = .idle → engineMoves s = false) ∧
    (s.seq = .busy → s.host = [] ∨ s.delay = 0 ∨ (∃ rest, s.host = .wait :: rest ∧ s.done = false) →
      engineMoves s = true) ∧
    (∀ i w, w < 2 ^ 32 → decode (BitVec.ofNat 32 w) = .ok i →
      step (s.withFetchWord 32 w) = exec i (s.withFetchWord 32 w))

/-- 40_command_engine R101: a start stores the word, sets BUSY, clears DONE and changes nothing else of the block (the
model's draw and delay are log 4's); a write to CMD while busy is not a start. -/
def Obligations.StartSetsBusyAndNothingElse : Prop :=
  ∀ (s : State) (w : Word) (rest : List HostMove), s.host = .regWrite 0x14 w :: rest →
    (s.seq = .idle → ∃ t, step s = .next t ∧ t.cmd = w ∧ t.seq = .busy ∧ t.done = false ∧ t.host = rest ∧
      { t with cmd := s.cmd, seq := s.seq, done := s.done, host := s.host, draws := s.draws, delay := s.delay } = s) ∧
    (s.seq = .busy → engineMoves s = false → ∃ t, step s = .next t ∧ t.seq = .busy ∧ t.cmd = s.cmd ∧
      t.done = s.done ∧ t.ovr = true)

/-- 60_exceptions R200, 10_state R29, R30, R39–R41: in every step the result and error registers go on describing one
completed command. -/
def Obligations.ReportStaysConsistent : Prop :=
  ∀ s t : State, ReportConsistent s → step s = .next t → ReportConsistent t

/-- 40_command_engine R100: every step keeps `DONE = 0` while a command runs. -/
def Obligations.BusyNeverShowsDone : Prop :=
  ∀ s t : State, BusyNotDone s → step s = .next t → BusyNotDone t

/-- 20_memory R61, R62: every step keeps data memory in its canonical form, every listed address below 2^32. -/
def Obligations.MemoryStaysCanonical : Prop :=
  ∀ s t : State, s.mem.wf = true → step s = .next t → t.mem.wf = true

/-- 70_reset_and_hazards R230: the state after reset meets the three invariants. -/
def Obligations.ResetMeetsTheInvariants : Prop :=
  ReportConsistent State.reset ∧ BusyNotDone State.reset ∧ State.reset.mem.wf = true

/-- 60_exceptions R221, 70_reset_and_hazards R247: idle, with no move of the host left or only a poll that reads
DONE = 0, the machine stays as it is (log 12: the model's stutter). -/
def Obligations.IdleBlockDoesNothing : Prop :=
  ∀ s : State, s.seq = .idle →
    (s.host = [] ∨ ∃ rest, s.host = .wait :: rest ∧ s.done = false) → step s = .next s

/-- 70_reset_and_hazards R245: a running command completes (or a reset ends it) within the moves its delay allows, or
the run stops, on the host's turn, at a move the host does not have (logs 4, 6, 7, 18, 23). -/
def Obligations.BusyCommandsComplete : Prop :=
  ∀ s : State, s.seq = .busy →
    ∃ k, k ≤ s.delay + 1 ∧
      ((∃ t, Host.Core.run core k s = .next t ∧ t.seq = .idle) ∨
        ∃ u r, Host.Core.run core k s = .next u ∧ engineMoves u = false ∧ step u = .refused r ∧
          r ∈ [Refusal.runningRegionAccess, .misalignedRegisterAccess, .outsideRegisterWindow, .outsideDataMemory])

/-- 00_scope R5, 10_state R49: no step changes an implementation parameter. -/
def Obligations.ParametersNeverChange : Prop :=
  ∀ s t : State, step s = .next t → t.params = s.params

/-- 10_state R45, R44, 70_reset_and_hazards R242, 40_command_engine R103: short of a completion and a reset no step
changes a result or error register, and while a command runs none changes an operand or CMD. -/
def Obligations.OnlyCompletionChangesResults : Prop :=
  ∀ s t : State, engineMoves s = false → (∀ rest, s.host ≠ .reset :: rest) → step s = .next t →
    SameOutcome s t ∧ (s.seq = .busy → SameOperands s t ∧ t.cmd = s.cmd ∧ t.seq = .busy)

/-! ### What every command keeps (10_state R47, 20_memory R78, 40_command_engine R105, R106) -/

/-- 20_memory R78, 40_command_engine R104: every command completes, keeps the configuration, writes no byte outside its
written regions, and writes none at all when it fails; an illegal word writes none. -/
def Obligations.CommandsWriteOnlyTheirRegions : Prop :=
  (∀ (i : Instr) (s : State), ∃ t, exec i s = .next t ∧ Completes s t ∧
    (t.errCode ≠ 0 → t.mem = s.mem) ∧
    ∀ x, (∀ r ∈ writtenRegions i s, x < r.1 ∨ r.1 + r.2 ≤ x) → t.mem.read x = s.mem.read x) ∧
  ∀ s : State, ∃ t, illegalCommand s = .next t ∧ Completes s t ∧ t.mem = s.mem

/-- 40_command_engine R105: a command with a linear destination writes only the first RES_LEN bytes of its window. -/
def Obligations.LinearCommandsWriteResLenBytes : Prop :=
  ∀ (i : Instr) (s : State), i ≠ .embed → i ≠ .encode → ∃ t, exec i s = .next t ∧
    UnchangedOutside s.mem t.mem s.dstAddr.toNat t.resLen.toNat

/-- 45_codec_operations R174, 44_pixel_walker R164: after EMBED or ENCODE the destination grid is the source grid with
at most the red LSBs of the first RES_LEN pixels changed; no other byte of memory changed. -/
def Obligations.GridCommandsChangeOnlyRedLsbs : Prop :=
  ∀ (i : Instr) (s : State), i = .embed ∨ i = .encode → s.mem.wf = true → ∃ t, exec i s = .next t ∧
    UnchangedOutside s.mem t.mem s.gdstAddr.toNat s.gridSize ∧
    (t.errCode = 0 → ∀ k, k < s.gridSize →
      (k % 4 ≠ 0 ∨ t.resLen.toNat ≤ k / 4 →
        t.mem.read (s.gdstAddr.toNat + k) = s.mem.read (s.gsrcAddr.toNat + k)) ∧
      ∀ b, 1 ≤ b → (t.mem.read (s.gdstAddr.toNat + k)).getLsbD b = (s.mem.read (s.gsrcAddr.toNat + k)).getLsbD b)

/-- 10_state R47, 40_command_engine R102: nothing of an earlier command (results, errors, STATUS, CMD, CTRL) bears on
what a command does; only SEAL, and ENCODE with ENC = 1, use the draw. -/
def Obligations.NothingOfACommandSurvives : Prop :=
  ∀ (i : Instr) (s s' : State), SameOperands s s' → s'.params = s.params → s'.mem = s.mem →
    (i = .sealBlob ∨ (i = .encode ∧ s.enc = true) → s'.draws = s.draws) →
    ∃ t t', exec i s = .next t ∧ exec i s' = .next t' ∧ SameOutcome t t' ∧ t'.mem = t.mem

/-- 40_command_engine R105, R102: a command's results and the bytes it writes (the first RES_LEN at DST_ADDR; the whole
grid at GDST_ADDR) depend on the operand registers and read regions of its row, on the parameters, on the draw for SEAL
and for ENCODE with ENC = 1, and on nothing else. -/
def Obligations.CommandsReadOnlyTheirOperands : Prop :=
  ∀ (i : Instr) (s s' : State), AgreeOnOperands i s s' →
    ∃ t t', exec i s = .next t ∧ exec i s' = .next t' ∧ SameOutcome t t' ∧
      (s.mem.wf = true → s'.mem.wf = true →
        (i ≠ .embed → i ≠ .encode → ∀ k, k < t.resLen.toNat →
          t'.mem.read (s.dstAddr.toNat + k) = t.mem.read (s.dstAddr.toNat + k)) ∧
        (i = .embed ∨ i = .encode → t.errCode = 0 → ∀ k, k < 4 * (s.width.toNat * s.height.toNat) →
          t'.mem.read (s.gdstAddr.toNat + k) = t.mem.read (s.gdstAddr.toNat + k)))

/-- 40_command_engine R113, R106: StageAbsent comes first among the checks of a decoded command. -/
def Obligations.MissingStageIsReported : Prop :=
  ∀ (i : Instr) (s : State),
    (((i = .compress ∨ i = .decompress ∨ (i = .encode ∧ s.comp = true)) ∧ s.params.hasComp = false) ∨
      ((i = .sealBlob ∨ i = .openBlob ∨ ((i = .encode ∨ i = .decode) ∧ s.enc = true)) ∧
        s.params.hasCipher = false)) →
    ∃ t, exec i s = .next t ∧ FailsWith s t 0x11 0 0

/-- 40_command_engine R107, R106: with the stages present, a command that uses a key fails InvalidKeyLength exactly
when KEY_LEN is not 32, reporting (32, KEY_LEN); a command that uses none never does. -/
def Obligations.WrongKeyLengthIsReported : Prop :=
  ∀ (i : Instr) (s : State),
    let uses := i = .sealBlob ∨ i = .openBlob ∨ ((i = .encode ∨ i = .decode) ∧ s.enc = true)
    (uses → s.keyLen ≠ 32 → stageMissing i s = false →
      ∃ t, exec i s = .next t ∧ FailsWith s t 0x01 32 (zext32 s.keyLen.toNat)) ∧
    (¬(uses ∧ s.keyLen ≠ 32) → ∃ t, exec i s = .next t ∧ t.errCode ≠ 0x01)

/-- 40_command_engine R105, 20_memory R61, R108, R106: the regions each command reads and writes; with stages and key
in order, a region of the command that is not empty and passes MEM_SIZE ends it with AddressRange, and nothing else
does. -/
def Obligations.RegionsOutsideTheWindowAreReported : Prop :=
  (∀ (s : State) (f : Bool),
    let src : Region := (s.srcAddr.toNat, s.srcLen.toNat)
    let dst : Region := (s.dstAddr.toNat, s.dstMax.toNat)
    let gsrc : Region := (s.gsrcAddr.toNat, 4 * (s.width.toNat * s.height.toNat))
    let gdst : Region := (s.gdstAddr.toNat, 4 * (s.width.toNat * s.height.toNat))
    (∀ i ∈ [Instr.ser, .deser, .compress, .decompress, .sealBlob, .openBlob, .frameBuild f, .frameParse],
      readRegions i s = [src] ∧ writtenRegions i s = [dst]) ∧
    (∀ i ∈ [Instr.embed, .encode], readRegions i s = [src, gsrc] ∧ writtenRegions i s = [gdst]) ∧
    (∀ i ∈ [Instr.extract, .decode], readRegions i s = [gsrc] ∧ writtenRegions i s = [dst]) ∧
    readRegions .capacity s = [] ∧ writtenRegions .capacity s = []) ∧
  ∀ (i : Instr) (s : State),
    let outside := ∃ r : Region, (r ∈ readRegions i s ∨ r ∈ writtenRegions i s) ∧ r.2 ≠ 0 ∧
      s.params.memSize < r.1 + r.2
    (outside → stageMissing i s = false → keyLengthWrong i s = false →
      ∃ t, exec i s = .next t ∧ FailsWith s t 0x12 0 0) ∧
    (¬outside → ∃ t, exec i s = .next t ∧ t.errCode ≠ 0x12)

/-- 20_memory R72, 40_command_engine R109, R106: with the other checks passed, a written region that shares a byte with
a read region ends the command with Overlap, except the destination grid over the very same source grid, compared by
value (log 10); nothing else does. -/
def Obligations.OverlappingRegionsAreReported : Prop :=
  ∀ (i : Instr) (s : State),
    let sharing := ∃ w ∈ writtenRegions i s, ∃ r ∈ readRegions i s,
      0 < w.2 ∧ 0 < r.2 ∧ w.1 < r.1 + r.2 ∧ r.1 < w.1 + w.2 ∧
      ¬((i = .embed ∨ i = .encode) ∧ w = (s.gdstAddr.toNat, s.gridSize) ∧ r = (s.gsrcAddr.toNat, s.gridSize) ∧
        s.gdstAddr = s.gsrcAddr)
    (sharing → stageMissing i s = false → keyLengthWrong i s = false → outOfRange i s = false →
      ∃ t, exec i s = .next t ∧ FailsWith s t 0x13 0 0) ∧
    (¬sharing → ∃ t, exec i s = .next t ∧ t.errCode ≠ 0x13)

/-! ### The register window (10_state) -/

/-- 70_reset_and_hazards R247, 10_state R22, 20_memory R70, 30_encoding R89: a host access at a register's offset, or at
its platform address REG_BASE + offset (a number of any size: log 18, the model's choice), reads or writes that
register, and an access at REG_BASE + any offset is the access at that offset; a WAIT whose poll finds DONE = 1 is a read
of STATUS, and the host goes on. -/
def Obligations.HostAccessesReachTheRegister : Prop :=
  ∀ (s : State) (r : Reg) (v : Word) (m : HostMove) (rest : List HostMove), engineMoves s = false →
    s.host = m :: rest →
    let u := { s with host := rest, delay := s.delay - 1 }
    (m = .regRead r.offset ∨ m = .busRead (s.params.regBase + r.offset) →
      step s = .next { u with replies := .reg r.offset (readReg s r) :: s.replies }) ∧
    (m = .regWrite r.offset v ∨ m = .busWrite (s.params.regBase + r.offset) v →
      step s = .next (writeReg u r v)) ∧
    (∀ off, (m = .busRead (s.params.regBase + off) → step s = step { s with host := .regRead off :: rest }) ∧
      (m = .busWrite (s.params.regBase + off) v → step s = step { s with host := .regWrite off v :: rest })) ∧
    (m = .wait → s.done = true → step s = .next { u with replies := .reg 0x10 (readReg s .status) :: s.replies })

/-- 10_state R22, R28, R31–R36, R37: while idle the host reads back what it wrote, in the implemented bits; a key
register stores the word and reads 0. No other register but STATUS changes, nor does memory. -/
def Obligations.WritableRegistersReadBack : Prop :=
  ∀ (s : State) (v : Word), s.seq = .idle →
    readReg (writeReg s .ctrl v) .ctrl = v &&& 0x00000001 ∧
    readReg (writeReg s .cmd v) .cmd = v ∧
    (∀ r ∈ [Reg.srcAddr, .srcLen, .dstAddr, .dstMax, .gsrcAddr, .gdstAddr], readReg (writeReg s r v) r = v) ∧
    (∀ r ∈ [Reg.width, .height], readReg (writeReg s r v) r = v &&& 0x0000FFFF) ∧
    readReg (writeReg s .policy v) .policy = v &&& 0x0000FF03 ∧
    (∀ k : Fin 8, (writeReg s (.key k) v).key[k] = v ∧ readReg (writeReg s (.key k) v) (.key k) = 0 ∧
      ∀ j : Fin 8, j ≠ k → (writeReg s (.key k) v).key[j] = s.key[j]) ∧
    (∀ r r', r' ≠ r → r' ≠ .status → readReg (writeReg s r v) r' = readReg s r') ∧
    ∀ r, (writeReg s r v).mem = s.mem ∧ ((∀ k, r ≠ .key k) → (writeReg s r v).key = s.key)

/-- 10_state R23, R24: the identification registers read their constants, whatever the state, and ignore writes. -/
def Obligations.IdentificationRegistersAreConstant : Prop :=
  ∀ (s : State) (v : Word),
    readReg s .id = 0x53544731 ∧ readReg s .version = 0x00010000 ∧
    (readReg s .param).toNat = s.params.hasComp.toNat + 2 * s.params.hasCipher.toNat + 256 * s.params.nonceBytes +
      65536 * s.params.tagBytes.toNat ∧
    writeReg s .id v = s ∧ writeReg s .version v = s ∧ writeReg s .param v = s

/-- 10_state R25, R26: the bits of CTRL and STATUS, what sets them and what clears them, idle or busy. -/
def Obligations.StatusAndControlBits : Prop :=
  ∀ (s : State) (v : Word),
    (readReg s .ctrl).getLsbD 0 = s.irqEn ∧ (∀ b, 1 ≤ b → (readReg s .ctrl).getLsbD b = false) ∧
    writeReg s .ctrl v = { s with irqEn := v.getLsbD 0 } ∧
    ((readReg s .status).getLsbD 0 = true ↔ s.seq = .busy) ∧
    (readReg s .status).getLsbD 1 = s.done ∧
    ((readReg s .status).getLsbD 2 = true ↔ s.errCode ≠ 0) ∧
    (readReg s .status).getLsbD 3 = s.ovr ∧ (∀ b, 4 ≤ b → (readReg s .status).getLsbD b = false) ∧
    writeReg s .status v = { s with done := s.done && !v.getLsbD 1, ovr := s.ovr && !v.getLsbD 3 } ∧
    (∀ i, ∃ t, exec i s = .next t ∧ t.done = true) ∧ (∃ t, illegalCommand s = .next t ∧ t.done = true) ∧
    (s.seq = .idle → (writeReg s .cmd v).done = false) ∧
    (∀ r, locked r = true → s.seq = .busy → (writeReg s r v).ovr = true)

/-- 10_state R44: a write to a locked register while busy leaves it unchanged and sets OVR; while idle it is stored, and
a write to CMD also starts a command; a register that is not locked takes no notice of BUSY. -/
def Obligations.LockedWritesWhileBusyAreLost : Prop :=
  ∀ (s : State) (r : Reg) (v : Word),
    let isLocked := r ∈ [Reg.cmd, .srcAddr, .srcLen, .dstAddr, .dstMax, .gsrcAddr, .gdstAddr, .width, .height,
      .policy] ∨ ∃ k, r = .key k
    (isLocked → s.seq = .busy → writeReg s r v = { s with ovr := true }) ∧
    (s.seq = .idle ∨ ¬isLocked → writeReg s r v = storeReg s r v ∧ (storeReg s r v).ovr = (s.ovr &&
      !(r == .status && v.getLsbD 3))) ∧
    (s.seq = .idle → (writeReg s r v).seq = if r = .cmd then .busy else .idle)

/-- 10_state R42: a host read at a reserved offset gives 0 and a write there has no effect, even while busy; reserved
bits of implemented registers read 0 and ignore writes. -/
def Obligations.ReservedOffsetsAndBitsAreZero : Prop :=
  ∀ (s : State) (v : Word),
    (∀ off, off % 4 = 0 → (0x54 ≤ off ∧ off ≤ 0x5C) ∨ (0x80 ≤ off ∧ off ≤ 0xFC) →
      readOffset s off = 0 ∧ writeOffset s off v = s ∧
      ∀ m rest, engineMoves s = false → s.host = m :: rest →
        let u := { s with host := rest, delay := s.delay - 1 }
        (m = .regRead off → step s = .next { u with replies := .reg off 0 :: s.replies }) ∧
        (m = .regWrite off v → step s = .next u)) ∧
    readReg s .ctrl &&& 0xFFFFFFFE = 0 ∧ writeReg s .ctrl v = writeReg s .ctrl (v &&& 0x00000001) ∧
    readReg s .status &&& 0xFFFFFFF0 = 0 ∧ writeReg s .status v = writeReg s .status (v &&& 0x0000000F) ∧
    readReg s .errCode &&& 0xFFFFFF00 = 0 ∧ readReg s .resFlag &&& 0xFFFFFFFE = 0 ∧
    (∀ r ∈ [Reg.width, .height],
      readReg s r &&& 0xFFFF0000 = 0 ∧ writeReg s r v = writeReg s r (v &&& 0x0000FFFF)) ∧
    readReg s .policy &&& 0xFFFF00FC = 0 ∧ writeReg s .policy v = writeReg s .policy (v &&& 0x0000FF03)

/-- 10_state R43, 60_exceptions R207: a register access that is not at an aligned offset of the window, or at a platform
address that is none of one, is refused by name (log 7: the model's names; log 18: a platform address is a number of any
size). -/
def Obligations.OtherRegisterAccessesAreRefused : Prop :=
  ∀ (s : State) (v : Word) (rest : List HostMove), engineMoves s = false →
    (∀ off, s.host = .regRead off :: rest ∨ s.host = .regWrite off v :: rest →
      (256 ≤ off → step s = .refused .outsideRegisterWindow) ∧
      (off < 256 → off % 4 ≠ 0 → step s = .refused .misalignedRegisterAccess)) ∧
    ∀ addr, s.host = .busRead addr :: rest ∨ s.host = .busWrite addr v :: rest →
      (addr < s.params.regBase ∨ s.params.regBase + 256 ≤ addr → step s = .refused .outsideRegisterWindow) ∧
      (∀ off, off < 256 → off % 4 ≠ 0 → addr = s.params.regBase + off →
        step s = .refused .misalignedRegisterAccess)

/-- 60_exceptions R210, R211: IRQ is `DONE ∧ IRQ_EN`; success and error raise it alike; a W1C of DONE, a start,
clearing IRQ_EN, and reset each clear it. -/
def Obligations.InterruptOutputIsLevel : Prop :=
  ∀ (s : State) (v : Word),
    (s.irq = true ↔ s.done = true ∧ s.irqEn = true) ∧
    (∀ i, ∃ t, exec i s = .next t ∧ t.irq = s.irqEn) ∧ (∃ t, illegalCommand s = .next t ∧ t.irq = s.irqEn) ∧
    (v.getLsbD 1 = true → (writeReg s .status v).irq = false) ∧
    (s.seq = .idle → (writeReg s .cmd v).irq = false) ∧
    (v.getLsbD 0 = false → (writeReg s .ctrl v).irq = false) ∧
    (resetInput s).irq = false

/-- 60_exceptions R216, 10_state R37: what the host gets back never depends on a key byte. -/
def Obligations.KeysAreNeverReadBack : Prop :=
  ∀ (s : State) (k : Vector Word 8) (t : State), engineMoves s = false → step s = .next t →
    ∃ t', step { s with key := k } = .next t' ∧ t'.replies = t.replies

/-- 10_state R38, 30_encoding R89: the host script KEY leaves the 32 bytes it names as the key, byte 0 in the least
significant byte of KEY0. -/
def Obligations.KeyScriptLoadsTheKey : Prop :=
  ∀ (s : State) (bs : Bytes) (rest : List HostMove), s.seq = .idle → bs.length = 32 → s.host = scriptKey bs ++ rest →
    ∃ t, Host.Core.run core 8 s = .next t ∧ t.keyBytes = bs ∧ t.host = rest ∧
      ∀ j, j < 32 → t.keyBytes[j]? = (t.key[j / 4]?).map fun w => w.extractLsb' (8 * (j % 4)) 8

/-! ### Memory and reset as the host sees them (70_reset_and_hazards) -/

/-- 70_reset_and_hazards R247, 20_memory R62: idle, the host reads and writes any byte of data memory, and nothing else
of the machine changes; an address of 2^32 or more, where there is no byte (10_state R46), is refused by name, idle or
busy (log 23: the model's choice). -/
def Obligations.IdleHostOwnsMemory : Prop :=
  ∀ (s : State) (a : Nat) (b : Byte) (rest : List HostMove),
    (s.seq = .idle → a < 2 ^ 32 →
      (s.host = .memWrite a b :: rest → ∃ t, step s = .next t ∧
        (s.mem.wf = true → t.mem.read a = b) ∧ (∀ x, x ≠ a → t.mem.read x = s.mem.read x) ∧
        t.host = rest ∧ { t with mem := s.mem, host := s.host, delay := s.delay } = s) ∧
      (s.host = .memRead a :: rest → ∃ t, step s = .next t ∧ t.replies = .byte a (s.mem.read a) :: s.replies ∧
        t.host = rest ∧ { t with replies := s.replies, host := s.host, delay := s.delay } = s)) ∧
    (engineMoves s = false → 2 ^ 32 ≤ a → s.host = .memWrite a b :: rest ∨ s.host = .memRead a :: rest →
      step s = .refused .outsideDataMemory)

/-- 70_reset_and_hazards R240, R247: while a command runs, the host has no move that writes a byte of its read regions
or touches a byte of its written regions (log 6: the refusal is the model's); every other access to a byte of data memory
it has, and an illegal word has no region. -/
def Obligations.RunningRegionsAreTheEngines : Prop :=
  ∀ (s : State) (a : Nat) (b : Byte) (rest : List HostMove),
    s.seq = .busy → engineMoves s = false → a < 2 ^ 32 →
    let inRegions := fun rs : List Region => ∃ r ∈ rs, r.1 ≤ a ∧ a < r.1 + r.2
    let reads := ∃ i, decode s.cmd = .ok i ∧ inRegions (readRegions i s)
    let writes := ∃ i, decode s.cmd = .ok i ∧ inRegions (writtenRegions i s)
    (s.host = .memRead a :: rest →
      (writes → step s = .refused .runningRegionAccess) ∧
      (¬writes → ∃ t, step s = .next t ∧ t.replies = .byte a (s.mem.read a) :: s.replies)) ∧
    (s.host = .memWrite a b :: rest →
      (reads ∨ writes → step s = .refused .runningRegionAccess) ∧
      (¬(reads ∨ writes) → ∃ t, step s = .next t ∧ t.mem = s.mem.write a b))

/-- 70_reset_and_hazards R230, R231: the reset input puts every stored register at its reset value, the engine at IDLE
and IRQ at 0, leaves the constants, and, when idle, leaves data memory. -/
def Obligations.ResetInputClearsTheRegisters : Prop :=
  ∀ (s : State) (rest : List HostMove), engineMoves s = false → s.host = .reset :: rest →
    ∃ t, step s = .next t ∧ t.seq = .idle ∧ t.irq = false ∧ t.host = rest ∧
      (∀ r, r ≠ .id → r ≠ .version → r ≠ .param → readReg t r = 0) ∧ (∀ k : Fin 8, t.key[k] = 0) ∧
      (∀ r ∈ [Reg.id, .version, .param], readReg t r = readReg s r) ∧
      (s.seq = .idle → t.mem = s.mem)

/-- 70_reset_and_hazards R232: a reset during a command puts a free byte (log 9) at every address of the written
region that exists, leaves all other memory, and leaves DONE at 0; an illegal word has no written region, and a reset
during one leaves memory whole. -/
def Obligations.ResetDuringACommandFreesItsOutput : Prop :=
  ∀ (s : State) (rest : List HostMove), s.seq = .busy → engineMoves s = false →
    s.host = .reset :: rest → s.mem.wf = true →
    ∃ t, step s = .next t ∧ t.seq = .idle ∧ t.done = false ∧
      (∀ i, decode s.cmd = .ok i →
        (∀ r ∈ writtenRegions i s, ∀ x, r.1 ≤ x → x < r.1 + r.2 → x < 2 ^ 32 →
          t.mem.read x = Config.resetByte s.draws x) ∧
        ∀ x, (∀ r ∈ writtenRegions i s, x < r.1 ∨ r.1 + r.2 ≤ x) → t.mem.read x = s.mem.read x) ∧
      ((∀ i, decode s.cmd ≠ .ok i) → t.mem = s.mem)

/-! ### The bitstream adapter (41_bitstream_adapter) -/

/-- 41_bitstream_adapter R121, R120: SER stores each source byte as eight elements, most significant bit first. -/
def Obligations.SerWritesOneElementPerBit : Prop :=
  ∀ s : State, s.mem.wf = true → ChecksPass .ser s → 8 * s.srcLen.toNat ≤ s.dstMax.toNat →
    ∃ t, exec .ser s = .next t ∧ Succeeds s t (zext32 (8 * s.srcLen.toNat)) 0 false ∧
      (∀ k j, k < s.srcLen.toNat → j < 8 → t.mem.read (s.dstAddr.toNat + 8 * k + j) =
        if (s.mem.read (s.srcAddr.toNat + k)).getLsbD (7 - j) then 0x01 else 0x00) ∧
      UnchangedOutside s.mem t.mem s.dstAddr.toNat (8 * s.srcLen.toNat)

/-- 41_bitstream_adapter R123, R122: DESER packs bit 0 of each eight elements into a byte, most significant first. -/
def Obligations.DeserPacksEightElementsPerByte : Prop :=
  ∀ s : State, s.mem.wf = true → ChecksPass .deser s → s.srcLen.toNat % 8 = 0 →
    s.srcLen.toNat / 8 ≤ s.dstMax.toNat →
    ∃ t, exec .deser s = .next t ∧ Succeeds s t (zext32 (s.srcLen.toNat / 8)) 0 false ∧
      (∀ k j, k < s.srcLen.toNat / 8 → j < 8 → (t.mem.read (s.dstAddr.toNat + k)).getLsbD (7 - j) =
        (s.mem.read (s.srcAddr.toNat + 8 * k + j)).getLsbD 0) ∧
      UnchangedOutside s.mem t.mem s.dstAddr.toNat (s.srcLen.toNat / 8)

/-- 41_bitstream_adapter R123, 60_exceptions R203: a bit count that is no multiple of 8 fails MalformedLength with its
report, whatever DST_MAX is. -/
def Obligations.DeserRejectsPartialBytes : Prop :=
  ∀ s : State, ChecksPass .deser s → s.srcLen.toNat % 8 ≠ 0 →
    ∃ t, exec .deser s = .next t ∧ FailsWith s t 0x05 s.srcLen (zext32 (s.srcLen.toNat % 8))

/-- 40_command_engine R112, 60_exceptions R203: SER, DESER, FRAME_BUILD and EXTRACT fail OutputOverflow when their
output is longer than DST_MAX, reporting its length, saturated, and DST_MAX. -/
def Obligations.LongOutputsOverflow : Prop :=
  ∀ s : State,
    (ChecksPass .ser s → s.dstMax.toNat < 8 * s.srcLen.toNat →
      ∃ t, exec .ser s = .next t ∧
        FailsWith s t 0x14 (BitVec.ofNat 32 (min (8 * s.srcLen.toNat) (2 ^ 32 - 1))) s.dstMax) ∧
    (ChecksPass .deser s → s.srcLen.toNat % 8 = 0 → s.dstMax.toNat < s.srcLen.toNat / 8 →
      ∃ t, exec .deser s = .next t ∧ FailsWith s t 0x14 (BitVec.ofNat 32 (s.srcLen.toNat / 8)) s.dstMax) ∧
    (∀ f, ChecksPass (.frameBuild f) s → s.dstMax.toNat < 33 + 8 * s.srcLen.toNat →
      ∃ t, exec (.frameBuild f) s = .next t ∧
        FailsWith s t 0x14 (BitVec.ofNat 32 (min (33 + 8 * s.srcLen.toNat) (2 ^ 32 - 1))) s.dstMax) ∧
    (ChecksPass .extract s → s.dstMax.toNat < s.width.toNat * s.height.toNat →
      ∃ t, exec .extract s = .next t ∧
        FailsWith s t 0x14 (BitVec.ofNat 32 (s.width.toNat * s.height.toNat)) s.dstMax)

/-- 41_bitstream_adapter R124: the two round-trip laws, and the lengths that have a byte sequence (R122). -/
def Obligations.BitsAndBytesRoundTrip : Prop :=
  (∀ bs : Bytes, bitsToBytes (bytesToBits bs) = some bs) ∧
  (∀ s : Bits, s.length % 8 = 0 → ∃ bs, bitsToBytes s = some bs ∧ bytesToBits bs = s) ∧
  (∀ s : Bits, s.length % 8 ≠ 0 → bitsToBytes s = none)

/-- 41_bitstream_adapter R125: DESER over SER's output reproduces the source bytes. -/
def Obligations.DeserUndoesSer : Prop :=
  ∀ s t u : State, s.mem.wf = true → exec .ser s = .next t → t.errCode = 0 →
    u.mem = t.mem → u.srcAddr = s.dstAddr → u.srcLen = t.resLen → ChecksPass .deser u →
    s.srcLen.toNat ≤ u.dstMax.toNat →
    ∃ v, exec .deser u = .next v ∧ Succeeds u v s.srcLen 0 false ∧
      v.mem.readBytes u.dstAddr.toNat s.srcLen.toNat = s.mem.readBytes s.srcAddr.toNat s.srcLen.toNat

/-! ### The payload pipeline (42_payload_pipeline) -/

/-- 42_payload_pipeline R133, R134: COMPRESS and DECOMPRESS write what their stage gives, with its length as RES_LEN;
CorruptPayload where the stage rejects its input; OutputOverflow where the output is too long. It holds over
any stage units; `exec` is the meaning over the chip's (log 2). -/
def Obligations.CompressionCommandsApplyTheStage : Prop :=
  ∀ (st : Stages) (s : State), s.mem.wf = true →
    let src := s.mem.readBytes s.srcAddr.toNat s.srcLen.toNat
    let ends := fun (t : State) (out : Bytes) =>
      (out.length ≤ s.dstMax.toNat →
        Succeeds s t (zext32 out.length) 0 false ∧ Stores s.mem t.mem s.dstAddr.toNat out) ∧
      (s.dstMax.toNat < out.length →
        FailsWith s t 0x14 (BitVec.ofNat 32 (min out.length (2 ^ 32 - 1))) s.dstMax)
    (ChecksPass .compress s → ∃ t, compressWith st s = .next t ∧
      (st = Config.stages → exec .compress s = .next t) ∧ ends t (st.compress src)) ∧
    (ChecksPass .decompress s → ∃ t, decompressWith st s = .next t ∧
      (st = Config.stages → exec .decompress s = .next t) ∧
      (st.decompress src = none → FailsWith s t 0x06 0 0) ∧
      (∀ out, st.decompress src = some out → ends t out))

/-- 42_payload_pipeline R136, R137, R135: SEAL writes the nonce drawn (log 3) and the sealed source; OPEN checks the
nonce's length and then writes what the cipher opens, or fails CiphertextTooShort or AuthenticationFailed. It holds over
any stage units; `exec` is the meaning over the chip's (log 2). -/
def Obligations.CipherCommandsApplyTheStage : Prop :=
  ∀ (st : Stages) (s : State), s.mem.wf = true →
    let src := s.mem.readBytes s.srcAddr.toNat s.srcLen.toNat
    let n := s.params.nonceBytes
    let nonce := (List.range n).map (Config.nonceByte s.draws)
    let ends := fun (t : State) (out : Bytes) =>
      (out.length ≤ s.dstMax.toNat →
        Succeeds s t (zext32 out.length) 0 false ∧ Stores s.mem t.mem s.dstAddr.toNat out) ∧
      (s.dstMax.toNat < out.length →
        FailsWith s t 0x14 (BitVec.ofNat 32 (min out.length (2 ^ 32 - 1))) s.dstMax)
    (ChecksPass .sealBlob s → ∃ t, sealWith st s = .next t ∧ (st = Config.stages → exec .sealBlob s = .next t) ∧
      ends t (nonce ++ st.aeadSeal s.keyBytes nonce src)) ∧
    (ChecksPass .openBlob s → ∃ t, openWith st s = .next t ∧ (st = Config.stages → exec .openBlob s = .next t) ∧
      (s.srcLen.toNat < n → FailsWith s t 0x08 (zext32 n) s.srcLen) ∧
      (n ≤ s.srcLen.toNat → st.aeadOpen s.keyBytes (src.take n) (src.drop n) = none → FailsWith s t 0x07 0 0) ∧
      (n ≤ s.srcLen.toNat → ∀ out, st.aeadOpen s.keyBytes (src.take n) (src.drop n) = some out → ends t out))

/-! ### The frame (43_frame_builder) -/

/-- 43_frame_builder R152, R150: FRAME_BUILD stores the flag, the 32 length bits most significant first, and eight
elements per payload byte. -/
def Obligations.FrameBuildWritesTheFrame : Prop :=
  ∀ (s : State) (f : Bool), s.mem.wf = true → ChecksPass (.frameBuild f) s →
    33 + 8 * s.srcLen.toNat ≤ s.dstMax.toNat →
    ∃ t, exec (.frameBuild f) s = .next t ∧ Succeeds s t (zext32 (33 + 8 * s.srcLen.toNat)) s.srcLen f ∧
      t.mem.read s.dstAddr.toNat = (if f then 0x01 else 0x00) ∧
      (∀ j, j < 32 → t.mem.read (s.dstAddr.toNat + 1 + j) = if s.srcLen.getLsbD (31 - j) then 0x01 else 0x00) ∧
      (∀ k j, k < s.srcLen.toNat → j < 8 → t.mem.read (s.dstAddr.toNat + 33 + 8 * k + j) =
        if (s.mem.read (s.srcAddr.toNat + k)).getLsbD (7 - j) then 0x01 else 0x00) ∧
      UnchangedOutside s.mem t.mem s.dstAddr.toNat (33 + 8 * s.srcLen.toNat)

/-- 43_frame_builder R154, R153: FRAME_PARSE reads the flag from element 0 and the big-endian length `n` from the next
32, and writes the payload's bytes. -/
def Obligations.FrameParseReadsTheFrame : Prop :=
  ∀ (s : State) (n : Word), s.mem.wf = true → ChecksPass .frameParse s → 33 + 8 * n.toNat ≤ s.srcLen.toNat →
    (∀ j, j < 32 → (s.mem.read (s.srcAddr.toNat + 1 + j)).getLsbD 0 = n.getLsbD (31 - j)) →
    n.toNat ≤ s.dstMax.toNat →
    ∃ t, exec .frameParse s = .next t ∧
      Succeeds s t n (zext32 (33 + 8 * n.toNat)) ((s.mem.read s.srcAddr.toNat).getLsbD 0) ∧
      (∀ k j, k < n.toNat → j < 8 → (t.mem.read (s.dstAddr.toNat + k)).getLsbD (7 - j) =
        (s.mem.read (s.srcAddr.toNat + 33 + 8 * k + j)).getLsbD 0) ∧
      UnchangedOutside s.mem t.mem s.dstAddr.toNat n.toNat

/-- 43_frame_builder R153, 60_exceptions R203: FRAME_PARSE fails TruncatedHeader on fewer than 33 bits,
TruncatedPayload where the declared length `n` is not there, and OutputOverflow where it does not fit. -/
def Obligations.FrameParseErrors : Prop :=
  ∀ (s : State) (n : Word), ChecksPass .frameParse s →
    (s.srcLen.toNat < 33 → ∃ t, exec .frameParse s = .next t ∧ FailsWith s t 0x03 33 s.srcLen) ∧
    (33 ≤ s.srcLen.toNat → (∀ j, j < 32 → (s.mem.read (s.srcAddr.toNat + 1 + j)).getLsbD 0 = n.getLsbD (31 - j)) →
      (s.srcLen.toNat - 33 < 8 * n.toNat →
        ∃ t, exec .frameParse s = .next t ∧ FailsWith s t 0x04 n (zext32 ((s.srcLen.toNat - 33) / 8))) ∧
      (8 * n.toNat ≤ s.srcLen.toNat - 33 → s.dstMax.toNat < n.toNat →
        ∃ t, exec .frameParse s = .next t ∧ FailsWith s t 0x14 n s.dstMax))

/-- 43_frame_builder R155: parsing a frame followed by anything gives back its parts; MalformedLength cannot arise. -/
def Obligations.ParseFrameInvertsFrame : Prop :=
  (∀ (f : Bool) (p : Bytes) (rest : Bits), p.length < 2 ^ 32 →
    parseFrame (frame f p ++ rest) = .ok ⟨f, p.length, p⟩) ∧
  ∀ (s : Bits) (e : Raise), parseFrame s = .error e → e.err ≠ .malformedLength

/-! ### The pixel walker (44_pixel_walker) -/

/-- 44_pixel_walker R161, R160: EMBED writes the whole grid, red LSBs of the first SRC_LEN pixels from the bit array; a
bit array longer than the grid fails MessageTooLarge before any write. -/
def Obligations.EmbedWritesRedLsbs : Prop :=
  ∀ s : State, s.mem.wf = true → ChecksPass .embed s →
    (s.srcLen.toNat ≤ s.width.toNat * s.height.toNat →
      ∃ t, exec .embed s = .next t ∧ Succeeds s t s.srcLen 0 false ∧
        (∀ k, k < 4 * (s.width.toNat * s.height.toNat) → t.mem.read (s.gdstAddr.toNat + k) =
          let old := s.mem.read (s.gsrcAddr.toNat + k)
          if k % 4 = 0 ∧ k / 4 < s.srcLen.toNat then
            (old &&& 0xFE) ||| (if (s.mem.read (s.srcAddr.toNat + k / 4)).getLsbD 0 then 0x01 else 0x00)
          else old) ∧
        UnchangedOutside s.mem t.mem s.gdstAddr.toNat (4 * (s.width.toNat * s.height.toNat))) ∧
    (s.width.toNat * s.height.toNat < s.srcLen.toNat →
      ∃ t, exec .embed s = .next t ∧ FailsWith s t 0x02 s.srcLen (zext32 (s.width.toNat * s.height.toNat)))

/-- 44_pixel_walker R163, R162: EXTRACT stores the red LSB of every pixel, in row-major order. -/
def Obligations.ExtractReadsRedLsbs : Prop :=
  ∀ s : State, s.mem.wf = true → ChecksPass .extract s → s.width.toNat * s.height.toNat ≤ s.dstMax.toNat →
    ∃ t, exec .extract s = .next t ∧ Succeeds s t (zext32 (s.width.toNat * s.height.toNat)) 0 false ∧
      (∀ k, k < s.width.toNat * s.height.toNat → t.mem.read (s.dstAddr.toNat + k) =
        if (s.mem.read (s.gsrcAddr.toNat + 4 * k)).getLsbD 0 then 0x01 else 0x00) ∧
      UnchangedOutside s.mem t.mem s.dstAddr.toNat (s.width.toNat * s.height.toNat)

/-- 44_pixel_walker R164, R165: embedding changes at most bit 0 of the first `len(s)` red bytes, exactly where it
differs from its bit, and extraction gives the bits back, then the old bits. -/
def Obligations.EmbeddingIsMinimalAndReadsBack : Prop :=
  ∀ (gb : Bytes) (s : Bits) (n : Nat), gb.length = 4 * n → s.length ≤ n →
    (embed gb s).length = gb.length ∧
    (∀ k, ¬(k % 4 = 0 ∧ k / 4 < s.length) → (embed gb s)[k]? = gb[k]?) ∧
    (∀ i, i < s.length → ∀ b, 1 ≤ b →
      ((embed gb s).getD (4 * i) 0).getLsbD b = (gb.getD (4 * i) 0).getLsbD b) ∧
    (∀ i, i < s.length → ((embed gb s)[4 * i]? ≠ gb[4 * i]? ↔ (gb.getD (4 * i) 0).getLsbD 0 ≠ s.getD i false)) ∧
    (extract (embed gb s)).take s.length = s ∧
    (extract (embed gb s)).drop s.length = (extract gb).drop s.length

/-! ### The codec (45_codec_operations) -/

/-- 45_codec_operations R171, R170: CAPACITY never fails and gives floor((W·H − 33) / 8) in two's complement. -/
def Obligations.CapacityIsTheFloor : Prop :=
  ∀ s : State, ∃ t, ∃ c : Int, exec .capacity s = .next t ∧ Succeeds s t 0 (BitVec.ofInt 32 c) false ∧
    t.mem = s.mem ∧ 8 * c ≤ (s.width.toNat * s.height.toNat : Int) - 33 ∧
    (s.width.toNat * s.height.toNat : Int) - 33 < 8 * c + 8

/-- 45_codec_operations R172, R170: the fit law, the bound, and the value by cases. -/
def Obligations.FrameFitsExactlyUpToCapacity : Prop :=
  ∀ w h : Nat,
    (∀ n : Nat, 33 + 8 * n ≤ w * h ↔ (n : Int) ≤ capacity w h) ∧
    (w ≤ 65535 → h ≤ 65535 → capacity w h ≤ 536854524 ∧ -5 ≤ capacity w h) ∧
    (w * h % 8 = 0 → capacity w h = (w * h / 8 : Nat) - (5 : Int)) ∧
    (w * h % 8 ≠ 0 → capacity w h = (w * h / 8 : Nat) - (4 : Int))

/-- 45_codec_operations R173, 43_frame_builder R150: with no stage, ENCODE embeds the frame of the message where it
fits: flag 0, the length, the message's bits. -/
def Obligations.EncodeEmbedsThePlainFrame : Prop :=
  ∀ s : State, s.mem.wf = true → ChecksPass .encode s → s.comp = false → s.enc = false →
    33 + 8 * s.srcLen.toNat ≤ s.width.toNat * s.height.toNat →
    ∃ t, exec .encode s = .next t ∧ Succeeds s t (zext32 (33 + 8 * s.srcLen.toNat)) s.srcLen false ∧
      (t.mem.read s.gdstAddr.toNat).getLsbD 0 = false ∧
      (∀ j, j < 32 → (t.mem.read (s.gdstAddr.toNat + 4 * (1 + j))).getLsbD 0 = s.srcLen.getLsbD (31 - j)) ∧
      (∀ k j, k < s.srcLen.toNat → j < 8 → (t.mem.read (s.gdstAddr.toNat + 4 * (33 + 8 * k + j))).getLsbD 0 =
        (s.mem.read (s.srcAddr.toNat + k)).getLsbD (7 - j)) ∧
      (∀ k, k < 4 * (s.width.toNat * s.height.toNat) →
        (∀ b, 1 ≤ b → (t.mem.read (s.gdstAddr.toNat + k)).getLsbD b = (s.mem.read (s.gsrcAddr.toNat + k)).getLsbD b) ∧
        (k % 4 ≠ 0 ∨ 33 + 8 * s.srcLen.toNat ≤ k / 4 →
          t.mem.read (s.gdstAddr.toNat + k) = s.mem.read (s.gsrcAddr.toNat + k))) ∧
      UnchangedOutside s.mem t.mem s.gdstAddr.toNat (4 * (s.width.toNat * s.height.toNat))

/-- 45_codec_operations R173, 42_payload_pipeline R131, R140: ENCODE under any policy: compress, then seal, then embed the
frame whose flag is COMP, or fail MessageTooLarge with (payload length, capacity) and no write. It holds over any
stage units; `exec` is the meaning over the chip's (logs 2, 3). -/
def Obligations.EncodeAppliesTheStagesInOrder : Prop :=
  ∀ (st : Stages) (s : State), s.mem.wf = true → ChecksPass .encode s →
    let msg := s.mem.readBytes s.srcAddr.toNat s.srcLen.toNat
    let nonce := (List.range s.params.nonceBytes).map (Config.nonceByte s.draws)
    let p1 := if s.comp then st.compress msg else msg
    let payload := if s.enc then nonce ++ st.aeadSeal s.keyBytes nonce p1 else p1
    let bits := frame s.comp payload
    let pixels := s.width.toNat * s.height.toNat
    ∃ t, encodeWith st s = .next t ∧ (st = Config.stages → exec .encode s = .next t) ∧
      (33 + 8 * payload.length ≤ pixels →
        Succeeds s t (zext32 (33 + 8 * payload.length)) (zext32 payload.length) s.comp ∧
        (∀ k, k < 4 * pixels → t.mem.read (s.gdstAddr.toNat + k) =
          let old := s.mem.read (s.gsrcAddr.toNat + k)
          if k % 4 = 0 ∧ k / 4 < 33 + 8 * payload.length then
            (old &&& 0xFE) ||| (if bits.getD (k / 4) false then 0x01 else 0x00)
          else old) ∧
        UnchangedOutside s.mem t.mem s.gdstAddr.toNat (4 * pixels)) ∧
      (pixels < 33 + 8 * payload.length →
        FailsWith s t 0x02 (BitVec.ofNat 32 (min payload.length (2 ^ 32 - 1)))
          (BitVec.ofInt 32 (Int.fdiv ((pixels : Int) - 33) 8)))

/-- 45_codec_operations R175, 43_frame_builder R153: with ENC = 0, DECODE of a grid whose red LSBs spell an uncompressed
frame of length `n` writes its payload. -/
def Obligations.DecodeReadsThePlainFrame : Prop :=
  ∀ (s : State) (n : Word), s.mem.wf = true → ChecksPass .decode s → s.enc = false →
    33 + 8 * n.toNat ≤ s.width.toNat * s.height.toNat →
    (s.mem.read s.gsrcAddr.toNat).getLsbD 0 = false →
    (∀ j, j < 32 → (s.mem.read (s.gsrcAddr.toNat + 4 * (1 + j))).getLsbD 0 = n.getLsbD (31 - j)) →
    n.toNat ≤ s.dstMax.toNat →
    ∃ t, exec .decode s = .next t ∧ Succeeds s t n n false ∧
      (∀ k j, k < n.toNat → j < 8 → (t.mem.read (s.dstAddr.toNat + k)).getLsbD (7 - j) =
        (s.mem.read (s.gsrcAddr.toNat + 4 * (33 + 8 * k + j))).getLsbD 0) ∧
      UnchangedOutside s.mem t.mem s.dstAddr.toNat n.toNat

/-- 45_codec_operations R175, 42_payload_pipeline R138, R139: DECODE in every case: the frame's errors; then, with
ENC = 1, the blob opened; then, with the frame's flag 1, decompressed; each stage's error under its name; the output
limit last. POLICY.COMP is not read. It holds over any stage units; `exec` is the meaning over the chip's (log 2). -/
def Obligations.DecodeUndoesTheStagesInOrder : Prop :=
  ∀ (st : Stages) (s : State), s.mem.wf = true → ChecksPass .decode s →
    let grid := s.mem.readBytes s.gsrcAddr.toNat (4 * (s.width.toNat * s.height.toNat))
    let n := s.params.nonceBytes
    ∃ t, decodeWith st s = .next t ∧ (st = Config.stages → exec .decode s = .next t) ∧
      (∀ e, parseFrame (extract grid) = .error e → FailsWith s t (errorCode e.err) e.req e.avail) ∧
      ∀ f, parseFrame (extract grid) = .ok f →
        let p := f.payload
        (s.enc = true → p.length < n → FailsWith s t 0x08 (zext32 n) (zext32 p.length)) ∧
        (s.enc = true → n ≤ p.length → st.aeadOpen s.keyBytes (p.take n) (p.drop n) = none →
          FailsWith s t 0x07 0 0) ∧
        ∀ p1, (s.enc = false ∧ p1 = p) ∨
            (s.enc = true ∧ n ≤ p.length ∧ st.aeadOpen s.keyBytes (p.take n) (p.drop n) = some p1) →
          (f.flag = true → s.params.hasComp = false → FailsWith s t 0x11 0 0) ∧
          (f.flag = true → s.params.hasComp = true → st.decompress p1 = none → FailsWith s t 0x06 0 0) ∧
          ∀ msg, (f.flag = false ∧ msg = p1) ∨
              (f.flag = true ∧ s.params.hasComp = true ∧ st.decompress p1 = some msg) →
            (msg.length ≤ s.dstMax.toNat →
              Succeeds s t (zext32 msg.length) (zext32 f.len) f.flag ∧ Stores s.mem t.mem s.dstAddr.toNat msg) ∧
            (s.dstMax.toNat < msg.length →
              FailsWith s t 0x14 (BitVec.ofNat 32 (min msg.length (2 ^ 32 - 1))) s.dstMax)

/-- 45_codec_operations R176: DECODE after a successful ENCODE of the same policy and size, and with ENC = 1 the same
key, gives the message back, under the stage properties each stage in use needs (42_payload_pipeline R130; log 22).
`encodeWith` and `decodeWith` are the meanings of ENCODE and DECODE over given stage units; the machine's are those over
`Config.stages`. -/
def Obligations.DecodeUndoesEncode : Prop :=
  ∀ (st : Stages) (s t u : State),
    (s.comp = true → st.CompRT) → (s.enc = true → st.AeadRT s.params) → s.mem.wf = true → u.mem.wf = true →
    encodeWith st s = .next t → t.errCode = 0 →
    (∀ k, k < s.gridSize → u.mem.read (u.gsrcAddr.toNat + k) = t.mem.read (s.gdstAddr.toNat + k)) →
    u.params = s.params → u.width = s.width → u.height = s.height → u.enc = s.enc →
    (s.enc = true → u.key = s.key) → ChecksPass .decode u → s.srcLen.toNat ≤ u.dstMax.toNat →
    ∃ v, decodeWith st u = .next v ∧ Succeeds u v s.srcLen t.resAux s.comp ∧
      v.mem.readBytes u.dstAddr.toNat s.srcLen.toNat = s.mem.readBytes s.srcAddr.toNat s.srcLen.toNat

/-- 45_codec_operations R177: under P_AEAD_KEY (log 22), a DECODE with another key of a grid whose red LSBs begin with a
frame sealed under the key `k` fails AuthenticationFailed. -/
def Obligations.DecodeWithAnotherKeyFails : Prop :=
  ∀ (st : Stages) (u : State) (k nonce plain : Bytes) (flag : Bool) (rest : Bits),
    st.AeadKey u.params → ChecksPass .decode u → u.enc = true → k.length = 32 → u.keyBytes ≠ k →
    nonce.length = u.params.nonceBytes →
    (nonce ++ st.aeadSeal k nonce plain).length < 2 ^ 32 →
    extract (u.mem.readBytes u.gsrcAddr.toNat u.gridSize) = frame flag (nonce ++ st.aeadSeal k nonce plain) ++ rest →
    ∃ v, decodeWith st u = .next v ∧ FailsWith u v 0x07 0 0
end

