-- ==== Sys2Proof/Laws/Bits.lean ====
section
/-! SUPPORT. Laws of the conversion functions, the frame and the walker, read bit by bit (41_bitstream_adapter R120,
R122; 43_frame_builder R150; 44_pixel_walker R160, R162). -/

namespace Sys2Proof.Machine

@[simp] theorem byteBits_length (b : Byte) : (byteBits b).length = 8 := rfl

theorem byteBits_getElem (b : Byte) (j : Nat) (lt : j < (byteBits b).length) :
    (byteBits b)[j] = b.getLsbD (7 - j) := by
  have : j < 8 := lt
  interval_cases j <;> rfl

@[simp] theorem bytesToBits_nil : bytesToBits [] = [] := rfl

@[simp] theorem bytesToBits_cons (b : Byte) (bs : Bytes) : bytesToBits (b :: bs) = byteBits b ++ bytesToBits bs := rfl

theorem bytesToBits_append (as bs : Bytes) : bytesToBits (as ++ bs) = bytesToBits as ++ bytesToBits bs := by
  simp [bytesToBits]

@[simp] theorem bytesToBits_length (bs : Bytes) : (bytesToBits bs).length = 8 * bs.length := by
  induction bs with
  | nil => rfl
  | cons b bs ih => simp [ih]; omega

/-- Bit `8k + j` of the serialised bytes is bit `7 − j` of byte `k`. -/
theorem bytesToBits_getElem (bs : Bytes) {k j : Nat} (hk : k < bs.length) (hj : j < 8)
    (lt : 8 * k + j < (bytesToBits bs).length) : (bytesToBits bs)[8 * k + j] = bs[k].getLsbD (7 - j) := by
  induction bs generalizing k with
  | nil => simp at hk
  | cons b bs ih =>
    cases k with
    | zero =>
      simp only [bytesToBits_cons, Nat.mul_zero, Nat.zero_add, List.getElem_cons_zero]
      rw [List.getElem_append_left (by simpa using hj), byteBits_getElem]
    | succ k =>
      simp only [List.length_cons] at hk
      simp only [bytesToBits_cons, List.getElem_cons_succ]
      rw [List.getElem_append_right (by simp; omega)]
      simp only [byteBits_length, show 8 * (k + 1) + j - 8 = 8 * k + j by omega]
      exact ih (by omega) _

theorem byteBits_packedByte (b7 b6 b5 b4 b3 b2 b1 b0 : Bool) :
    byteBits (BitVec.ofNat 8 (bitsToNat [b7, b6, b5, b4, b3, b2, b1, b0])) = [b7, b6, b5, b4, b3, b2, b1, b0] := by
  revert b7 b6 b5 b4 b3 b2 b1 b0
  decide

/-- A byte packed from eight bits holds them, the first in bit 7. -/
theorem packedByte_getLsbD (b7 b6 b5 b4 b3 b2 b1 b0 : Bool) (j : Nat) (lt : j < 8) :
    (BitVec.ofNat 8 (bitsToNat [b7, b6, b5, b4, b3, b2, b1, b0])).getLsbD (7 - j) =
      [b7, b6, b5, b4, b3, b2, b1, b0][j] := by
  rw [← byteBits_getElem _ j lt]
  exact List.getElem_of_eq (byteBits_packedByte b7 b6 b5 b4 b3 b2 b1 b0) _

theorem packedByte_byteBits (b : Byte) : BitVec.ofNat 8 (bitsToNat (byteBits b)) = b := by
  revert b
  decide +kernel

/-- What `bitsToBytes` does with a whole byte of bits in front. -/
theorem bitsToBytes_byte (b7 b6 b5 b4 b3 b2 b1 b0 : Bool) (rest : Bits) :
    bitsToBytes (b7 :: b6 :: b5 :: b4 :: b3 :: b2 :: b1 :: b0 :: rest) =
      (bitsToBytes rest).map fun bs => BitVec.ofNat 8 (bitsToNat [b7, b6, b5, b4, b3, b2, b1, b0]) :: bs := rfl

/-- A bit sequence that packs into bytes has eight bits a byte, and its bytes hold its bits in order. -/
theorem bitsToBytes_spec {s : Bits} {bs : Bytes} (h : bitsToBytes s = some bs) :
    s.length = 8 * bs.length ∧ bytesToBits bs = s := by
  induction s using bitsToBytes.induct generalizing bs with
  | case1 =>
    simp only [bitsToBytes, Option.some.injEq] at h
    subst h
    simp
  | case2 b7 b6 b5 b4 b3 b2 b1 b0 rest ih =>
    rw [bitsToBytes_byte, Option.map_eq_some_iff] at h
    obtain ⟨cs, hcs, rfl⟩ := h
    obtain ⟨hl, hb⟩ := ih hcs
    constructor
    · simp only [List.length_cons, hl]; omega
    · rw [bytesToBits_cons, byteBits_packedByte, hb]; rfl
  | case3 s h1 h2 =>
    unfold bitsToBytes at h
    split at h
    · exact absurd rfl h1
    · exact absurd rfl (h2 _ _ _ _ _ _ _ _ _)
    · simp at h

/-- Every bit sequence of whole bytes packs. -/
theorem bitsToBytes_total {s : Bits} (h : s.length % 8 = 0) : ∃ bs, bitsToBytes s = some bs := by
  induction s using bitsToBytes.induct with
  | case1 => exact ⟨[], rfl⟩
  | case2 b7 b6 b5 b4 b3 b2 b1 b0 rest ih =>
    obtain ⟨bs, hbs⟩ := ih (by simp only [List.length_cons] at h; omega)
    exact ⟨_, by rw [bitsToBytes_byte, hbs]; rfl⟩
  | case3 s h1 h2 =>
    exfalso
    match s, h, h1, h2 with
    | [], _, h1, _ => exact h1 rfl
    | b7 :: b6 :: b5 :: b4 :: b3 :: b2 :: b1 :: b0 :: rest, _, _, h2 => exact h2 _ _ _ _ _ _ _ _ _ rfl
    | [_], h, _, _ => simp at h
    | [_, _], h, _, _ => simp at h
    | [_, _, _], h, _, _ => simp at h
    | [_, _, _, _], h, _, _ => simp at h
    | [_, _, _, _, _], h, _, _ => simp at h
    | [_, _, _, _, _, _], h, _, _ => simp at h
    | [_, _, _, _, _, _, _], h, _, _ => simp at h

/-- The bits of a packed byte. -/
theorem bitsToBytes_getLsbD {s : Bits} {bs : Bytes} (h : bitsToBytes s = some bs) {k j : Nat} (hk : k < bs.length)
    (hj : j < 8) (lt : 8 * k + j < s.length) : bs[k].getLsbD (7 - j) = s[8 * k + j] := by
  obtain ⟨_, hb⟩ := bitsToBytes_spec h
  subst hb
  exact (bytesToBits_getElem bs hk hj lt).symm

/-- Appending a bit to a number's spelling. -/
theorem bitsToNat_append (s : Bits) (b : Bool) : bitsToNat (s ++ [b]) = 2 * bitsToNat s + b.toNat := by
  simp [bitsToNat]

theorem bitsToNat_lt (s : Bits) : bitsToNat s < 2 ^ s.length := by
  induction s using List.reverseRecOn with
  | nil => decide
  | append_singleton s b ih =>
    rw [bitsToNat_append, List.length_append, List.length_singleton, pow_succ]
    cases b <;> simp <;> omega

/-- Bit `n − 1 − j` of the number that `n` bits spell is bit `j` of the sequence. -/
theorem bitsToNat_testBit (s : Bits) {j : Nat} (lt : j < s.length) :
    (bitsToNat s).testBit (s.length - 1 - j) = s[j] := by
  induction s using List.reverseRecOn with
  | nil => simp at lt
  | append_singleton s b ih =>
    rw [bitsToNat_append]
    simp only [List.length_append, List.length_singleton] at lt ⊢
    by_cases hj : j < s.length
    · rw [List.getElem_append_left hj, ← ih hj, show s.length + 1 - 1 - j = (s.length - 1 - j) + 1 by omega,
        Nat.testBit_succ]
      congr 1
      have := Bool.toNat_lt b
      omega
    · have : j = s.length := by omega
      subst this
      cases b <;> simp [Nat.testBit_zero]

/-- A 32-bit number is the number its bits spell. -/
theorem bitsToNat_eq_of_bits {s : Bits} (hl : s.length = 32) {w : Word}
    (h : ∀ j (lt : j < s.length), s[j] = w.getLsbD (31 - j)) : bitsToNat s = w.toNat := by
  apply Nat.eq_of_testBit_eq
  intro i
  by_cases hi : i < 32
  · have := bitsToNat_testBit s (j := 31 - i) (by omega)
    rw [h _ (by omega), hl, show 32 - 1 - (31 - i) = i by omega] at this
    exact this.trans (congrArg w.getLsbD (by omega))
  · have big : 2 ^ 32 ≤ 2 ^ i := Nat.pow_le_pow_right (by decide) (by omega)
    have lt := bitsToNat_lt s
    rw [hl] at lt
    rw [Nat.testBit_lt_two_pow (by omega), Nat.testBit_lt_two_pow (by have := w.isLt; omega)]

@[simp] theorem be32_length (n : Nat) : (be32 n).length = 4 := rfl

/-- The bits of one byte of a number. -/
theorem ofNat_div_getLsbD (n m : Nat) {i : Nat} (hi : i < 8) :
    (BitVec.ofNat 8 (n / 2 ^ m)).getLsbD (7 - i) = n.testBit (m + (7 - i)) := by
  rw [BitVec.getLsbD_ofNat, Nat.testBit_div_two_pow, Nat.add_comm]
  simp
  omega

/-- Bit `j` of the length field is bit `31 − j` of the length. -/
theorem be32_bits (n : Nat) (j : Nat) (lt : j < (bytesToBits (be32 n)).length) :
    (bytesToBits (be32 n))[j] = n.testBit (31 - j) := by
  have hj : j < 32 := by simpa using lt
  have key : ∀ k i, k < 4 → i < 8 → ∀ lt : 8 * k + i < (bytesToBits (be32 n)).length,
      (bytesToBits (be32 n))[8 * k + i] = n.testBit (31 - (8 * k + i)) := by
    intro k i hk hi lt
    rw [bytesToBits_getElem (be32 n) (by simpa using hk) hi]
    interval_cases k
    · exact (ofNat_div_getLsbD n 24 hi).trans (congrArg n.testBit (by omega))
    · exact (ofNat_div_getLsbD n 16 hi).trans (congrArg n.testBit (by omega))
    · exact (ofNat_div_getLsbD n 8 hi).trans (congrArg n.testBit (by omega))
    · have := ofNat_div_getLsbD n 0 hi
      rw [pow_zero, Nat.div_one] at this
      exact this.trans (congrArg n.testBit (by omega))
  have := key (j / 8) (j % 8) (by omega) (by omega) (by simp; omega)
  simpa only [show 8 * (j / 8) + j % 8 = j by omega] using this

@[simp] theorem frame_length (f : Bool) (p : Bytes) : (frame f p).length = 33 + 8 * p.length := by
  simp [frame]; omega

@[simp] theorem frame_zero (f : Bool) (p : Bytes) (lt : 0 < (frame f p).length) : (frame f p)[0] = f := rfl

/-- Bits 1 to 32 of a frame are its length. -/
theorem frame_lengthBit (f : Bool) (p : Bytes) {j : Nat} (hj : j < 32) (lt : 1 + j < (frame f p).length) :
    (frame f p)[1 + j] = p.length.testBit (31 - j) := by
  simp only [frame, show 1 + j = j + 1 by omega, List.getElem_cons_succ]
  rw [List.getElem_append_left (by simpa using hj), be32_bits]

/-- Bit `33 + 8k + j` of a frame is bit `7 − j` of payload byte `k`. -/
theorem frame_payloadBit (f : Bool) (p : Bytes) {k j : Nat} (hk : k < p.length) (hj : j < 8)
    (lt : 33 + 8 * k + j < (frame f p).length) : (frame f p)[33 + 8 * k + j] = p[k].getLsbD (7 - j) := by
  simp only [frame, show 33 + 8 * k + j = (32 + (8 * k + j)) + 1 by omega, List.getElem_cons_succ]
  rw [List.getElem_append_right (by simp)]
  simp only [bytesToBits_length, be32_length, show 32 + (8 * k + j) - 8 * 4 = 8 * k + j by omega]
  exact bytesToBits_getElem p hk hj _

/-- The four-byte pixel in front of a grid. -/
theorem embed_pixel (r g b a : Byte) (rest : Bytes) (bit : Bool) (bits : Bits) :
    embed (r :: g :: b :: a :: rest) (bit :: bits) = setRedLsb r bit :: g :: b :: a :: embed rest bits := rfl

@[simp] theorem embed_nil_bits (gb : Bytes) : embed gb [] = gb := by
  unfold embed; split <;> simp_all

theorem extract_pixel (r g b a : Byte) (rest : Bytes) :
    extract (r :: g :: b :: a :: rest) = r.getLsbD 0 :: extract rest := rfl

@[simp] theorem embed_length (gb : Bytes) (s : Bits) : (embed gb s).length = gb.length := by
  induction gb, s using embed.induct with
  | case1 r g b a rest bit bits ih => simp [embed_pixel, ih]
  | case2 gb s h =>
    unfold embed
    split
    · exact (h _ _ _ _ _ _ _ rfl rfl).elim
    · rfl

/-- `byteAt(k)` of 44_pixel_walker R160. -/
theorem embed_getElem {gb : Bytes} {s : Bits} {n : Nat} (hl : gb.length = 4 * n) (hs : s.length ≤ n) {k : Nat}
    (lt : k < (embed gb s).length) :
    (embed gb s)[k] = if k % 4 = 0 ∧ k / 4 < s.length then
      setRedLsb (gb[k]'(by simpa using lt)) (s.getD (k / 4) false) else gb[k]'(by simpa using lt) := by
  induction gb, s using embed.induct generalizing n k with
  | case1 r g b a rest bit bits ih =>
    simp only [List.length_cons] at hl hs
    simp only [embed_pixel]
    match k, lt with
    | 0, _ => simp
    | 1, _ => simp
    | 2, _ => simp
    | 3, _ => simp
    | k + 4, lt =>
      simp only [List.getElem_cons_succ]
      rw [ih (n := n - 1) (by omega) (by omega)]
      simp [show (k + 4) / 4 = k / 4 + 1 by omega, show (k + 4) % 4 = k % 4 by omega]
  | case2 gb s h =>
    have hz : s = [] ∨ gb.length < 4 := by
      match gb, s, h with
      | _, [], _ => exact .inl rfl
      | [], _ :: _, _ => exact .inr (by simp)
      | [_], _ :: _, _ => exact .inr (by simp)
      | [_, _], _ :: _, _ => exact .inr (by simp)
      | [_, _, _], _ :: _, _ => exact .inr (by simp)
      | r :: g :: b :: a :: rest, bit :: bits, h => exact absurd rfl (h r g b a rest bit bits rfl)
    have : s = [] := by
      rcases hz with h | h
      · exact h
      · exact List.eq_nil_of_length_eq_zero (by omega)
    subst this
    simp

@[simp] theorem extract_length {gb : Bytes} {n : Nat} (hl : gb.length = 4 * n) : (extract gb).length = n := by
  induction gb using extract.induct generalizing n with
  | case1 r g b a rest ih =>
    simp only [List.length_cons] at hl
    simp only [extract_pixel, List.length_cons, ih (n := n - 1) (by omega)]
    omega
  | case2 gb h =>
    match gb, hl, h with
    | [], hl, _ => simp at hl; simp [extract, hl]
    | [_], hl, _ => simp at hl; omega
    | [_, _], hl, _ => simp at hl; omega
    | [_, _, _], hl, _ => simp at hl; omega
    | r :: g :: b :: a :: rest, _, h => exact absurd rfl (h r g b a rest)

/-- Bit `i` of the extraction is the red LSB of pixel `i`. -/
theorem extract_getElem {gb : Bytes} {n : Nat} (hl : gb.length = 4 * n) {i : Nat} (lt : i < (extract gb).length) :
    (extract gb)[i] = (gb[4 * i]'(by rw [extract_length hl] at lt; omega)).getLsbD 0 := by
  induction gb using extract.induct generalizing n i with
  | case1 r g b a rest ih =>
    simp only [List.length_cons] at hl
    simp only [extract_pixel]
    cases i with
    | zero => simp
    | succ i =>
      simp only [List.getElem_cons_succ]
      rw [ih (n := n - 1) (by omega)]
      simp [show 4 * (i + 1) = 4 * i + 4 by omega]
  | case2 gb h =>
    match gb, hl, h with
    | [], _, _ => simp [extract] at lt
    | [_], _, _ => simp [extract] at lt
    | [_, _], _, _ => simp [extract] at lt
    | [_, _, _], _, _ => simp [extract] at lt
    | r :: g :: b :: a :: rest, _, h => exact absurd rfl (h r g b a rest)

/-- Bit 0 of an overwritten red byte is the bit; its other bits stay. -/
theorem setRedLsb_getLsbD (r : Byte) (bit : Bool) (b : Nat) :
    (setRedLsb r bit).getLsbD b = if b = 0 then bit else r.getLsbD b := by
  by_cases hb : b < 8
  · revert r bit
    interval_cases b <;> decide +kernel
  · rw [BitVec.getLsbD_of_ge _ _ (by omega), BitVec.getLsbD_of_ge _ _ (by omega), if_neg (by omega)]

end Sys2Proof.Machine
end

