-- ==== Sys2Proof/Laws/Memory.lean ====
section
/-! SUPPORT. Laws of data memory (20_memory R62): a read after a write, and that every memory operation keeps the
canonical form. -/

namespace Sys2Proof.Machine

@[simp] theorem Memory.read_nil (a : Nat) : Memory.read [] a = unlistedByte := rfl

theorem Memory.read_cons (k : Nat) (v : Byte) (rest : Memory) (a : Nat) :
    Memory.read ((k, v) :: rest) a = if k = a then v else Memory.read rest a := rfl

theorem Memory.wfFrom_cons (lo k : Nat) (v : Byte) (rest : Memory) :
    Memory.wfFrom lo ((k, v) :: rest) = true ↔
      lo ≤ k ∧ k < 2 ^ 32 ∧ v ≠ unlistedByte ∧ Memory.wfFrom (k + 1) rest = true := by
  simp [Memory.wfFrom, and_assoc]

theorem Memory.wfFrom_mono {lo hi : Nat} {m : Memory} (h : Memory.wfFrom hi m = true) (le : lo ≤ hi) :
    Memory.wfFrom lo m = true := by
  cases m with
  | nil => rfl
  | cons c rest =>
    obtain ⟨k, v⟩ := c
    rw [Memory.wfFrom_cons] at h ⊢
    exact ⟨by omega, h.2⟩

/-- Below its lower bound a canonical memory lists nothing. -/
theorem Memory.read_below {lo : Nat} {m : Memory} (h : Memory.wfFrom lo m = true) {a : Nat} (lt : a < lo) :
    m.read a = unlistedByte := by
  induction m generalizing lo with
  | nil => rfl
  | cons c rest ih =>
    obtain ⟨k, v⟩ := c
    rw [Memory.wfFrom_cons] at h
    rw [Memory.read_cons, if_neg (by omega)]
    exact ih h.2.2.2 (by omega)

/-- A write leaves every other address alone, whatever the form of memory. -/
theorem Memory.read_write_other (m : Memory) {a x : Nat} (v : Byte) (ne : x ≠ a) :
    (m.write a v).read x = m.read x := by
  induction m with
  | nil => unfold Memory.write; split <;> simp [Memory.read_cons, Ne.symm ne]
  | cons c rest ih =>
    obtain ⟨k, y⟩ := c
    unfold Memory.write
    split
    · split <;> simp [Memory.read_cons, Ne.symm ne]
    · split
      · rename_i h
        subst h
        split <;> simp [Memory.read_cons, Ne.symm ne]
      · simp only [Memory.read_cons, ih]

theorem Memory.read_write_same_from {lo : Nat} {m : Memory} (h : Memory.wfFrom lo m = true) (a : Nat) (v : Byte) :
    (m.write a v).read a = v := by
  induction m generalizing lo with
  | nil => unfold Memory.write; split <;> simp_all [Memory.read_cons]
  | cons c rest ih =>
    obtain ⟨k, y⟩ := c
    rw [Memory.wfFrom_cons] at h
    unfold Memory.write
    split
    · rename_i lt
      split
      · rename_i hv
        rw [Memory.read_cons, if_neg (by omega), Memory.read_below h.2.2.2 (by omega), hv]
      · simp [Memory.read_cons]
    · split
      · rename_i hk
        split
        · rename_i hv
          rw [Memory.read_below h.2.2.2 (by omega), hv]
        · simp [Memory.read_cons]
      · rename_i hk
        rw [Memory.read_cons, if_neg (Ne.symm hk)]
        exact ih h.2.2.2

/-- A read after a write to the same address gives the value written. -/
theorem Memory.read_write_same {m : Memory} (h : m.wf = true) (a : Nat) (v : Byte) : (m.write a v).read a = v :=
  Memory.read_write_same_from h a v

theorem Memory.write_wfFrom {lo : Nat} {m : Memory} (h : Memory.wfFrom lo m = true) {a : Nat} (v : Byte)
    (le : lo ≤ a) (lt : a < 2 ^ 32) : Memory.wfFrom lo (m.write a v) = true := by
  induction m generalizing lo with
  | nil =>
    unfold Memory.write
    split
    · rfl
    · rename_i hv
      rw [Memory.wfFrom_cons]
      exact ⟨le, lt, hv, rfl⟩
  | cons c rest ih =>
    obtain ⟨k, y⟩ := c
    have h' := h
    rw [Memory.wfFrom_cons] at h'
    unfold Memory.write
    split
    · rename_i hk
      split
      · exact h
      · rename_i hv
        rw [Memory.wfFrom_cons]
        exact ⟨le, lt, hv, by rw [Memory.wfFrom_cons]; exact ⟨by omega, h'.2⟩⟩
    · split
      · rename_i hk
        subst hk
        split
        · exact Memory.wfFrom_mono h'.2.2.2 (by omega)
        · rename_i hv
          rw [Memory.wfFrom_cons]
          exact ⟨le, lt, hv, h'.2.2.2⟩
      · rename_i hk
        rw [Memory.wfFrom_cons]
        exact ⟨h'.1, h'.2.1, h'.2.2.1, ih h'.2.2.2 (by omega)⟩

/-- A write to an address that exists keeps the canonical form. -/
theorem Memory.write_wf {m : Memory} (h : m.wf = true) {a : Nat} (v : Byte) (lt : a < 2 ^ 32) :
    (m.write a v).wf = true :=
  Memory.write_wfFrom h v (Nat.zero_le _) lt

@[simp] theorem Memory.writeBytes_nil (m : Memory) (a : Nat) : m.writeBytes a [] = m := rfl

@[simp] theorem Memory.writeBytes_cons (m : Memory) (a : Nat) (b : Byte) (rest : Bytes) :
    m.writeBytes a (b :: rest) = (m.write a b).writeBytes (a + 1) rest := rfl

@[simp] theorem Memory.writeAll_nil (m : Memory) : m.writeAll [] = m := rfl

@[simp] theorem Memory.writeAll_cons (m : Memory) (a : Nat) (bytes : Bytes) (rest : List (Nat × Bytes)) :
    m.writeAll ((a, bytes) :: rest) = (m.writeBytes a bytes).writeAll rest := rfl

/-- A block of writes inside the address space keeps the canonical form. -/
theorem Memory.writeBytes_wf {m : Memory} (h : m.wf = true) {a : Nat} {bytes : Bytes}
    (le : a + bytes.length ≤ 2 ^ 32) : (m.writeBytes a bytes).wf = true := by
  induction bytes generalizing m a with
  | nil => exact h
  | cons b rest ih =>
    simp only [List.length_cons] at le
    exact ih (Memory.write_wf h b (by omega)) (by omega)

/-- All writes of a command keep the canonical form, where each lies below 2^32. -/
theorem Memory.writeAll_wf {m : Memory} (h : m.wf = true) {ws : List (Nat × Bytes)}
    (fit : ∀ w ∈ ws, w.1 + w.2.length ≤ 2 ^ 32) : (m.writeAll ws).wf = true := by
  induction ws generalizing m with
  | nil => exact h
  | cons w rest ih =>
    exact ih (Memory.writeBytes_wf h (fit w (by simp))) fun v hv => fit v (by simp [hv])

/-- A block of writes leaves every byte outside it alone. -/
theorem Memory.read_writeBytes_other (m : Memory) {a x : Nat} {bytes : Bytes}
    (out : x < a ∨ a + bytes.length ≤ x) : (m.writeBytes a bytes).read x = m.read x := by
  induction bytes generalizing m a with
  | nil => rfl
  | cons b rest ih =>
    simp only [List.length_cons] at out
    rw [Memory.writeBytes_cons, ih _ (by omega), Memory.read_write_other m b (by omega)]

/-- A byte inside a block of writes reads the byte of the block. -/
theorem Memory.read_writeBytes_inside {m : Memory} (h : m.wf = true) {a : Nat} {bytes : Bytes}
    (le : a + bytes.length ≤ 2 ^ 32) {k : Nat} (lt : k < bytes.length) :
    (m.writeBytes a bytes).read (a + k) = bytes[k] := by
  induction bytes generalizing m a k with
  | nil => simp at lt
  | cons b rest ih =>
    simp only [List.length_cons] at le lt
    rw [Memory.writeBytes_cons]
    cases k with
    | zero =>
      rw [Memory.read_writeBytes_other _ (by omega)]
      simpa using Memory.read_write_same h a b
    | succ k =>
      have := ih (Memory.write_wf h (a := a) b (by omega)) (a := a + 1) (by omega) (k := k) (by omega)
      rw [show a + (k + 1) = a + 1 + k by omega, this]
      rfl

@[simp] theorem Memory.readBytes_length (m : Memory) (a n : Nat) : (m.readBytes a n).length = n := by
  induction n generalizing a with
  | zero => rfl
  | succ n ih => simp [Memory.readBytes, ih]

@[simp] theorem Memory.readBytes_getElem (m : Memory) (a n k : Nat) (lt : k < (m.readBytes a n).length) :
    (m.readBytes a n)[k] = m.read (a + k) := by
  induction n generalizing a k with
  | zero => simp at lt
  | succ n ih =>
    cases k with
    | zero => rfl
    | succ k =>
      simp only [Memory.readBytes, List.getElem_cons_succ]
      rw [ih]
      congr 1
      omega

/-- Reading back a block of writes gives the block. -/
theorem Memory.readBytes_writeBytes {m : Memory} (h : m.wf = true) {a : Nat} {bytes : Bytes}
    (le : a + bytes.length ≤ 2 ^ 32) : (m.writeBytes a bytes).readBytes a bytes.length = bytes := by
  apply List.ext_getElem
  · simp
  · intro k h1 h2
    rw [Memory.readBytes_getElem, Memory.read_writeBytes_inside h le h2]

/-- Reads that agree byte by byte give the same bytes. -/
theorem Memory.readBytes_congr {m m' : Memory} {a a' n : Nat}
    (h : ∀ k, k < n → m.read (a + k) = m'.read (a' + k)) : m.readBytes a n = m'.readBytes a' n := by
  apply List.ext_getElem
  · simp
  · intro k h1 h2
    simp only [Memory.readBytes_getElem]
    exact h k (by simpa using h1)

@[simp] theorem Memory.readBits_length (m : Memory) (a n : Nat) : (m.readBits a n).length = n := by
  simp [Memory.readBits]

@[simp] theorem Memory.readBits_getElem (m : Memory) (a n k : Nat) (lt : k < (m.readBits a n).length) :
    (m.readBits a n)[k] = (m.read (a + k)).getLsbD 0 := by
  simp [Memory.readBits, elementBit]

@[simp] theorem bitElements_length (s : Bits) : (bitElements s).length = s.length := by simp [bitElements]

@[simp] theorem elementBit_bitElement (b : Bool) : elementBit (bitElement b) = b := by cases b <;> rfl

theorem emptyMemory_wf : Memory.wf [] = true := rfl

end Sys2Proof.Machine
end

