-- ==== Sys2Proof/Laws/State.lean ====
section
/-! SUPPORT. What each shared update of the state does to each field: one lemma per field, for simp. -/

namespace Sys2Proof.Machine

variable (s : State)

/-! The completion step (40_command_engine R104). -/

@[simp] theorem State.complete_params (r : Result) : (s.complete r).params = s.params := by cases r <;> rfl
@[simp] theorem State.complete_seq (r : Result) : (s.complete r).seq = .idle := by cases r <;> rfl
@[simp] theorem State.complete_irqEn (r : Result) : (s.complete r).irqEn = s.irqEn := by cases r <;> rfl
@[simp] theorem State.complete_done (r : Result) : (s.complete r).done = true := by cases r <;> rfl
@[simp] theorem State.complete_ovr (r : Result) : (s.complete r).ovr = s.ovr := by cases r <;> rfl
@[simp] theorem State.complete_cmd (r : Result) : (s.complete r).cmd = s.cmd := by cases r <;> rfl
@[simp] theorem State.complete_ok_errCode (c : Commit) : (s.complete (.ok c)).errCode = 0 := rfl
@[simp] theorem State.complete_error_errCode (e : Raise) : (s.complete (.error e)).errCode = errorCode e.err := rfl
@[simp] theorem State.complete_ok_errReq (c : Commit) : (s.complete (.ok c)).errReq = 0 := rfl
@[simp] theorem State.complete_error_errReq (e : Raise) : (s.complete (.error e)).errReq = e.req := rfl
@[simp] theorem State.complete_ok_errAvail (c : Commit) : (s.complete (.ok c)).errAvail = 0 := rfl
@[simp] theorem State.complete_error_errAvail (e : Raise) : (s.complete (.error e)).errAvail = e.avail := rfl
@[simp] theorem State.complete_srcAddr (r : Result) : (s.complete r).srcAddr = s.srcAddr := by cases r <;> rfl
@[simp] theorem State.complete_srcLen (r : Result) : (s.complete r).srcLen = s.srcLen := by cases r <;> rfl
@[simp] theorem State.complete_dstAddr (r : Result) : (s.complete r).dstAddr = s.dstAddr := by cases r <;> rfl
@[simp] theorem State.complete_dstMax (r : Result) : (s.complete r).dstMax = s.dstMax := by cases r <;> rfl
@[simp] theorem State.complete_gsrcAddr (r : Result) : (s.complete r).gsrcAddr = s.gsrcAddr := by cases r <;> rfl
@[simp] theorem State.complete_gdstAddr (r : Result) : (s.complete r).gdstAddr = s.gdstAddr := by cases r <;> rfl
@[simp] theorem State.complete_width (r : Result) : (s.complete r).width = s.width := by cases r <;> rfl
@[simp] theorem State.complete_height (r : Result) : (s.complete r).height = s.height := by cases r <;> rfl
@[simp] theorem State.complete_comp (r : Result) : (s.complete r).comp = s.comp := by cases r <;> rfl
@[simp] theorem State.complete_enc (r : Result) : (s.complete r).enc = s.enc := by cases r <;> rfl
@[simp] theorem State.complete_keyLen (r : Result) : (s.complete r).keyLen = s.keyLen := by cases r <;> rfl
@[simp] theorem State.complete_key (r : Result) : (s.complete r).key = s.key := by cases r <;> rfl
@[simp] theorem State.complete_ok_resLen (c : Commit) : (s.complete (.ok c)).resLen = zext32 c.len := rfl
@[simp] theorem State.complete_error_resLen (e : Raise) : (s.complete (.error e)).resLen = 0 := rfl
@[simp] theorem State.complete_ok_resAux (c : Commit) : (s.complete (.ok c)).resAux = c.aux := rfl
@[simp] theorem State.complete_error_resAux (e : Raise) : (s.complete (.error e)).resAux = 0 := rfl
@[simp] theorem State.complete_ok_resFlag (c : Commit) : (s.complete (.ok c)).resFlag = c.flag := rfl
@[simp] theorem State.complete_error_resFlag (e : Raise) : (s.complete (.error e)).resFlag = false := rfl
@[simp] theorem State.complete_ok_mem (c : Commit) : (s.complete (.ok c)).mem = s.mem.writeAll c.writes := rfl
@[simp] theorem State.complete_error_mem (e : Raise) : (s.complete (.error e)).mem = s.mem := rfl
@[simp] theorem State.complete_host (r : Result) : (s.complete r).host = s.host := by cases r <;> rfl
@[simp] theorem State.complete_replies (r : Result) : (s.complete r).replies = s.replies := by cases r <;> rfl
@[simp] theorem State.complete_draws (r : Result) : (s.complete r).draws = s.draws + 1 := by cases r <;> rfl
@[simp] theorem State.complete_delay (r : Result) : (s.complete r).delay = 0 := by cases r <;> rfl

/-! The start of a command (40_command_engine R101). -/

@[simp] theorem State.start_params (w : Word) : (s.start w).params = s.params := rfl
@[simp] theorem State.start_seq (w : Word) : (s.start w).seq = .busy := rfl
@[simp] theorem State.start_irqEn (w : Word) : (s.start w).irqEn = s.irqEn := rfl
@[simp] theorem State.start_done (w : Word) : (s.start w).done = false := rfl
@[simp] theorem State.start_ovr (w : Word) : (s.start w).ovr = s.ovr := rfl
@[simp] theorem State.start_cmd (w : Word) : (s.start w).cmd = w := rfl
@[simp] theorem State.start_errCode (w : Word) : (s.start w).errCode = s.errCode := rfl
@[simp] theorem State.start_errReq (w : Word) : (s.start w).errReq = s.errReq := rfl
@[simp] theorem State.start_errAvail (w : Word) : (s.start w).errAvail = s.errAvail := rfl
@[simp] theorem State.start_srcAddr (w : Word) : (s.start w).srcAddr = s.srcAddr := rfl
@[simp] theorem State.start_srcLen (w : Word) : (s.start w).srcLen = s.srcLen := rfl
@[simp] theorem State.start_dstAddr (w : Word) : (s.start w).dstAddr = s.dstAddr := rfl
@[simp] theorem State.start_dstMax (w : Word) : (s.start w).dstMax = s.dstMax := rfl
@[simp] theorem State.start_gsrcAddr (w : Word) : (s.start w).gsrcAddr = s.gsrcAddr := rfl
@[simp] theorem State.start_gdstAddr (w : Word) : (s.start w).gdstAddr = s.gdstAddr := rfl
@[simp] theorem State.start_width (w : Word) : (s.start w).width = s.width := rfl
@[simp] theorem State.start_height (w : Word) : (s.start w).height = s.height := rfl
@[simp] theorem State.start_comp (w : Word) : (s.start w).comp = s.comp := rfl
@[simp] theorem State.start_enc (w : Word) : (s.start w).enc = s.enc := rfl
@[simp] theorem State.start_keyLen (w : Word) : (s.start w).keyLen = s.keyLen := rfl
@[simp] theorem State.start_key (w : Word) : (s.start w).key = s.key := rfl
@[simp] theorem State.start_resLen (w : Word) : (s.start w).resLen = s.resLen := rfl
@[simp] theorem State.start_resAux (w : Word) : (s.start w).resAux = s.resAux := rfl
@[simp] theorem State.start_resFlag (w : Word) : (s.start w).resFlag = s.resFlag := rfl
@[simp] theorem State.start_mem (w : Word) : (s.start w).mem = s.mem := rfl
@[simp] theorem State.start_host (w : Word) : (s.start w).host = s.host := rfl
@[simp] theorem State.start_replies (w : Word) : (s.start w).replies = s.replies := rfl
@[simp] theorem State.start_draws (w : Word) : (s.start w).draws = s.draws + 1 := rfl
@[simp] theorem State.start_delay (w : Word) : (s.start w).delay = Config.latency s.draws := rfl

/-! A reply to the host (70_reset_and_hazards R247). -/

@[simp] theorem State.reply_params (r : HostReply) : (s.reply r).params = s.params := rfl
@[simp] theorem State.reply_seq (r : HostReply) : (s.reply r).seq = s.seq := rfl
@[simp] theorem State.reply_irqEn (r : HostReply) : (s.reply r).irqEn = s.irqEn := rfl
@[simp] theorem State.reply_done (r : HostReply) : (s.reply r).done = s.done := rfl
@[simp] theorem State.reply_ovr (r : HostReply) : (s.reply r).ovr = s.ovr := rfl
@[simp] theorem State.reply_cmd (r : HostReply) : (s.reply r).cmd = s.cmd := rfl
@[simp] theorem State.reply_errCode (r : HostReply) : (s.reply r).errCode = s.errCode := rfl
@[simp] theorem State.reply_errReq (r : HostReply) : (s.reply r).errReq = s.errReq := rfl
@[simp] theorem State.reply_errAvail (r : HostReply) : (s.reply r).errAvail = s.errAvail := rfl
@[simp] theorem State.reply_srcAddr (r : HostReply) : (s.reply r).srcAddr = s.srcAddr := rfl
@[simp] theorem State.reply_srcLen (r : HostReply) : (s.reply r).srcLen = s.srcLen := rfl
@[simp] theorem State.reply_dstAddr (r : HostReply) : (s.reply r).dstAddr = s.dstAddr := rfl
@[simp] theorem State.reply_dstMax (r : HostReply) : (s.reply r).dstMax = s.dstMax := rfl
@[simp] theorem State.reply_gsrcAddr (r : HostReply) : (s.reply r).gsrcAddr = s.gsrcAddr := rfl
@[simp] theorem State.reply_gdstAddr (r : HostReply) : (s.reply r).gdstAddr = s.gdstAddr := rfl
@[simp] theorem State.reply_width (r : HostReply) : (s.reply r).width = s.width := rfl
@[simp] theorem State.reply_height (r : HostReply) : (s.reply r).height = s.height := rfl
@[simp] theorem State.reply_comp (r : HostReply) : (s.reply r).comp = s.comp := rfl
@[simp] theorem State.reply_enc (r : HostReply) : (s.reply r).enc = s.enc := rfl
@[simp] theorem State.reply_keyLen (r : HostReply) : (s.reply r).keyLen = s.keyLen := rfl
@[simp] theorem State.reply_key (r : HostReply) : (s.reply r).key = s.key := rfl
@[simp] theorem State.reply_resLen (r : HostReply) : (s.reply r).resLen = s.resLen := rfl
@[simp] theorem State.reply_resAux (r : HostReply) : (s.reply r).resAux = s.resAux := rfl
@[simp] theorem State.reply_resFlag (r : HostReply) : (s.reply r).resFlag = s.resFlag := rfl
@[simp] theorem State.reply_mem (r : HostReply) : (s.reply r).mem = s.mem := rfl
@[simp] theorem State.reply_host (r : HostReply) : (s.reply r).host = s.host := rfl
@[simp] theorem State.reply_replies (r : HostReply) : (s.reply r).replies = r :: s.replies := rfl
@[simp] theorem State.reply_draws (r : HostReply) : (s.reply r).draws = s.draws := rfl
@[simp] theorem State.reply_delay (r : HostReply) : (s.reply r).delay = s.delay := rfl

/-! A command put at hand (log 11). -/

@[simp] theorem State.commandAtHand_params (w : Word) : (s.commandAtHand w).params = s.params := rfl
@[simp] theorem State.commandAtHand_seq (w : Word) : (s.commandAtHand w).seq = .busy := rfl
@[simp] theorem State.commandAtHand_irqEn (w : Word) : (s.commandAtHand w).irqEn = s.irqEn := rfl
@[simp] theorem State.commandAtHand_done (w : Word) : (s.commandAtHand w).done = false := rfl
@[simp] theorem State.commandAtHand_ovr (w : Word) : (s.commandAtHand w).ovr = s.ovr := rfl
@[simp] theorem State.commandAtHand_cmd (w : Word) : (s.commandAtHand w).cmd = w := rfl
@[simp] theorem State.commandAtHand_errCode (w : Word) : (s.commandAtHand w).errCode = s.errCode := rfl
@[simp] theorem State.commandAtHand_errReq (w : Word) : (s.commandAtHand w).errReq = s.errReq := rfl
@[simp] theorem State.commandAtHand_errAvail (w : Word) : (s.commandAtHand w).errAvail = s.errAvail := rfl
@[simp] theorem State.commandAtHand_srcAddr (w : Word) : (s.commandAtHand w).srcAddr = s.srcAddr := rfl
@[simp] theorem State.commandAtHand_srcLen (w : Word) : (s.commandAtHand w).srcLen = s.srcLen := rfl
@[simp] theorem State.commandAtHand_dstAddr (w : Word) : (s.commandAtHand w).dstAddr = s.dstAddr := rfl
@[simp] theorem State.commandAtHand_dstMax (w : Word) : (s.commandAtHand w).dstMax = s.dstMax := rfl
@[simp] theorem State.commandAtHand_gsrcAddr (w : Word) : (s.commandAtHand w).gsrcAddr = s.gsrcAddr := rfl
@[simp] theorem State.commandAtHand_gdstAddr (w : Word) : (s.commandAtHand w).gdstAddr = s.gdstAddr := rfl
@[simp] theorem State.commandAtHand_width (w : Word) : (s.commandAtHand w).width = s.width := rfl
@[simp] theorem State.commandAtHand_height (w : Word) : (s.commandAtHand w).height = s.height := rfl
@[simp] theorem State.commandAtHand_comp (w : Word) : (s.commandAtHand w).comp = s.comp := rfl
@[simp] theorem State.commandAtHand_enc (w : Word) : (s.commandAtHand w).enc = s.enc := rfl
@[simp] theorem State.commandAtHand_keyLen (w : Word) : (s.commandAtHand w).keyLen = s.keyLen := rfl
@[simp] theorem State.commandAtHand_key (w : Word) : (s.commandAtHand w).key = s.key := rfl
@[simp] theorem State.commandAtHand_resLen (w : Word) : (s.commandAtHand w).resLen = s.resLen := rfl
@[simp] theorem State.commandAtHand_resAux (w : Word) : (s.commandAtHand w).resAux = s.resAux := rfl
@[simp] theorem State.commandAtHand_resFlag (w : Word) : (s.commandAtHand w).resFlag = s.resFlag := rfl
@[simp] theorem State.commandAtHand_mem (w : Word) : (s.commandAtHand w).mem = s.mem := rfl
@[simp] theorem State.commandAtHand_host (w : Word) : (s.commandAtHand w).host = s.host := rfl
@[simp] theorem State.commandAtHand_replies (w : Word) : (s.commandAtHand w).replies = s.replies := rfl
@[simp] theorem State.commandAtHand_draws (w : Word) : (s.commandAtHand w).draws = s.draws := rfl
@[simp] theorem State.commandAtHand_delay (w : Word) : (s.commandAtHand w).delay = 0 := rfl

/-! The reset input (70_reset_and_hazards R230). -/

@[simp] theorem resetInput_params : (resetInput s).params = s.params := rfl
@[simp] theorem resetInput_seq : (resetInput s).seq = State.reset.seq := rfl
@[simp] theorem resetInput_irqEn : (resetInput s).irqEn = State.reset.irqEn := rfl
@[simp] theorem resetInput_done : (resetInput s).done = State.reset.done := rfl
@[simp] theorem resetInput_ovr : (resetInput s).ovr = State.reset.ovr := rfl
@[simp] theorem resetInput_cmd : (resetInput s).cmd = State.reset.cmd := rfl
@[simp] theorem resetInput_errCode : (resetInput s).errCode = State.reset.errCode := rfl
@[simp] theorem resetInput_errReq : (resetInput s).errReq = State.reset.errReq := rfl
@[simp] theorem resetInput_errAvail : (resetInput s).errAvail = State.reset.errAvail := rfl
@[simp] theorem resetInput_srcAddr : (resetInput s).srcAddr = State.reset.srcAddr := rfl
@[simp] theorem resetInput_srcLen : (resetInput s).srcLen = State.reset.srcLen := rfl
@[simp] theorem resetInput_dstAddr : (resetInput s).dstAddr = State.reset.dstAddr := rfl
@[simp] theorem resetInput_dstMax : (resetInput s).dstMax = State.reset.dstMax := rfl
@[simp] theorem resetInput_gsrcAddr : (resetInput s).gsrcAddr = State.reset.gsrcAddr := rfl
@[simp] theorem resetInput_gdstAddr : (resetInput s).gdstAddr = State.reset.gdstAddr := rfl
@[simp] theorem resetInput_width : (resetInput s).width = State.reset.width := rfl
@[simp] theorem resetInput_height : (resetInput s).height = State.reset.height := rfl
@[simp] theorem resetInput_comp : (resetInput s).comp = State.reset.comp := rfl
@[simp] theorem resetInput_enc : (resetInput s).enc = State.reset.enc := rfl
@[simp] theorem resetInput_keyLen : (resetInput s).keyLen = State.reset.keyLen := rfl
@[simp] theorem resetInput_key : (resetInput s).key = State.reset.key := rfl
@[simp] theorem resetInput_resLen : (resetInput s).resLen = State.reset.resLen := rfl
@[simp] theorem resetInput_resAux : (resetInput s).resAux = State.reset.resAux := rfl
@[simp] theorem resetInput_resFlag : (resetInput s).resFlag = State.reset.resFlag := rfl
@[simp] theorem resetInput_mem : (resetInput s).mem = scrambleAll s.draws s.mem (runningWrites s) := rfl
@[simp] theorem resetInput_host : (resetInput s).host = s.host := rfl
@[simp] theorem resetInput_replies : (resetInput s).replies = s.replies := rfl
@[simp] theorem resetInput_draws : (resetInput s).draws = s.draws + 1 := rfl
@[simp] theorem resetInput_delay : (resetInput s).delay = State.reset.delay := rfl

end Sys2Proof.Machine
end

