-- ==== Sys2Proof/Laws/Exec.lean ====
section
/-! SUPPORT. What a command's completion can do, said once: every command answers a next state, and that state is
`State.complete` of its checked body (40_command_engine R104). -/

namespace Sys2Proof.Machine

/-- The body of each command, as its own rule gives it. -/
def bodyOf (i : Instr) (s : State) : Result :=
  match i with
  | .ser => serBody s
  | .deser => deserBody s
  | .compress => compressBody Config.stages s
  | .decompress => decompressBody Config.stages s
  | .sealBlob => sealBody Config.stages s
  | .openBlob => openBody Config.stages s
  | .frameBuild flag => frameBuildBody flag s
  | .frameParse => frameParseBody s
  | .embed => embedBody s
  | .extract => extractBody s
  | .capacity => capacityBody s
  | .encode => encodeBody Config.stages s
  | .decode => decodeBody Config.stages s

/-- Every command answers a next state: the completion of its checks and its body. -/
theorem exec_eq_complete (i : Instr) (s : State) : exec i s = .next (s.complete (checkedResult i s (bodyOf i s))) := by
  cases i <;> rfl

/-- Every command is the run of its body. -/
theorem exec_eq_runCommand (i : Instr) (s : State) : exec i s = runCommand i s (bodyOf i s) := by
  cases i <;> rfl

theorem runCommand_eq (i : Instr) (s : State) (body : Result) :
    runCommand i s body = .next (s.complete (checkedResult i s body)) := rfl

theorem precheck_eq_none_iff (i : Instr) (s : State) : precheck i s = none ↔ ChecksPass i s := by
  unfold precheck
  constructor
  · intro h
    split at h
    · simp at h
    split at h
    · simp at h
    split at h
    · simp at h
    split at h
    · simp at h
    exact ⟨by simpa using ‹¬stageMissing i s = true›, by simpa using ‹¬keyLengthWrong i s = true›,
      by simpa using ‹¬outOfRange i s = true›, by simpa using ‹¬overlapping i s = true›⟩
  · intro h
    simp [h.stage, h.keyLength, h.range, h.overlap]

/-- When the common checks pass, the result is the body's. -/
theorem checkedResult_of_pass {i : Instr} {s : State} (h : ChecksPass i s) (body : Result) :
    checkedResult i s body = body := by
  simp [checkedResult, (precheck_eq_none_iff i s).mpr h]

/-- A result is an error of the checks, or the checks pass and it is the body's. -/
theorem checkedResult_cases (i : Instr) (s : State) (body : Result) :
    (∃ e, precheck i s = some e ∧ checkedResult i s body = .error e) ∨
      (ChecksPass i s ∧ checkedResult i s body = body) := by
  cases h : precheck i s with
  | some e => exact .inl ⟨e, rfl, by simp [checkedResult, h]⟩
  | none =>
    have pass := (precheck_eq_none_iff i s).mp h
    exact .inr ⟨pass, checkedResult_of_pass pass body⟩

/-- A completion keeps the configuration and leaves the engine idle with DONE set. -/
theorem State.complete_completes (s : State) (r : Result) : Completes s (s.complete r) where
  srcAddr := by simp
  srcLen := by simp
  dstAddr := by simp
  dstMax := by simp
  gsrcAddr := by simp
  gdstAddr := by simp
  width := by simp
  height := by simp
  comp := by simp
  enc := by simp
  keyLen := by simp
  key := by simp
  params := by simp
  irqEn := by simp
  ovr := by simp
  cmd := by simp
  host := by simp
  replies := by simp
  seq := by simp
  done := by simp

/-- A commit succeeds with its results. -/
theorem State.complete_ok_succeeds (s : State) (c : Commit) :
    Succeeds s (s.complete (.ok c)) (zext32 c.len) c.aux c.flag :=
  { toCompletes := s.complete_completes _, resLen := rfl, resAux := rfl, resFlag := rfl, errCode := rfl,
    errReq := rfl, errAvail := rfl }

/-- A raise fails with its code and report, and writes nothing. -/
theorem State.complete_error_failsWith (s : State) (e : Raise) :
    FailsWith s (s.complete (.error e)) (errorCode e.err) e.req e.avail :=
  { toCompletes := s.complete_completes _, mem := rfl, resLen := rfl, resAux := rfl, resFlag := rfl, errCode := rfl,
    errReq := rfl, errAvail := rfl }

/-- Every code of an error is in the table and is not the code of success. -/
theorem errorCode_mem (e : CommandError) : errorCode e ∈ resultCodes ∧ errorCode e ≠ 0 := by
  cases e <;> decide

/-- `emit` in its two cases (40_command_engine R112). -/
theorem State.emit_fits {s : State} {out : Bytes} (h : out.length ≤ s.dstMax.toNat) (len : Nat) (aux : Word)
    (flag : Bool) : s.emit out len aux flag = .ok ⟨[(s.dstAddr.toNat, out)], len, aux, flag⟩ := by
  simp [State.emit, Nat.not_lt.mpr h]

theorem State.emit_overflows {s : State} {out : Bytes} (h : s.dstMax.toNat < out.length) (len : Nat) (aux : Word)
    (flag : Bool) : s.emit out len aux flag = .error ⟨.outputOverflow, sat32 out.length, s.dstMax⟩ := by
  simp [State.emit, h]

/-- What an admitted region gives: it is empty or lies below MEM_SIZE, so below 2^32 (20_memory R61). -/
theorem admitted_le {p : Params} {r : Region} (h : admitted p r = true) : r.2 = 0 ∨ r.1 + r.2 ≤ 2 ^ 32 := by
  have bound := p.memLast.isLt
  rcases Bool.or_eq_true _ _ ▸ h with h | h
  · exact .inl (of_decide_eq_true h)
  · have le := of_decide_eq_true h
    simp only [Params.memSize] at le
    exact .inr (by omega)

/-- Every region of a command whose checks pass is admitted (40_command_engine R108). -/
theorem ChecksPass.admitted {i : Instr} {s : State} (h : ChecksPass i s) {r : Region}
    (hr : r ∈ readRegions i s ∨ r ∈ writtenRegions i s) : admitted s.params r = true := by
  have := h.range
  simp only [outOfRange, Bool.not_eq_false', Bool.and_eq_true, List.all_eq_true] at this
  rcases hr with hr | hr
  · exact this.1 r hr
  · exact this.2 r hr

/-- The engine moves only while a command runs (40_command_engine R102). -/
theorem busy_of_engineMoves {s : State} (h : engineMoves s = true) : s.seq = .busy := by
  simp only [engineMoves, State.busyBit, Bool.and_eq_true, beq_iff_eq] at h
  exact h.1

/-- A step is a command's completion or the host's turn. -/
theorem step_cases (s : State) :
    (engineMoves s = true ∧ ∃ i, decode s.cmd = .ok i ∧ step s = exec i s) ∨
      (engineMoves s = true ∧ (∃ e, decode s.cmd = .error e) ∧ step s = illegalCommand s) ∨
      (engineMoves s = false ∧ step s = hostTurn s) := by
  cases h : engineMoves s with
  | false => exact .inr (.inr ⟨rfl, by simp [step, h]⟩)
  | true =>
    cases d : decode s.cmd with
    | ok i => exact .inl ⟨rfl, i, rfl, by simp [step, h, d]⟩
    | error e => exact .inr (.inl ⟨rfl, ⟨e, rfl⟩, by simp [step, h, d]⟩)

end Sys2Proof.Machine
end

