-- ==== Sys2Proof/Laws/Commands.lean ====
section
/-! SUPPORT. What a command's body can commit, said once: at most one block of bytes, inside the command's written
region (40_command_engine R105, R110, R112). -/

namespace Sys2Proof.Machine

@[simp] theorem State.srcBytes_length (s : State) : s.srcBytes.length = s.srcLen.toNat := by simp [State.srcBytes]

@[simp] theorem State.srcBits_length (s : State) : s.srcBits.length = s.srcLen.toNat := by simp [State.srcBits]

@[simp] theorem State.gridBytes_length (s : State) : s.gridBytes.length = 4 * s.pixels := by
  simp [State.gridBytes, State.gridSize]

/-- The key registers hold a Key (10_state R38; log 22). -/
theorem State.keyBytes_isKey (s : State) : IsKey s.keyBytes := by simp [IsKey, State.keyBytes]

/-- A draw is a Nonce (40_command_engine R102; log 22). -/
theorem State.nonce_isNonce (s : State) : IsNonce s.params s.nonce := by simp [IsNonce, State.nonce]

/-- The number of pixels fits a register (10_state R35). -/
theorem State.pixels_lt (s : State) : s.pixels < 2 ^ 32 := by
  have := s.width.isLt
  have := s.height.isLt
  unfold State.pixels
  nlinarith

theorem zext32_toNat {n : Nat} (h : n < 2 ^ 32) : (zext32 n).toNat = n := by
  simp only [zext32, BitVec.toNat_ofNat, Nat.mod_eq_of_lt h]

/-- A commit of `emit` writes its output at DST_ADDR, within DST_MAX (40_command_engine R112). -/
theorem State.emit_ok {s : State} {out : Bytes} {len : Nat} {aux : Word} {flag : Bool} {c : Commit}
    (h : s.emit out len aux flag = .ok c) :
    c = ⟨[(s.dstAddr.toNat, out)], len, aux, flag⟩ ∧ out.length ≤ s.dstMax.toNat := by
  unfold State.emit at h
  split at h
  · simp at h
  · exact ⟨(Except.ok.inj h).symm, by omega⟩

/-- What a parse that succeeds returns (43_frame_builder R153). -/
theorem parseFrame_ok {s : Bits} {f : Parsed} (h : parseFrame s = .ok f) :
    f.len = frameLength s ∧ f.payload.length = f.len ∧ f.flag = s.headD false ∧ 33 + 8 * f.len ≤ s.length ∧
      bytesToBits f.payload = (s.drop 33).take (8 * f.len) := by
  unfold parseFrame at h
  split at h
  · simp at h
  simp only at h
  split at h
  · simp at h
  split at h
  · simp at h
  · rename_i h1 h2 p hp
    have packed := bitsToBytes_spec hp
    rw [← Except.ok.inj h]
    refine ⟨rfl, ?_, rfl, ?_, packed.2⟩
    · show p.length = frameLength s
      have l := packed.1
      simp only [List.length_take, List.length_drop] at l
      omega
    · show 33 + 8 * frameLength s ≤ s.length
      omega

/-- Where the header and the declared payload are there, the parse succeeds (43_frame_builder R153, R155). -/
theorem parseFrame_fits {s : Bits} (h : 33 + 8 * frameLength s ≤ s.length) : ∃ f, parseFrame s = .ok f := by
  have whole : ((s.drop 33).take (8 * frameLength s)).length % 8 = 0 := by
    simp only [List.length_take, List.length_drop]
    omega
  obtain ⟨p, hp⟩ := bitsToBytes_total whole
  exact ⟨⟨s.headD false, frameLength s, p⟩, by simp [parseFrame, show ¬s.length < 33 by omega,
    show ¬s.length - 33 < 8 * frameLength s by omega, hp]⟩

/-- A commit of a command with a linear destination: CAPACITY writes nothing; every other writes RES_LEN bytes at
DST_ADDR, within DST_MAX (40_command_engine R105). -/
theorem bodyOf_linear_ok {i : Instr} (h1 : i ≠ .embed) (h2 : i ≠ .encode) {s : State} {c : Commit}
    (h : bodyOf i s = .ok c) :
    (i = .capacity ∧ c.writes = [] ∧ c.len = 0) ∨
      (writtenRegions i s = [s.dstRegion] ∧
        ∃ out, c.writes = [(s.dstAddr.toNat, out)] ∧ c.len = out.length ∧ out.length ≤ s.dstMax.toNat) := by
  cases i with
  | embed => exact absurd rfl h1
  | encode => exact absurd rfl h2
  | capacity =>
    rw [← Except.ok.inj h]
    exact .inl ⟨rfl, rfl, rfl⟩
  | ser =>
    obtain ⟨rfl, l⟩ := State.emit_ok h
    exact .inr ⟨rfl, _, rfl, by simp, l⟩
  | deser =>
    simp only [bodyOf, deserBody] at h
    split at h
    · simp at h
    · rename_i out ho
      obtain ⟨rfl, l⟩ := State.emit_ok h
      have := (bitsToBytes_spec ho).1
      simp only [State.srcBits_length] at this
      exact .inr ⟨rfl, _, rfl, by simp; omega, l⟩
  | compress =>
    obtain ⟨rfl, l⟩ := State.emit_ok h
    exact .inr ⟨rfl, _, rfl, rfl, l⟩
  | decompress =>
    simp only [bodyOf, decompressBody] at h
    split at h
    · simp at h
    · obtain ⟨rfl, l⟩ := State.emit_ok h
      exact .inr ⟨rfl, _, rfl, rfl, l⟩
  | sealBlob =>
    obtain ⟨rfl, l⟩ := State.emit_ok h
    exact .inr ⟨rfl, _, rfl, rfl, l⟩
  | openBlob =>
    simp only [bodyOf, openBody] at h
    split at h
    · simp at h
    · obtain ⟨rfl, l⟩ := State.emit_ok h
      exact .inr ⟨rfl, _, rfl, rfl, l⟩
  | frameBuild f =>
    obtain ⟨rfl, l⟩ := State.emit_ok h
    exact .inr ⟨rfl, _, rfl, by simp, l⟩
  | frameParse =>
    simp only [bodyOf, frameParseBody] at h
    split at h
    · simp at h
    · rename_i f hf
      obtain ⟨rfl, l⟩ := State.emit_ok h
      exact .inr ⟨rfl, _, rfl, (parseFrame_ok hf).2.1.symm, l⟩
  | extract =>
    obtain ⟨rfl, l⟩ := State.emit_ok h
    exact .inr ⟨rfl, _, rfl, by simp [extract_length s.gridBytes_length], l⟩
  | decode =>
    simp only [bodyOf, decodeBody] at h
    split at h
    · simp at h
    · split at h
      · simp at h
      · obtain ⟨rfl, l⟩ := State.emit_ok h
        exact .inr ⟨rfl, _, rfl, rfl, l⟩

/-- A commit of EMBED or ENCODE: the source grid with RES_LEN bits embedded, at GDST_ADDR (44_pixel_walker R161,
45_codec_operations R173). -/
theorem bodyOf_grid_ok {i : Instr} (hi : i = .embed ∨ i = .encode) {s : State} {c : Commit}
    (h : bodyOf i s = .ok c) :
    writtenRegions i s = [s.gdstRegion] ∧
      ∃ bits, c.writes = [(s.gdstAddr.toNat, embed s.gridBytes bits)] ∧ c.len = bits.length ∧
        bits.length ≤ s.pixels := by
  rcases hi with rfl | rfl
  · simp only [bodyOf, embedBody] at h
    split at h
    · simp at h
    · rw [← Except.ok.inj h]
      exact ⟨rfl, _, rfl, by simp, by simp; omega⟩
  · simp only [bodyOf, encodeBody] at h
    split at h
    · simp at h
    · rw [← Except.ok.inj h]
      exact ⟨rfl, _, rfl, by simp, by simp; omega⟩

/-- A commit of any command: nothing, or one block inside the one written region (40_command_engine R110). -/
theorem bodyOf_ok {i : Instr} {s : State} {c : Commit} (h : bodyOf i s = .ok c) :
    c.writes = [] ∨ ∃ r out, writtenRegions i s = [r] ∧ c.writes = [(r.1, out)] ∧ out.length ≤ r.2 := by
  by_cases hg : i = .embed ∨ i = .encode
  · obtain ⟨w, bits, hw, _, _⟩ := bodyOf_grid_ok hg h
    exact .inr ⟨_, _, w, hw, by simp [State.gdstRegion, State.gridSize]⟩
  · rcases bodyOf_linear_ok (by tauto) (by tauto) h with ⟨_, h, _⟩ | ⟨w, out, hw, _, l⟩
    · exact .inl h
    · exact .inr ⟨_, _, w, hw, l⟩

/-- A block inside the written region of a command whose checks pass lies below 2^32, or is empty (20_memory R61). -/
theorem ChecksPass.fits {i : Instr} {s : State} (p : ChecksPass i s) {r : Region} (hw : r ∈ writtenRegions i s)
    {out : Bytes} (l : out.length ≤ r.2) : out = [] ∨ r.1 + out.length ≤ 2 ^ 32 := by
  rcases admitted_le (p.admitted (r := r) (.inr hw)) with h | h
  · exact .inl (List.eq_nil_of_length_eq_zero (by omega))
  · exact .inr (by omega)

/-- A block that lies below 2^32, or is empty, keeps memory canonical and reads back; no other byte changes. -/
theorem Memory.writeBytes_stores {m : Memory} (h : m.wf = true) {a : Nat} {out : Bytes}
    (f : out = [] ∨ a + out.length ≤ 2 ^ 32) :
    (m.writeBytes a out).wf = true ∧ Stores m (m.writeBytes a out) a out := by
  rcases f with rfl | f
  · exact ⟨h, rfl, fun _ _ => rfl⟩
  · exact ⟨Memory.writeBytes_wf h f, Memory.readBytes_writeBytes h f, fun _ ho => Memory.read_writeBytes_other m ho⟩

/-- A byte of a stored block. -/
theorem Stores.read {m m' : Memory} {a : Nat} {out : Bytes} (h : Stores m m' a out) {k : Nat} (lt : k < out.length) :
    m'.read (a + k) = out[k] := by
  have e := List.getElem_of_eq h.1 (i := k) (by simpa using lt)
  rwa [Memory.readBytes_getElem] at e

theorem State.srcBytes_getElem (s : State) {k : Nat} (h : k < s.srcBytes.length) :
    s.srcBytes[k] = s.mem.read (s.srcAddr.toNat + k) :=
  Memory.readBytes_getElem s.mem _ _ k h

theorem State.srcBits_getElem (s : State) {k : Nat} (h : k < s.srcBits.length) :
    s.srcBits[k] = (s.mem.read (s.srcAddr.toNat + k)).getLsbD 0 :=
  Memory.readBits_getElem s.mem _ _ k h

theorem State.gridBytes_getElem (s : State) {k : Nat} (h : k < s.gridBytes.length) :
    s.gridBytes[k] = s.mem.read (s.gsrcAddr.toNat + k) :=
  Memory.readBytes_getElem s.mem _ _ k h

/-- A command whose checks pass and whose body commits succeeds with the commit's results and writes. -/
theorem runCommand_ok {i : Instr} {s : State} (p : ChecksPass i s) (c : Commit) :
    ∃ t, runCommand i s (.ok c) = .next t ∧ Succeeds s t (zext32 c.len) c.aux c.flag ∧
      t.mem = s.mem.writeAll c.writes := by
  refine ⟨_, runCommand_eq i s _, ?_⟩
  rw [checkedResult_of_pass p]
  exact ⟨State.complete_ok_succeeds s c, rfl⟩

/-- A command whose checks pass and whose body raises fails with the raise's report. -/
theorem runCommand_error {i : Instr} {s : State} (p : ChecksPass i s) (e : Raise) :
    ∃ t, runCommand i s (.error e) = .next t ∧ FailsWith s t (errorCode e.err) e.req e.avail := by
  refine ⟨_, runCommand_eq i s _, ?_⟩
  rw [checkedResult_of_pass p]
  exact State.complete_error_failsWith s e

/-- A command that emits an output that fits succeeds and stores it at DST_ADDR (40_command_engine R112). -/
theorem runCommand_emit_fits {i : Instr} {s : State} (p : ChecksPass i s) (wf : s.mem.wf = true)
    (w : s.dstRegion ∈ writtenRegions i s) {out : Bytes} (fits : out.length ≤ s.dstMax.toNat) (len : Nat) (aux : Word)
    (flag : Bool) :
    ∃ t, runCommand i s (s.emit out len aux flag) = .next t ∧ Succeeds s t (zext32 len) aux flag ∧
      Stores s.mem t.mem s.dstAddr.toNat out := by
  obtain ⟨t, e, ok, m⟩ := runCommand_ok p ⟨[(s.dstAddr.toNat, out)], len, aux, flag⟩
  refine ⟨t, by rw [State.emit_fits fits, e], ok, ?_⟩
  rw [m]
  exact (Memory.writeBytes_stores wf (p.fits w fits)).2

/-- A command that emits an output that does not fit fails OutputOverflow (40_command_engine R112). -/
theorem runCommand_emit_overflows {i : Instr} {s : State} (p : ChecksPass i s) {out : Bytes}
    (long : s.dstMax.toNat < out.length) (len : Nat) (aux : Word) (flag : Bool) :
    ∃ t, runCommand i s (s.emit out len aux flag) = .next t ∧ FailsWith s t 0x14 (sat32 out.length) s.dstMax := by
  rw [State.emit_overflows long]
  exact runCommand_error p _

/-- A command that commits the source grid with bits embedded in it succeeds and stores that grid at GDST_ADDR
(44_pixel_walker R161). -/
theorem runCommand_embed {i : Instr} {s : State} (p : ChecksPass i s) (wf : s.mem.wf = true)
    (w : s.gdstRegion ∈ writtenRegions i s) (bits : Bits) (len : Nat) (aux : Word) (flag : Bool) :
    ∃ t, runCommand i s (.ok ⟨[(s.gdstAddr.toNat, embed s.gridBytes bits)], len, aux, flag⟩) = .next t ∧
      Succeeds s t (zext32 len) aux flag ∧ Stores s.mem t.mem s.gdstAddr.toNat (embed s.gridBytes bits) := by
  obtain ⟨t, e, ok, m⟩ := runCommand_ok p ⟨[(s.gdstAddr.toNat, embed s.gridBytes bits)], len, aux, flag⟩
  refine ⟨t, e, ok, ?_⟩
  rw [m]
  exact (Memory.writeBytes_stores wf (p.fits w (by simp [State.gdstRegion, State.gridSize]))).2

end Sys2Proof.Machine
end

