-- ==== Sys2Proof/Laws/Errors.lean ====
section
/-! SUPPORT. Which error a command can end with, said once: what its checks raise, and what its body can raise
(40_command_engine R106, R114). -/

namespace Sys2Proof.Machine

/-- The checks in their order, each with its report (40_command_engine R106). -/
theorem precheck_cases (i : Instr) (s : State) :
    (stageMissing i s = true ∧ precheck i s = some ⟨.stageAbsent, 0, 0⟩) ∨
    (stageMissing i s = false ∧ keyLengthWrong i s = true ∧
      precheck i s = some ⟨.invalidKeyLength, 32, s.keyLen.zeroExtend 32⟩) ∨
    (stageMissing i s = false ∧ keyLengthWrong i s = false ∧ outOfRange i s = true ∧
      precheck i s = some ⟨.addressRange, 0, 0⟩) ∨
    (stageMissing i s = false ∧ keyLengthWrong i s = false ∧ outOfRange i s = false ∧ overlapping i s = true ∧
      precheck i s = some ⟨.overlap, 0, 0⟩) ∨
    (ChecksPass i s ∧ precheck i s = none) := by
  cases h1 : stageMissing i s
  · cases h2 : keyLengthWrong i s
    · cases h3 : outOfRange i s
      · cases h4 : overlapping i s
        · exact .inr (.inr (.inr (.inr ⟨⟨h1, h2, h3, h4⟩, by simp [precheck, *]⟩)))
        · exact .inr (.inr (.inr (.inl ⟨rfl, rfl, rfl, rfl, by simp [precheck, *]⟩)))
      · exact .inr (.inr (.inl ⟨rfl, rfl, rfl, by simp [precheck, *]⟩))
    · exact .inr (.inl ⟨rfl, rfl, by simp [precheck, *]⟩)
  · exact .inl ⟨rfl, by simp [precheck, *]⟩

/-- A check that fails ends the command with its report. -/
theorem exec_of_precheck {i : Instr} {s : State} {e : Raise} (h : precheck i s = some e) :
    ∃ t, exec i s = .next t ∧ FailsWith s t (errorCode e.err) e.req e.avail :=
  ⟨_, exec_eq_complete i s, by simp only [checkedResult, h]; exact State.complete_error_failsWith s e⟩

/-- The errors a body can raise. -/
def bodyErrors : List CommandError :=
  [.messageTooLarge, .truncatedHeader, .truncatedPayload, .malformedLength, .corruptPayload, .authenticationFailed,
    .ciphertextTooShort, .outputOverflow, .stageAbsent]

theorem State.emit_error {s : State} {out : Bytes} {len : Nat} {aux : Word} {flag : Bool} {e : Raise}
    (h : s.emit out len aux flag = .error e) : e.err ∈ bodyErrors := by
  unfold State.emit at h
  split at h
  · cases h; simp [bodyErrors]
  · cases h

theorem parseFrame_error {s : Bits} {e : Raise} (h : parseFrame s = .error e) : e.err ∈ bodyErrors := by
  unfold parseFrame at h
  split at h
  · cases h; simp [bodyErrors]
  simp only at h
  split at h
  · cases h; simp [bodyErrors]
  split at h
  · cases h; simp [bodyErrors, Sys2Proof.Machine.malformedLength]
  · cases h

theorem unsealBlob_error {st : Stages} {p : Params} {key blob : Bytes} {e : Raise}
    (h : unsealBlob st p key blob = .error e) : e.err ∈ bodyErrors := by
  unfold unsealBlob at h
  split at h
  · cases h; simp [bodyErrors]
  split at h
  · cases h; simp [bodyErrors]
  · cases h

theorem unpack_error {st : Stages} {p : Params} {flag : Bool} {p1 : Bytes} {e : Raise}
    (h : unpack st p flag p1 = .error e) : e.err ∈ bodyErrors := by
  unfold unpack at h
  split at h
  · split at h
    · split at h
      · cases h; simp [bodyErrors]
      · cases h
    · cases h; simp [bodyErrors]
  · cases h

theorem pipeDec_error {st : Stages} {p : Params} {payload key : Bytes} {flag enc : Bool} {e : Raise}
    (h : pipeDec st p payload flag enc key = .error e) : e.err ∈ bodyErrors := by
  unfold pipeDec at h
  split at h
  · split at h
    · cases h; exact unsealBlob_error ‹_›
    · exact unpack_error h
  · exact unpack_error h

/-- No body raises an error of the checks (but StageAbsent, which DECODE's last stage can raise). -/
theorem bodyOf_error {i : Instr} {s : State} {e : Raise} (h : bodyOf i s = .error e) : e.err ∈ bodyErrors := by
  cases i with
  | ser => exact State.emit_error h
  | deser =>
    simp only [bodyOf, deserBody] at h
    split at h
    · cases h; simp [bodyErrors, Sys2Proof.Machine.malformedLength]
    · exact State.emit_error h
  | compress => exact State.emit_error h
  | decompress =>
    simp only [bodyOf, decompressBody] at h
    split at h
    · cases h; simp [bodyErrors]
    · exact State.emit_error h
  | sealBlob => exact State.emit_error h
  | openBlob =>
    simp only [bodyOf, openBody] at h
    split at h
    · cases h; exact unsealBlob_error ‹_›
    · exact State.emit_error h
  | frameBuild flag => exact State.emit_error h
  | frameParse =>
    simp only [bodyOf, frameParseBody] at h
    split at h
    · cases h; exact parseFrame_error ‹_›
    · exact State.emit_error h
  | embed =>
    simp only [bodyOf, embedBody] at h
    split at h
    · cases h; simp [bodyErrors]
    · cases h
  | extract => exact State.emit_error h
  | capacity => cases h
  | encode =>
    simp only [bodyOf, encodeBody] at h
    split at h
    · cases h; simp [bodyErrors]
    · cases h
  | decode =>
    simp only [bodyOf, decodeBody] at h
    split at h
    · cases h; exact parseFrame_error ‹_›
    · split at h
      · cases h; exact pipeDec_error ‹_›
      · exact State.emit_error h

/-- The bytes of a region read alike in memories that agree on the region. -/
theorem Memory.readBytes_of_covers {m m' : Memory} {a n : Nat}
    (h : ∀ x, Region.covers (a, n) x = true → m'.read x = m.read x) : m'.readBytes a n = m.readBytes a n :=
  Memory.readBytes_congr fun k hk => h _ (by simp [Region.covers]; omega)

end Sys2Proof.Machine
end

