-- ==== Sys2Proof/Laws/Flags.lean ====
section
/-! SUPPORT. The bits of the register words that are made of fields (10_state R24–R26, R35, R36, R41). -/

namespace Sys2Proof.Machine

/-- A placed bit is the only bit of its word. -/
theorem bitAt_getLsbD (b : Bool) {i : Nat} (h : i < 32) (j : Nat) : (bitAt b i).getLsbD j = (b && decide (j = i)) := by
  rw [bitAt, zext32, BitVec.getLsbD_shiftLeft, BitVec.getLsbD_ofNat]
  by_cases e : j = i
  · subst e
    cases b <;> simp [h]
  · cases b
    · simp
    · obtain l | ⟨k, hk⟩ : j < i ∨ ∃ k, j - i = k + 1 := by
        by_cases l : j < i
        · exact .inl l
        · exact .inr ⟨j - i - 1, by omega⟩
      · simp [e, l]
      · simp [e, hk, Nat.testBit_succ]

/-- STATUS bit by bit (10_state R26). -/
theorem statusWord_getLsbD (s : State) (j : Nat) :
    s.statusWord.getLsbD j = if j = 0 then s.busyBit else if j = 1 then s.done else if j = 2 then s.errBit else
      if j = 3 then s.ovr else false := by
  simp only [State.statusWord, BitVec.getLsbD_or, bitAt_getLsbD _ (show 0 < 32 by decide),
    bitAt_getLsbD _ (show 1 < 32 by decide), bitAt_getLsbD _ (show 2 < 32 by decide),
    bitAt_getLsbD _ (show 3 < 32 by decide)]
  split_ifs <;> simp_all

/-- CTRL bit by bit (10_state R25). -/
theorem ctrlWord_getLsbD (s : State) (j : Nat) : s.ctrlWord.getLsbD j = (s.irqEn && decide (j = 0)) :=
  bitAt_getLsbD _ (by decide) j

/-- POLICY bit by bit (10_state R36). -/
theorem policyWord_getLsbD (s : State) (j : Nat) :
    s.policyWord.getLsbD j = if j = 0 then s.comp else if j = 1 then s.enc else
      decide (8 ≤ j) && s.keyLen.getLsbD (j - 8) := by
  simp only [State.policyWord, BitVec.getLsbD_or, bitAt_getLsbD _ (show 0 < 32 by decide),
    bitAt_getLsbD _ (show 1 < 32 by decide), BitVec.getLsbD_shiftLeft, BitVec.truncate_eq_setWidth,
    BitVec.getLsbD_setWidth]
  split_ifs with h0 h1
  · subst h0; simp
  · subst h1; simp
  · by_cases h8 : 8 ≤ j
    · by_cases h32 : j < 32
      · simp [h0, h1, h8, Nat.not_lt.mpr h8, h32]; omega
      · rw [BitVec.getLsbD_of_ge s.keyLen (j - 8) (by omega)]
        simp [h0, h1]
    · simp [h0, h1, h8, show j < 8 by omega]

end Sys2Proof.Machine
end

