-- ==== Sys2Proof/Laws/Host.lean ====
section
/-! SUPPORT. What the host's turn can do, said once (70_reset_and_hazards R247; 10_state R42–R45). -/

namespace Sys2Proof.Machine

/-- Every register is found at its own offset (10_state R22: none is aliased). -/
theorem regAt_offset (r : Reg) : regAt r.offset = some r := by
  cases r with
  | key k => revert k; decide
  | _ => rfl

/-- Every register lies at an aligned offset of the window. -/
theorem Reg.offset_inWindow (r : Reg) : r.offset < 256 ∧ r.offset % 4 = 0 := by
  cases r with
  | key k => simp [Reg.offset]; omega
  | _ => decide

/-- The platform address of an offset leads to it (20_memory R70). -/
theorem atBusAddress_busAddress (p : Params) (off : Nat) (go : Nat → Host.Outcome State Fault Refusal) :
    atBusAddress p (busAddress p off) go = go off := by
  simp [atBusAddress, busAddress]

theorem atBusAddress_next {p : Params} {addr : Nat} {go : Nat → Host.Outcome State Fault Refusal} {t : State}
    (h : atBusAddress p addr go = .next t) : go (addr - p.regBase) = .next t := by
  unfold atBusAddress at h
  split at h
  · simp at h
  · exact h

/-- A data-memory access that answers a next state is one at an address that exists (10_state R46). -/
theorem atMemAddress_next {addr : Nat} {go : Host.Outcome State Fault Refusal} {t : State}
    (h : atMemAddress addr go = .next t) : addr < 2 ^ 32 ∧ go = .next t := by
  unfold atMemAddress at h
  split at h
  · simp at h
  · exact ⟨by omega, h⟩

/-- An address that exists is one the host may ask for. -/
theorem atMemAddress_of_lt {addr : Nat} (h : addr < 2 ^ 32) (go : Host.Outcome State Fault Refusal) :
    atMemAddress addr go = go := by
  rw [atMemAddress, if_neg (by omega)]

/-- An access at a register's offset is one the host has. -/
theorem atOffset_reg (r : Reg) (go : Host.Outcome State Fault Refusal) : atOffset r.offset go = go := by
  have := r.offset_inWindow
  simp [atOffset, Nat.not_le.mpr this.1, this.2]

/-- What a register write leaves alone: everything but the register, STATUS and, for CMD, the start of a command. -/
theorem writeReg_keeps (s : State) (r : Reg) (v : Word) :
    (writeReg s r v).params = s.params ∧ (writeReg s r v).mem = s.mem ∧ (writeReg s r v).host = s.host ∧
      (writeReg s r v).replies = s.replies ∧ SameOutcome s (writeReg s r v) := by
  unfold writeReg
  split
  · exact ⟨rfl, rfl, rfl, rfl, rfl, rfl, rfl, rfl, rfl, rfl⟩
  · cases r <;> exact ⟨rfl, rfl, rfl, rfl, rfl, rfl, rfl, rfl, rfl, rfl⟩

/-- While a command runs, a register write changes CTRL and STATUS at most (10_state R44). -/
theorem writeReg_busy {s : State} (h : s.seq = .busy) (r : Reg) (v : Word) :
    writeReg s r v = { s with irqEn := (writeReg s r v).irqEn, done := (writeReg s r v).done,
                              ovr := (writeReg s r v).ovr } := by
  unfold writeReg
  split
  · rfl
  · cases r <;> first | rfl | simp_all [locked, State.busyBit]

/-- A write at an offset is a register's, or has no effect (10_state R42). -/
theorem writeOffset_cases (s : State) (off : Nat) (v : Word) :
    writeOffset s off v = s ∨ ∃ r, writeOffset s off v = writeReg s r v := by
  unfold writeOffset
  split
  · exact .inr ⟨_, rfl⟩
  · exact .inl rfl

theorem hostRegRead_next {s t : State} {off : Nat} (h : hostRegRead s off = .next t) : ∃ r, t = s.reply r := by
  unfold hostRegRead atOffset at h
  split at h
  · simp at h
  split at h
  · simp at h
  exact ⟨_, (Host.Outcome.next.inj h).symm⟩

theorem hostRegWrite_next {s t : State} {off : Nat} {v : Word} (h : hostRegWrite s off v = .next t) :
    t = s ∨ ∃ r, t = writeReg s r v := by
  unfold hostRegWrite atOffset at h
  split at h
  · simp at h
  split at h
  · simp at h
  rw [← Host.Outcome.next.inj h]
  exact writeOffset_cases s off v

/-- Everything the host's turn can do. It leaves the state as it is only when the host has nothing to do but wait;
else the host's next move is made over the state `u` it is made in. -/
theorem hostTurn_cases {s t : State} (h : hostTurn s = .next t) :
    (t = s ∧ hostIdles s = true) ∨
    ∃ m rest, s.host = m :: rest ∧
      let u := { s with host := rest, delay := s.delay - 1 }
      (∃ r, t = u.reply r) ∨ t = u ∨ (∃ r v, t = writeReg u r v) ∨
        (∃ (a : Nat) (b : Byte), a < 2 ^ 32 ∧ mayWrite u a = true ∧ t = { u with mem := u.mem.write a b }) ∨
        (m = .reset ∧ t = resetInput u) := by
  unfold hostTurn at h
  split at h
  · rename_i hh
    exact .inl ⟨(Host.Outcome.next.inj h).symm, by simp [hostIdles, hh]⟩
  · rename_i rest hh
    unfold hostWait at h
    split at h
    · exact .inr ⟨_, _, hh, .inl ⟨_, (Host.Outcome.next.inj h).symm⟩⟩
    · rename_i hd
      exact .inl ⟨(Host.Outcome.next.inj h).symm, by simp [hostIdles, hh, hd]⟩
  · rename_i m rest hne hh
    refine .inr ⟨m, rest, hh, ?_⟩
    cases m with
    | regRead off => exact .inl (hostRegRead_next h)
    | busRead a => exact .inl (hostRegRead_next (atBusAddress_next h))
    | regWrite off v =>
      rcases hostRegWrite_next h with h | ⟨r, h⟩
      · exact .inr (.inl h)
      · exact .inr (.inr (.inl ⟨r, v, h⟩))
    | busWrite a v =>
      rcases hostRegWrite_next (atBusAddress_next (go := fun off => hostRegWrite _ off v) h) with h | ⟨r, h⟩
      · exact .inr (.inl h)
      · exact .inr (.inr (.inl ⟨r, v, h⟩))
    | memRead a =>
      obtain ⟨_, h⟩ := atMemAddress_next h
      split at h
      · exact .inl ⟨_, (Host.Outcome.next.inj h).symm⟩
      · simp at h
    | memWrite a b =>
      obtain ⟨lt, h⟩ := atMemAddress_next h
      split at h
      · rename_i hm
        exact .inr (.inr (.inr (.inl ⟨a, b, lt, hm, (Host.Outcome.next.inj h).symm⟩)))
      · simp at h
    | wait => exact absurd rfl hne
    | reset => exact .inr (.inr (.inr (.inr ⟨rfl, (Host.Outcome.next.inj h).symm⟩)))

/-- The free bytes of a reset keep memory canonical (70_reset_and_hazards R232). -/
theorem scramble_wf (d : Nat) {m : Memory} (h : m.wf = true) (a n : Nat) : (scramble d m a n).wf = true := by
  induction n generalizing m a with
  | zero => exact h
  | succ n ih =>
    unfold scramble
    split
    · exact ih (Memory.write_wf h _ ‹_›) _
    · exact h

theorem scrambleAll_wf (d : Nat) {m : Memory} (h : m.wf = true) (rs : List Region) :
    (scrambleAll d m rs).wf = true := by
  induction rs generalizing m with
  | nil => exact h
  | cons r rs ih => exact ih (scramble_wf d h r.1 r.2)

/-- The free bytes of a reset stay in their region. -/
theorem read_scramble_other (d : Nat) (m : Memory) {a n x : Nat} (out : x < a ∨ a + n ≤ x) :
    (scramble d m a n).read x = m.read x := by
  induction n generalizing m a with
  | zero => rfl
  | succ n ih =>
    unfold scramble
    split
    · rw [ih _ (by omega), Memory.read_write_other _ _ (by omega)]
    · rfl

/-- Every byte of the region that exists is free after a reset. -/
theorem read_scramble_inside (d : Nat) {m : Memory} (h : m.wf = true) {a n x : Nat} (ge : a ≤ x) (lt : x < a + n)
    (ex : x < 2 ^ 32) : (scramble d m a n).read x = Config.resetByte d x := by
  induction n generalizing m a with
  | zero => omega
  | succ n ih =>
    unfold scramble
    rw [if_pos (by omega)]
    by_cases hx : x = a
    · subst hx
      rw [read_scramble_other _ _ (by omega), Memory.read_write_same h]
    · exact ih (Memory.write_wf h _ (by omega)) (by omega) (by omega)

end Sys2Proof.Machine
end

