-- ==== Sys2Proof/Laws/PerInstr.lean ====
section
/-! SUPPORT. Per-instruction facts about the syntax and the encoding: every command's word fits its row of the table
(30_encoding R84) and keeps the reserved bits zero (R80). -/

namespace Sys2Proof.Laws.WordFits

/-- The command is well-formed, its word selects a row of the table under the command's own mnemonic, its reserved bits
are zero, and the F bit is set only by FRAME_BUILD's flag (30_encoding R80, R82, R84). -/
def Statement (i : Instr) : Prop :=
  i.wf = true ∧ (∃ r ∈ opcodeTable, r.selects (encode i) = true ∧ r.mnemonic = mnemonicOf i) ∧
    reservedField (encode i) = 0 ∧ (flagField (encode i) = true ↔ i = .frameBuild true)

theorem ser : Statement .ser := by unfold Statement; decide
theorem deser : Statement .deser := by unfold Statement; decide
theorem compress : Statement .compress := by unfold Statement; decide
theorem decompress : Statement .decompress := by unfold Statement; decide
theorem sealBlob : Statement .sealBlob := by unfold Statement; decide
theorem openBlob : Statement .openBlob := by unfold Statement; decide
theorem frameBuild (flag : Bool) : Statement (.frameBuild flag) := by unfold Statement; cases flag <;> decide
theorem frameParse : Statement .frameParse := by unfold Statement; decide
theorem embed : Statement .embed := by unfold Statement; decide
theorem extract : Statement .extract := by unfold Statement; decide
theorem capacity : Statement .capacity := by unfold Statement; decide
theorem encode : Statement .encode := by unfold Statement; decide
theorem decode : Statement .decode := by unfold Statement; decide

end Sys2Proof.Laws.WordFits
end

