-- ==== Sys2Proof/Tests/Slice0.lean ====
section
/-! SUPPORT. Tests. Expected values come from spec/95_test_vectors and from the encoding table of 30_encoding R84; the
theorems named `witness_…` show a concrete state that meets the hypotheses of an obligation. -/

namespace Sys2Proof.Tests.Slice0

open Sys2Proof.Machine

/-! ### Helpers -/

/-- A chip: MEM_SIZE 0x2000, REG_BASE 0x40000000, both stages, NONCE_BYTES 12, TAG_BYTES 16. -/
def chip : Params := ⟨0x1FFF, 0x40000000, true, true, 11, 16⟩

/-- The same chip without its stages. -/
def bareChip : Params := { chip with hasComp := false, hasCipher := false }

def base : State := { State.reset with params := chip }

/-- A field of a next state. -/
def get {α : Type} (o : Host.Outcome State Fault Refusal) (d : α) (f : State → α) : α :=
  match o with
  | .next t => f t
  | .fault _ => d
  | .refused _ => d

/-- The refusal of a step, if it refuses. -/
def refusal (o : Host.Outcome State Fault Refusal) : Option Refusal :=
  match o with
  | .next _ => none
  | .fault _ => none
  | .refused r => some r

/-- Error code and report. -/
def report (t : State) : Byte × Word × Word := (t.errCode, t.errReq, t.errAvail)

/-- Results. -/
def results (t : State) : Word × Word × Bool := (t.resLen, t.resAux, t.resFlag)

/-- A state with bytes at 0x200 as the source and a destination at 0x300. -/
def linear (bytes : Bytes) (dstMax : Word) : State :=
  { base with mem := Memory.writeBytes [] 0x200 bytes, srcAddr := 0x200, srcLen := BitVec.ofNat 32 bytes.length,
              dstAddr := 0x300, dstMax := dstMax }

/-- A state with a grid at 0x1000, a source at 0x200 and destinations at 0x300 and 0x1100. -/
def gridded (w h : BitVec 16) (grid bytes : Bytes) (dstMax : Word) : State :=
  { linear bytes dstMax with
    mem := Memory.writeBytes (Memory.writeBytes [] 0x200 bytes) 0x1000 grid
    gsrcAddr := 0x1000, gdstAddr := 0x1100, width := w, height := h }

/-- The 1 by 2 grid of 95_test_vectors L2.3. -/
def grid12 : Bytes := [0x10, 0x20, 0x30, 0x40, 0x11, 0x21, 0x31, 0x41]

/-- Grid G7 of 95_test_vectors L2.6. -/
def g7 : Bytes := (List.range 49).flatMap fun i => [BitVec.ofNat 8 i, 0x40, 0x80, 0xFF]

/-- The bits of "Hi" as elements (95_test_vectors L2.1). -/
def hiBits : Bytes := [0, 1, 0, 0, 1, 0, 0, 0, 0, 1, 1, 0, 1, 0, 0, 1]

/-- `frame(0, 48 69)` as elements (95_test_vectors L2.2). -/
def hiFrame : Bytes := List.replicate 31 0 ++ [1, 0] ++ hiBits

/-- `frame(1, 41)` as elements (95_test_vectors L2.2). -/
def aFrame : Bytes := [1] ++ List.replicate 31 0 ++ [1] ++ [0, 1, 0, 0, 0, 0, 0, 1]

/-- Stage units whose stages leave their input as it is. -/
def plainStages : Stages := ⟨id, some, fun _ _ m => m, fun _ _ c => some c⟩

/-- Stage units that reject every input they should undo. -/
def rejectingStages : Stages := ⟨id, fun _ => none, fun _ _ m => m, fun _ _ _ => none⟩

/-- A cipher that carries its key in the clear before the plaintext, and checks it: a toy that meets every cipher
property of 42_payload_pipeline R130 with TAG_BYTES 32, for 32-byte keys. -/
def keyedStages : Stages :=
  ⟨id, some, fun k _ m => k ++ m, fun k _ c => if c.take 32 = k then some (c.drop 32) else none⟩

/-- Steps from a state, for host scripts. -/
def runSteps (n : Nat) (s : State) : Host.Outcome State Fault Refusal := Host.Core.run core n s

/-- What the host got from its register reads, oldest first. -/
def readings (t : State) : List Word :=
  t.replies.reverse.filterMap fun r =>
    match r with
    | .reg _ v => some v
    | .byte _ _ => none

/-! ### Decoding: words written out bit by bit from 30_encoding R80, R83, R84 -/

theorem test_decode_ser : decode 0b00000000000000000000000000000001#32 = .ok .ser := by decide
theorem test_decode_deser : decode 0b00000000000000000000000000000010#32 = .ok .deser := by decide
theorem test_decode_compress : decode 0b00000000000000000000000000010000#32 = .ok .compress := by decide
theorem test_decode_decompress : decode 0b00000000000000000000000000010001#32 = .ok .decompress := by decide
theorem test_decode_seal : decode 0b00000000000000000000000000010010#32 = .ok .sealBlob := by decide
theorem test_decode_open : decode 0b00000000000000000000000000010011#32 = .ok .openBlob := by decide
theorem test_decode_frame_build_0 : decode 0b00000000000000000000000000100000#32 = .ok (.frameBuild false) := by decide
theorem test_decode_frame_build_1 : decode 0b00000000000000000000000100100000#32 = .ok (.frameBuild true) := by decide
theorem test_decode_frame_parse : decode 0b00000000000000000000000000100001#32 = .ok .frameParse := by decide
theorem test_decode_embed : decode 0b00000000000000000000000000100010#32 = .ok .embed := by decide
theorem test_decode_extract : decode 0b00000000000000000000000000100011#32 = .ok .extract := by decide
theorem test_decode_capacity : decode 0b00000000000000000000000000100100#32 = .ok .capacity := by decide
theorem test_decode_encode : decode 0b00000000000000000000000000100101#32 = .ok .encode := by decide
theorem test_decode_decode : decode 0b00000000000000000000000000100110#32 = .ok .decode := by decide

/-- The illegal words of 95_test_vectors L2.7, each rejected by name. -/
theorem test_decode_illegal :
    decode 0x00000000 = .error .unassignedOp ∧ decode 0x00000003 = .error .unassignedOp ∧
      decode 0x00000101 = .error .strayFlag ∧ decode 0x00000220 = .error .reservedBits ∧
      decode 0x80000024 = .error .reservedBits := by decide

theorem test_encode_frame_build : encode (.frameBuild true) = 0x00000120 ∧ encode (.frameBuild false) = 0x00000020 := by
  decide

theorem test_table_word : decodeTableWord 32 0x24 = some .capacity ∧ decodeTableWord 32 0x124 = none := by decide

/-! ### Well-formedness: every command is well-formed; a register access outside R43's form is not -/

theorem test_wf_commands : Instr.wf .openBlob = true ∧ Instr.wf (.frameBuild true) = true := by decide
theorem test_wf_offset_aligned : offsetWf 0x54 = true ∧ offsetWf 0xFC = true := by decide
theorem test_illformed_offset_misaligned : offsetWf 0x15 = false := by decide
theorem test_illformed_offset_outside : offsetWf 0x100 = false := by decide

/-! ### Commands, one step each (95_test_vectors L2) -/

theorem test_ser_a5 :
    get (exec .ser (linear [0xA5] 8)) ([], 0) (fun t => (t.mem.readBytes 0x300 8, t.resLen)) =
      ([1, 0, 1, 0, 0, 1, 0, 1], 8) := by decide +kernel

theorem test_ser_overflow : get (exec .ser (linear [0xA5] 7)) (0, 0, 0) report = (0x14, 8, 7) := by decide +kernel

theorem test_deser_bit_0_only :
    get (exec .deser (linear [0x02, 0xFF, 0, 0, 1, 0, 0, 0] 1)) ([], 0) (fun t => (t.mem.readBytes 0x300 1, t.resLen)) =
      ([0x48], 1) := by decide +kernel

theorem test_deser_malformed_before_overflow :
    get (exec .deser (linear (hiBits.take 15) 0)) (0, 0, 0) report = (0x05, 15, 7) := by decide +kernel

theorem test_compress_absent :
    get (exec .compress { linear [1] 8 with params := bareChip }) (0, 0, 0) report = (0x11, 0, 0) := by decide +kernel

theorem test_compress_writes_stage_output :
    get (compressWith plainStages (linear [0x48, 0x69] 8)) ([], 0) (fun t => (t.mem.readBytes 0x300 3, t.resLen)) =
      ([0x48, 0x69, 0x00], 2) := by decide +kernel

theorem test_decompress_corrupt :
    get (decompressWith rejectingStages (linear [1] 8)) (0, 0, 0) report = (0x06, 0, 0) := by decide +kernel

theorem test_decompress_overflow :
    get (decompressWith plainStages (linear [1, 2] 1)) (0, 0, 0) report = (0x14, 2, 1) := by decide +kernel

theorem test_seal_key_length :
    get (exec .sealBlob { linear [1] 64 with keyLen := 16 }) (0, 0, 0) report = (0x01, 32, 16) := by decide +kernel

theorem test_seal_length :
    get (sealWith plainStages { linear [1, 2] 64 with keyLen := 32 }) 0 State.resLen = 14 := by decide +kernel

theorem test_open_too_short :
    get (exec .openBlob { linear [1, 2] 64 with keyLen := 32 }) (0, 0, 0) report = (0x08, 12, 2) := by decide +kernel

theorem test_open_key_before_range :
    get (exec .openBlob { base with keyLen := 33, srcAddr := 0xFFFFFFF8, srcLen := 16 }) (0, 0, 0) report =
      (0x01, 32, 33) := by decide +kernel

theorem test_frame_build_hi :
    get (exec (.frameBuild false) (linear [0x48, 0x69] 49)) ([], 0, 0, true)
      (fun t => (t.mem.readBytes 0x300 49, results t)) = (hiFrame, 49, 2, false) := by decide +kernel

theorem test_frame_build_flag :
    get (exec (.frameBuild true) (linear [0x41] 64)) ([], 0, 0, false)
      (fun t => (t.mem.readBytes 0x300 41, results t)) = (aFrame, 41, 1, true) := by decide +kernel

theorem test_frame_parse_trailing :
    get (exec .frameParse (linear (hiFrame ++ List.replicate 7 1) 2)) ([], 0, 0, true)
      (fun t => (t.mem.readBytes 0x300 3, results t)) = ([0x48, 0x69, 0], 2, 49, false) := by decide +kernel

theorem test_frame_parse_truncated :
    get (exec .frameParse (linear (hiFrame.take 48) 8)) (0, 0, 0) report = (0x04, 2, 1) := by decide +kernel

theorem test_embed_bits :
    get (exec .embed (gridded 1 2 grid12 [1, 0] 0)) ([], 0) (fun t => (t.mem.readBytes 0x1100 8, t.resLen)) =
      ([0x11, 0x20, 0x30, 0x40, 0x10, 0x21, 0x31, 0x41], 2) := by decide +kernel

theorem test_embed_too_large :
    get (exec .embed (gridded 1 2 grid12 [1, 0, 1] 0)) (0, 0, 0) report = (0x02, 3, 2) := by decide +kernel

theorem test_extract_red_bit_0 :
    get (exec .extract (gridded 2 2 [1, 0, 0, 0, 0xFE, 1, 1, 1, 3, 0xFF, 0xFF, 0xFF, 0x80, 0, 0, 0] [] 4)) ([], 0)
      (fun t => (t.mem.readBytes 0x300 4, t.resLen)) = ([1, 0, 1, 0], 4) := by decide +kernel

theorem test_extract_overflow :
    get (exec .extract (gridded 1 2 grid12 [] 1)) (0, 0, 0) report = (0x14, 2, 1) := by decide +kernel

theorem test_capacity_negative :
    get (exec .capacity { base with width := 1, height := 1 }) 0 State.resAux = 0xFFFFFFFC := by decide +kernel

theorem test_capacity_largest :
    get (exec .capacity { base with width := 65535, height := 65535 }) 0 State.resAux = 0x1FFFBFFC := by decide +kernel

/-- The red bytes of 95_test_vectors P2, from pixel 29 on. -/
theorem test_encode_hi :
    get (exec .encode (gridded 7 7 g7 [0x48, 0x69] 0)) ([], 0, 0, true)
      (fun t => ((List.range 20).map (fun i => t.mem.read (0x1100 + 4 * (29 + i))), results t)) =
      ([0x1C, 0x1E, 0x1F, 0x20, 0x20, 0x23, 0x22, 0x24, 0x25, 0x26, 0x26, 0x28, 0x28, 0x2B, 0x2B, 0x2C, 0x2D, 0x2E,
        0x2E, 0x31], 49, 2, false) := by decide +kernel

theorem test_encode_too_large :
    get (exec .encode (gridded 8 6 [] [0x48, 0x69] 0)) (0, 0, 0) report = (0x02, 2, 1) := by decide +kernel

theorem test_decode_all_ones :
    get (exec .decode (gridded 7 7 (List.replicate 196 0xFF) [] 16)) (0, 0, 0) report = (0x04, 0xFFFFFFFF, 2) := by
  decide +kernel

/-- A grid whose red bytes are the elements of `frame(1, 41)`, on a chip without decompression. -/
theorem test_decode_stage_absent_in_body :
    get (exec .decode { gridded 41 1 (aFrame.flatMap fun b => [b, 0, 0, 0]) [] 16 with params := bareChip }) (0, 0, 0)
      report = (0x11, 0, 0) := by decide +kernel

/-! ### The common checks (95_test_vectors L2.7) -/

theorem test_overlap :
    get (exec .ser { linear [0x48, 0x69] 16 with dstAddr := 0x201 }) (0, 0, 0) report = (0x13, 0, 0) := by decide +kernel

theorem test_range_before_overlap :
    get (exec .ser { linear [0x48, 0x69] 16 with srcAddr := 0xFFFFFFF8, dstAddr := 0xFFFFFFF8 }) (0, 0, 0) report =
      (0x12, 0, 0) := by decide +kernel

theorem test_empty_regions_are_admitted :
    get (exec .ser { base with srcAddr := 0xFFFFFFFF, dstAddr := 0xFFFFFFFF }) 1 State.errCode = 0 := by decide +kernel

theorem test_encode_in_place :
    get (exec .encode { gridded 7 7 g7 [0x48, 0x69] 0 with gdstAddr := 0x1000 }) 1 State.errCode = 0 ∧
      get (exec .encode { gridded 7 7 g7 [0x48, 0x69] 0 with gdstAddr := 0x1004 }) 1 State.errCode = 0x13 := by
  decide +kernel

/-! ### The machine (95_test_vectors P1, P5) -/

/-- P1, then a read of ID at its platform address. -/
def capacityScript : List HostMove :=
  scriptWr .width 100 ++ scriptWr .height 100 ++ scriptRun .capacity ++ scriptRd .resAux ++ scriptRd .errCode ++
    [.busRead 0x40000000]

/-- P1: the capacity query, and ID through its platform address. -/
theorem test_script_capacity :
    get (runSteps 8 { base with host := capacityScript }) [] readings = [0x00000002, 0x000004DD, 0, 0x53544731] := by
  decide +kernel

/-- P5, lines 1 to 6. -/
def illegalScript : List HostMove :=
  scriptWr .ctrl 1 ++ scriptWr .cmd 3 ++ scriptWait ++ scriptRd .errCode ++ scriptWr .status 2 ++ scriptRd .status

/-- P5, lines 1 to 6: an illegal word completes, raises IRQ, and a W1C of DONE leaves ERR. -/
theorem test_script_illegal :
    get (runSteps 4 { base with host := illegalScript }) false State.irq = true ∧
      get (runSteps 7 { base with host := illegalScript }) [] readings = [6, 0x10, 4] := by decide +kernel

/-- P5, line 15: a write to a locked register while busy is lost and sets OVR. -/
theorem test_lost_write :
    (writeReg { base with seq := .busy, srcLen := 2 } .srcLen 1).srcLen = 2 ∧
      (writeReg { base with seq := .busy, srcLen := 2 } .srcLen 1).ovr = true := by decide +kernel

/-- 10_state R43: accesses that the block does not have. -/
theorem test_refused_accesses :
    refusal (step { base with host := [.regRead 0x15] }) = some .misalignedRegisterAccess ∧
      refusal (step { base with host := [.regWrite 0x100 0] }) = some .outsideRegisterWindow ∧
      refusal (step { base with host := [.busRead 0x3FFFFFFC] }) = some .outsideRegisterWindow ∧
      refusal (step { base with host := [.busWrite 0x40000100 0] }) = some .outsideRegisterWindow ∧
      refusal (step { base with host := [.busRead 0x4000000E] }) = some .misalignedRegisterAccess := by decide +kernel

/-- 30_encoding R88 with a list that runs past 2^32 − 1: nothing wraps (00_scope R7; log 23). -/
theorem test_script_mem_past_the_end :
    let s := { base with host := scriptMem 0xFFFFFFFF [1, 2] }
    get (runSteps 1 s) [] State.mem = [(0xFFFFFFFF, 1)] ∧ refusal (runSteps 2 s) = some .outsideDataMemory := by
  decide +kernel

/-- 10_state R38: key byte 5 is bits 15:8 of KEY1. -/
theorem test_key_bytes :
    get (runSteps 8 { base with host := scriptKey ((List.range 32).map (BitVec.ofNat 8)) }) (([] : Bytes), (0 : Word))
      (fun t => (t.keyBytes, t.key[1])) = ((List.range 32).map (BitVec.ofNat 8), 0x07060504) := by decide +kernel

/-- A reset ends a command without completing it (70_reset_and_hazards R231, R232). -/
theorem test_reset_while_busy :
    get (step { linear [0x48] 0 with seq := .busy, cmd := 1, delay := 1, host := [.reset] }) (.busy, true, 1)
      (fun t => (t.seq, t.done, t.srcLen)) = (.idle, false, 0) := by decide +kernel

/-- The first instruction after reset is the one at hand. -/
theorem test_first_command : get (step (State.reset.withFetchWord 32 0x24)) (0, 1) (fun t => (t.resAux, t.errCode)) =
    (0xFFFFFFFB, 0) := by decide +kernel

/-! ### Witnesses: states that meet the hypotheses of each obligation -/

theorem passes {i : Instr} {s : State} (h : precheck i s = none) : ChecksPass i s := (precheck_eq_none_iff i s).mp h

/-- A running SER with a move of the host at hand. -/
def running (m : HostMove) : State :=
  { linear [0x48, 0x69] 16 with seq := .busy, cmd := 1, delay := 1, host := [m, .wait] }

/-- The same with an illegal word running. -/
def runningIllegal (m : HostMove) : State := { running m with cmd := 0x00000220 }

theorem runningIllegal_illegal (m : HostMove) : ∀ i, decode (runningIllegal m).cmd ≠ .ok i := by
  intro i h
  rw [show decode (runningIllegal m).cmd = .error .reservedBits from (by decide : decode 0x00000220 = _)] at h
  cases h

/-- An idle machine with a move of the host at hand. -/
def idling (m : HostMove) : State := { linear [0x48, 0x69] 16 with host := [m, .wait] }

/-- A machine with an earlier error left in its registers. -/
def stale : State := { linear [0x48, 0x69] 16 with errCode := 0x05, errReq := 15, errAvail := 7, ovr := true, cmd := 2 }

theorem witness_IllegalWordsCompleteWithIllegalCommand :
    base.seq = .idle ∧ (∀ i, decode 0x00000101 ≠ .ok i) ∧ engineMoves (base.commandAtHand 0x00000220) = true ∧
      ∀ i, decode (base.commandAtHand 0x00000220).cmd ≠ .ok i := by
  refine ⟨rfl, fun i h => ?_, by decide, fun i h => ?_⟩
  · rw [show decode 0x00000101 = .error .strayFlag by decide] at h
    cases h
  · rw [show decode (base.commandAtHand 0x00000220).cmd = .error .reservedBits by decide] at h
    cases h

theorem witness_StepRunsTheDecodedCommand :
    (engineMoves (base.commandAtHand 0x24) = true ∧ decode (base.commandAtHand 0x24).cmd = .ok .capacity) ∧
      engineMoves (running (.regRead 0x10)) = false ∧ base.seq = .idle ∧
      ({ base with seq := .busy, delay := 3 }.host = []) ∧
      (runningIllegal .wait).host = .wait :: [.wait] ∧ (runningIllegal .wait).done = false ∧ (base.commandAtHand 0x24).delay = 0 ∧
      decode (BitVec.ofNat 32 0x120) = .ok (.frameBuild true) := by decide

theorem witness_StartSetsBusyAndNothingElse :
    (idling (.regWrite 0x14 1)).host = .regWrite 0x14 1 :: [.wait] ∧ (idling (.regWrite 0x14 1)).seq = .idle ∧
      (running (.regWrite 0x14 1)).host = .regWrite 0x14 1 :: [.wait] ∧ (running (.regWrite 0x14 1)).seq = .busy ∧
      engineMoves (running (.regWrite 0x14 1)) = false := by decide

theorem witness_ReportStaysConsistent : ReportConsistent stale ∧ ∃ t, step { stale with seq := .busy } = .next t :=
  ⟨⟨by decide, by decide, by decide⟩, _, rfl⟩

theorem witness_BusyNeverShowsDone :
    BusyNotDone (running (.regRead 0x10)) ∧ (running (.regRead 0x10)).seq = .busy ∧
      ∃ t, step (running (.regRead 0x10)) = .next t :=
  ⟨fun _ => rfl, rfl, _, rfl⟩

theorem witness_MemoryStaysCanonical :
    (idling (.memWrite 0x300 7)).mem.wf = true ∧ ∃ t, step (idling (.memWrite 0x300 7)) = .next t :=
  ⟨by decide, _, rfl⟩

theorem witness_IdleBlockDoesNothing :
    base.seq = .idle ∧ base.host = [] ∧ (idling .wait).seq = .idle ∧ (idling .wait).host = .wait :: [.wait] ∧
      (idling .wait).done = false := by decide

/-- A command that completes, one that a reset ends, and one whose run stops at a move the host does not have. -/
theorem witness_BusyCommandsComplete :
    (running (.regRead 0x10)).seq = .busy ∧ get (runSteps 2 (running (.regRead 0x10))) .busy State.seq = .idle ∧
      get (runSteps 1 (running .reset)) .busy State.seq = .idle ∧ engineMoves (running (.memRead 0x300)) = false ∧
      refusal (step (running (.memRead 0x300))) = some .runningRegionAccess := by decide +kernel

theorem witness_ParametersNeverChange :
    (∃ t, step (running .reset) = .next t) ∧ ∃ t, step (base.commandAtHand 0x24) = .next t :=
  ⟨⟨_, rfl⟩, _, rfl⟩

theorem witness_OnlyCompletionChangesResults :
    engineMoves (running (.regWrite 0x28 1)) = false ∧ (running (.regWrite 0x28 1)).seq = .busy ∧
      (∀ rest, (running (.regWrite 0x28 1)).host ≠ .reset :: rest) ∧
      ∃ t, step (running (.regWrite 0x28 1)) = .next t :=
  ⟨by decide, by decide, by intro rest; simp [running], _, rfl⟩

theorem witness_CommandsWriteOnlyTheirRegions :
    get (exec .ser (linear [0xA5] 7)) 0 State.errCode ≠ 0 ∧
      (∀ r ∈ writtenRegions .ser (linear [0xA5] 7), 0x307 < r.1 ∨ r.1 + r.2 ≤ 0x307) ∧
      ∀ r ∈ writtenRegions .ser (linear [0xA5] 7), 0x2FF < r.1 ∨ r.1 + r.2 ≤ 0x2FF := by decide +kernel

theorem witness_LinearCommandsWriteResLenBytes : Instr.ser ≠ .embed ∧ Instr.ser ≠ .encode := by decide

theorem witness_GridCommandsChangeOnlyRedLsbs :
    (gridded 7 7 g7 [0x48, 0x69] 0).mem.wf = true ∧
      get (exec .encode (gridded 7 7 g7 [0x48, 0x69] 0)) 1 State.errCode = 0 ∧
      get (exec .embed (gridded 1 2 grid12 [1] 0)) (1, 0) (fun t => (t.errCode, t.resLen)) = (0, 1) := by
  decide +kernel

theorem witness_NothingOfACommandSurvives :
    SameOperands (linear [0x48, 0x69] 16) stale ∧ stale.params = (linear [0x48, 0x69] 16).params ∧
      stale.mem = (linear [0x48, 0x69] 16).mem ∧
      ¬(Instr.ser = .sealBlob ∨ (Instr.ser = .encode ∧ (linear [0x48, 0x69] 16).enc = true)) ∧
      stale.draws = (linear [0x48, 0x69] 16).draws :=
  ⟨⟨rfl, rfl, rfl, rfl, rfl, rfl, rfl, rfl, rfl, rfl, rfl, rfl⟩, rfl, rfl, by simp, rfl⟩

/-- CAPACITY reads WIDTH and HEIGHT only. -/
theorem witness_CommandsReadOnlyTheirOperands_capacity :
    AgreeOnOperands .capacity base { stale with keyLen := 9 } :=
  ⟨rfl, fun _ => rfl, by intro r hr; simp [readRegions] at hr, rfl, rfl⟩

/-- ENCODE with ENC = 0 does not use the draw. -/
theorem encode_agrees_with_another_draw {s : State} (h : s.enc = false) (d : Nat) :
    AgreeOnOperands .encode s { s with draws := d } :=
  ⟨rfl, by simp [UsesDraw, h], fun _ _ _ _ => rfl, rfl, rfl, rfl, rfl, rfl, rfl, rfl, rfl, rfl, rfl⟩

/-- An ENCODE of "Hi" into the grid G7. -/
def hiIntoG7 : State := gridded 7 7 g7 [0x48, 0x69] 0

/-- ENCODE that succeeds, over canonical memory: with ENC = 0 under two draws; with ENC = 1 it uses the draw. -/
theorem witness_CommandsReadOnlyTheirOperands_encode :
    AgreeOnOperands .encode hiIntoG7 { hiIntoG7 with draws := 5 } ∧ UsesDraw .encode { hiIntoG7 with enc := true } ∧
      hiIntoG7.mem.wf = true ∧ get (exec .encode hiIntoG7) 1 State.errCode = 0 :=
  ⟨encode_agrees_with_another_draw rfl 5, .inr ⟨rfl, rfl⟩, by decide +kernel, by decide +kernel⟩

/-- SER reads its source; a byte elsewhere, the grid, POLICY, the key and the draw may differ. -/
theorem witness_CommandsReadOnlyTheirOperands_ser :
    AgreeOnOperands .ser (linear [0x48, 0x69] 16)
      { linear [0x48, 0x69] 16 with
        mem := Memory.writeBytes [] 0x200 [0x48, 0x69, 1], width := 7, comp := true, draws := 9 } := by
  refine ⟨rfl, by simp [UsesDraw], ?_, rfl, rfl, rfl, rfl⟩
  intro r hr x hx
  simp only [readRegions, List.mem_singleton] at hr
  subst hr
  have lo : 0x200 ≤ x ∧ x < 0x202 := by
    simpa [Region.covers, State.srcRegion, linear] using hx
  obtain rfl | rfl : x = 0x200 ∨ x = 0x201 := by omega
  · decide +kernel
  · decide +kernel

theorem witness_MissingStageIsReported :
    ({ base with params := bareChip }.params.hasComp = false ∧
      { base with params := bareChip, comp := true }.comp = true) ∧
    ({ base with params := bareChip }.params.hasCipher = false ∧
      { base with params := bareChip, enc := true }.enc = true) := by decide

theorem witness_WrongKeyLengthIsReported :
    ({ base with keyLen := 33 }.keyLen ≠ 32 ∧ stageMissing .sealBlob { base with keyLen := 33 } = false) ∧
      ({ base with enc := true }.enc = true ∧ stageMissing .decode { base with enc := true } = false) ∧
      ({ base with keyLen := 32 }.keyLen = 32) := by decide

/-- One byte past MEM_SIZE, and the last byte of it. -/
theorem witness_RegionsOutsideTheWindowAreReported :
    (∃ r ∈ readRegions .ser { linear [1] 8 with srcAddr := 0x2000 },
      r.2 ≠ 0 ∧ { linear [1] 8 with srcAddr := 0x2000 }.params.memSize < r.1 + r.2) ∧
      stageMissing .ser { linear [1] 8 with srcAddr := 0x2000 } = false ∧
      keyLengthWrong .ser { linear [1] 8 with srcAddr := 0x2000 } = false ∧
      outOfRange .ser { linear [1] 8 with srcAddr := 0x1FFF } = false := by decide

/-- The last byte of the source is the first of the destination; one byte further on they share none; in place. -/
theorem witness_OverlappingRegionsAreReported :
    let near := fun d : Word => { linear [1, 2] 16 with dstAddr := d }
    (overlaps (near 0x201).dstRegion (near 0x201).srcRegion = true ∧ stageMissing .ser (near 0x201) = false ∧
      keyLengthWrong .ser (near 0x201) = false ∧ outOfRange .ser (near 0x201) = false) ∧
      overlapping .ser (near 0x202) = false ∧
      overlapping .embed { gridded 1 2 grid12 [1] 0 with gdstAddr := 0x1000 } = false := by decide +kernel

theorem witness_HostAccessesReachTheRegister :
    engineMoves (idling (.busWrite 0x4000007C 5)) = false ∧
      (idling (.busWrite 0x4000007C 5)).host =
        .busWrite ((idling (.busWrite 0x4000007C 5)).params.regBase + Reg.offset (.key 7)) 5 :: [.wait] ∧
      engineMoves (running (.regRead 0x00)) = false ∧
      (running (.regRead 0x00)).host = .regRead (Reg.offset .id) :: [.wait] ∧
      (running (.busRead 0x400000FC)).host = .busRead ((running .wait).params.regBase + 0xFC) :: [.wait] ∧
      engineMoves (running (.busRead 0x400000FC)) = false ∧
      engineMoves { idling .wait with done := true } = false ∧ (idling .wait).host = .wait :: [.wait] := by decide

theorem witness_WritableRegistersReadBack : base.seq = .idle := rfl

theorem witness_StatusAndControlBits :
    base.seq = .idle ∧ locked .cmd = true ∧ locked (.key 7) = true ∧ (running .wait).seq = .busy := by decide

theorem witness_LockedWritesWhileBusyAreLost :
    (Reg.policy ∈ [Reg.cmd, .srcAddr, .srcLen, .dstAddr, .dstMax, .gsrcAddr, .gdstAddr, .width, .height, .policy]) ∧
      (running .wait).seq = .busy ∧ base.seq = .idle ∧
      Reg.ctrl ∉ [Reg.cmd, .srcAddr, .srcLen, .dstAddr, .dstMax, .gsrcAddr, .gdstAddr, .width, .height, .policy] ∧
      ∀ k, Reg.ctrl ≠ .key k := by decide

/-- The first and last reserved offsets of each range, idle and busy. -/
theorem witness_ReservedOffsetsAndBitsAreZero :
    (∀ off ∈ [0x54, 0x5C, 0x80, 0xFC], off % 4 = 0 ∧ ((0x54 ≤ off ∧ off ≤ 0x5C) ∨ (0x80 ≤ off ∧ off ≤ 0xFC)) ∧
      engineMoves (idling (.regRead off)) = false ∧ engineMoves (running (.regWrite off 7)) = false) ∧
      (idling (.regRead 0x54)).host = .regRead 0x54 :: [.wait] := by
  decide

theorem witness_OtherRegisterAccessesAreRefused :
    engineMoves (idling (.regRead 256)) = false ∧ (idling (.regRead 256)).host = .regRead 256 :: [.wait] ∧
      engineMoves (running (.regWrite 255 0)) = false ∧
      (running (.regWrite 255 0)).host = .regWrite 255 0 :: [.wait] ∧
      engineMoves (idling (.busRead 0x3FFFFFFF)) = false ∧
      (idling (.busRead 0x3FFFFFFF)).host = .busRead (chip.regBase - 1) :: [.wait] ∧
      engineMoves (running (.busWrite 0x40000100 0)) = false ∧
      (running (.busWrite 0x40000100 0)).host = .busWrite (chip.regBase + 256) 0 :: [.wait] ∧
      (idling (.busWrite 0x40000001 0)).host = .busWrite (chip.regBase + 1) 0 :: [.wait] := by decide

theorem witness_InterruptOutputIsLevel :
    (2 : Word).getLsbD 1 = true ∧ (2 : Word).getLsbD 0 = false ∧ base.seq = .idle ∧
      { base with done := true, irqEn := true }.irq = true := by decide

theorem witness_KeysAreNeverReadBack :
    engineMoves (idling (.regRead 0x60)) = false ∧ ∃ t, step (idling (.regRead 0x60)) = .next t := ⟨by decide, _, rfl⟩

theorem witness_KeyScriptLoadsTheKey :
    base.seq = .idle ∧ (List.replicate 32 (0x5A : Byte)).length = 32 ∧
      { base with host := scriptKey (List.replicate 32 0x5A) ++ [HostMove.wait] }.host =
        scriptKey (List.replicate 32 0x5A) ++ [.wait] := ⟨rfl, rfl, rfl⟩

theorem witness_IdleHostOwnsMemory :
    (idling (.memWrite 0xFFFFFFFF 7)).seq = .idle ∧
      (idling (.memWrite 0xFFFFFFFF 7)).host = .memWrite 0xFFFFFFFF 7 :: [.wait] ∧
      (idling (.memWrite 0xFFFFFFFF 7)).mem.wf = true ∧ (idling (.memRead 0)).host = .memRead 0 :: [.wait] ∧
      engineMoves (running (.memRead (2 ^ 32))) = false ∧
      (running (.memRead (2 ^ 32))).host = .memRead (2 ^ 32) :: [.wait] ∧
      engineMoves (idling (.memWrite (2 ^ 32) 7)) = false := by decide

/-- The first and last byte of the running command's regions, and the bytes beside them. -/
theorem witness_RunningRegionsAreTheEngines :
    let inside := fun (rs : List Region) (a : Nat) => rs.any fun r => r.covers a
    (running (.memRead 0x300)).seq = .busy ∧ engineMoves (running (.memRead 0x300)) = false ∧
      decode (running (.memRead 0x300)).cmd = .ok .ser ∧
      (running (.memRead 0x300)).host = .memRead 0x300 :: [HostMove.wait] ∧
      inside (writtenRegions .ser (running .wait)) 0x300 = true ∧
      inside (writtenRegions .ser (running .wait)) 0x30F = true ∧
      inside (writtenRegions .ser (running .wait)) 0x310 = false ∧
      (running (.memWrite 0x201 0)).host = .memWrite 0x201 0 :: [HostMove.wait] ∧
      inside (readRegions .ser (running .wait)) 0x201 = true ∧
      inside (readRegions .ser (running .wait)) 0x202 = false ∧
      (runningIllegal (.memWrite 0x300 0)).seq = .busy ∧ engineMoves (runningIllegal (.memWrite 0x300 0)) = false ∧
      decode (runningIllegal (.memWrite 0x300 0)).cmd = .error .reservedBits ∧
      get (step (runningIllegal (.memWrite 0x300 0x5A))) 0 (fun t => t.mem.read 0x300) = 0x5A := by decide +kernel

theorem witness_ResetInputClearsTheRegisters :
    engineMoves (running .reset) = false ∧ (running .reset).host = .reset :: [.wait] ∧
      engineMoves (idling .reset) = false ∧ (idling .reset).host = .reset :: [.wait] ∧
      (idling .reset).seq = .idle := by decide

theorem witness_ResetDuringACommandFreesItsOutput :
    (running .reset).seq = .busy ∧ engineMoves (running .reset) = false ∧ decode (running .reset).cmd = .ok .ser ∧
      (running .reset).host = .reset :: [.wait] ∧ (running .reset).mem.wf = true ∧
      (0x300, 16) ∈ writtenRegions .ser (running .reset) := by decide +kernel

theorem witness_ResetDuringACommandFreesItsOutput_illegal :
    (runningIllegal .reset).seq = .busy ∧ engineMoves (runningIllegal .reset) = false ∧
      (runningIllegal .reset).host = .reset :: [.wait] ∧ (runningIllegal .reset).mem.wf = true ∧
      ∀ i, decode (runningIllegal .reset).cmd ≠ .ok i :=
  ⟨rfl, by decide, rfl, by decide, runningIllegal_illegal .reset⟩

/-- The last byte that fits, and one byte too few. -/
theorem witness_SerWritesOneElementPerBit :
    (linear [0xA5] 8).mem.wf = true ∧ ChecksPass .ser (linear [0xA5] 8) ∧
      8 * (linear [0xA5] 8).srcLen.toNat ≤ (linear [0xA5] 8).dstMax.toNat :=
  ⟨by decide, passes (by decide +kernel), by decide⟩

theorem witness_DeserPacksEightElementsPerByte :
    (linear hiBits 2).mem.wf = true ∧ ChecksPass .deser (linear hiBits 2) ∧ (linear hiBits 2).srcLen.toNat % 8 = 0 ∧
      (linear hiBits 2).srcLen.toNat / 8 ≤ (linear hiBits 2).dstMax.toNat :=
  ⟨by decide +kernel, passes (by decide +kernel), by decide, by decide⟩

theorem witness_DeserRejectsPartialBytes :
    ChecksPass .deser (linear (hiBits.take 15) 0) ∧ (linear (hiBits.take 15) 0).srcLen.toNat % 8 ≠ 0 :=
  ⟨passes (by decide +kernel), by decide⟩

theorem witness_LongOutputsOverflow :
    (ChecksPass .ser (linear [0xA5] 7) ∧ (linear [0xA5] 7).dstMax.toNat < 8 * (linear [0xA5] 7).srcLen.toNat) ∧
      (ChecksPass .deser (linear hiBits 1) ∧ (linear hiBits 1).srcLen.toNat % 8 = 0 ∧
        (linear hiBits 1).dstMax.toNat < (linear hiBits 1).srcLen.toNat / 8) ∧
      (ChecksPass (.frameBuild true) (linear [0x41] 40) ∧
        (linear [0x41] 40).dstMax.toNat < 33 + 8 * (linear [0x41] 40).srcLen.toNat) ∧
      (ChecksPass .extract (gridded 1 2 grid12 [] 1) ∧
        (gridded 1 2 grid12 [] 1).dstMax.toNat <
          (gridded 1 2 grid12 [] 1).width.toNat * (gridded 1 2 grid12 [] 1).height.toNat) :=
  ⟨⟨passes (by decide +kernel), by decide⟩, ⟨passes (by decide +kernel), by decide, by decide⟩,
    ⟨passes (by decide +kernel), by decide⟩, passes (by decide +kernel), by decide⟩

/-- The length that saturates: 0x20000000 bytes, on a chip with the whole window (95_test_vectors L2.1). -/
theorem witness_LongOutputsOverflow_saturates :
    let s := { base with params := { chip with memLast := 0xFFFFFFFF }, srcLen := 0x20000000, dstAddr := 0x20000000,
                         dstMax := 16 }
    ChecksPass .ser s ∧ s.dstMax.toNat < 8 * s.srcLen.toNat ∧ 2 ^ 32 - 1 < 8 * s.srcLen.toNat :=
  ⟨passes (by decide +kernel), by decide, by decide⟩

theorem witness_BitsAndBytesRoundTrip :
    [true, false, true, true, false, false, false, true].length % 8 = 0 ∧ [true].length % 8 ≠ 0 := by decide

/-- What SER leaves for DESER. -/
def afterSer : State := (linear [0x48, 0x69] 16).complete (checkedResult .ser (linear [0x48, 0x69] 16)
  (serBody (linear [0x48, 0x69] 16)))

theorem witness_DeserUndoesSer :
    let u := { afterSer with srcAddr := 0x300, srcLen := 16, dstAddr := 0x400, dstMax := 2 }
    (linear [0x48, 0x69] 16).mem.wf = true ∧ exec .ser (linear [0x48, 0x69] 16) = .next afterSer ∧
      afterSer.errCode = 0 ∧ u.mem = afterSer.mem ∧ u.srcAddr = (linear [0x48, 0x69] 16).dstAddr ∧
      u.srcLen = afterSer.resLen ∧ ChecksPass .deser u ∧
      (linear [0x48, 0x69] 16).srcLen.toNat ≤ u.dstMax.toNat :=
  ⟨by decide, rfl, by decide +kernel, rfl, rfl, by decide +kernel, passes (by decide +kernel), by decide⟩

/-- An output that just fits, one that is a byte too long, and a stream the stage rejects. -/
theorem witness_CompressionCommandsApplyTheStage :
    (linear [0x41] 1).mem.wf = true ∧ ChecksPass .compress (linear [0x41] 1) ∧ ChecksPass .decompress (linear [0x41] 1) ∧
      (plainStages.compress (linear [0x41] 1).srcBytes).length ≤ (linear [0x41] 1).dstMax.toNat ∧
      plainStages.decompress (linear [0x41] 1).srcBytes = some [0x41] ∧
      rejectingStages.decompress (linear [0x41] 1).srcBytes = none ∧ ChecksPass .compress (linear [0x41] 0) ∧
      (linear [0x41] 0).dstMax.toNat < (plainStages.compress (linear [0x41] 0).srcBytes).length :=
  ⟨by decide, passes (by decide +kernel), passes (by decide +kernel), by decide +kernel, by decide +kernel, rfl,
    passes (by decide +kernel), by decide +kernel⟩

/-- A source and a key for the cipher. -/
def keyed (n : Nat) (dstMax : Word) : State := { linear (List.replicate n 7) dstMax with keyLen := 32 }

/-- SEAL of two bytes into fourteen and into thirteen. -/
theorem witness_CipherCommandsApplyTheStage_seal :
    (keyed 2 14).mem.wf = true ∧ ChecksPass .sealBlob (keyed 2 14) ∧
      (sealedBlob plainStages (keyed 2 14).keyBytes (keyed 2 14).nonce (keyed 2 14).srcBytes).length ≤
        (keyed 2 14).dstMax.toNat ∧
      ChecksPass .sealBlob (keyed 2 13) ∧
      (keyed 2 13).dstMax.toNat <
        (sealedBlob plainStages (keyed 2 13).keyBytes (keyed 2 13).nonce (keyed 2 13).srcBytes).length :=
  ⟨by decide +kernel, passes (by decide +kernel), by decide +kernel, passes (by decide +kernel), by decide +kernel⟩

/-- OPEN of one byte short of a nonce, and of a nonce and nothing else. -/
theorem witness_CipherCommandsApplyTheStage_open :
    (keyed 11 0).mem.wf = true ∧ ChecksPass .openBlob (keyed 11 0) ∧
      (keyed 11 0).srcLen.toNat < (keyed 11 0).params.nonceBytes ∧ (keyed 12 0).mem.wf = true ∧
      ChecksPass .openBlob (keyed 12 0) ∧ (keyed 12 0).params.nonceBytes ≤ (keyed 12 0).srcLen.toNat ∧
      rejectingStages.aeadOpen (keyed 12 0).keyBytes ((keyed 12 0).srcBytes.take 12) ((keyed 12 0).srcBytes.drop 12) =
        none ∧
      plainStages.aeadOpen (keyed 12 0).keyBytes ((keyed 12 0).srcBytes.take 12) ((keyed 12 0).srcBytes.drop 12) =
        some [] :=
  ⟨by decide +kernel, passes (by decide +kernel), by decide, by decide +kernel, passes (by decide +kernel), by decide,
    rfl, by decide +kernel⟩

theorem witness_FrameBuildWritesTheFrame :
    (linear [0x41] 41).mem.wf = true ∧ ChecksPass (.frameBuild true) (linear [0x41] 41) ∧
      33 + 8 * (linear [0x41] 41).srcLen.toNat ≤ (linear [0x41] 41).dstMax.toNat :=
  ⟨by decide, passes (by decide +kernel), by decide⟩

theorem witness_FrameParseReadsTheFrame :
    let s := linear hiFrame 2
    s.mem.wf = true ∧ ChecksPass .frameParse s ∧ 33 + 8 * (2 : Word).toNat ≤ s.srcLen.toNat ∧
      (∀ j, j < 32 → (s.mem.read (s.srcAddr.toNat + 1 + j)).getLsbD 0 = (2 : Word).getLsbD (31 - j)) ∧
      (2 : Word).toNat ≤ s.dstMax.toNat :=
  ⟨by decide +kernel, passes (by decide +kernel), by decide, by decide +kernel, by decide⟩

/-- A header one bit short; a payload one bit short; a destination one byte short. -/
theorem witness_FrameParseErrors :
    let s := fun (k : Nat) (m : Word) => linear (hiFrame.take k) m
    let spells := fun s : State =>
      ∀ j, j < 32 → (s.mem.read (s.srcAddr.toNat + 1 + j)).getLsbD 0 = (2 : Word).getLsbD (31 - j)
    (ChecksPass .frameParse (s 32 2) ∧ (s 32 2).srcLen.toNat < 33) ∧
      (ChecksPass .frameParse (s 48 2) ∧ spells (s 48 2) ∧ 33 ≤ (s 48 2).srcLen.toNat ∧
        (s 48 2).srcLen.toNat - 33 < 8 * (2 : Word).toNat) ∧
      (ChecksPass .frameParse (s 49 1) ∧ spells (s 49 1) ∧ 8 * (2 : Word).toNat ≤ (s 49 1).srcLen.toNat - 33 ∧
        (s 49 1).dstMax.toNat < (2 : Word).toNat) :=
  ⟨⟨passes (by decide +kernel), by decide⟩,
    ⟨passes (by decide +kernel), by decide +kernel, by decide, by decide⟩,
    passes (by decide +kernel), by decide +kernel, by decide, by decide⟩

theorem witness_ParseFrameInvertsFrame :
    ([0x41] : Bytes).length < 2 ^ 32 ∧ ∃ e, parseFrame (List.replicate 33 true) = .error e ∧ e.err = .truncatedPayload :=
  ⟨by decide, _, rfl, rfl⟩

/-- A bit array as long as the grid, and one bit longer. -/
theorem witness_EmbedWritesRedLsbs :
    (gridded 1 2 grid12 [1, 0] 0).mem.wf = true ∧ ChecksPass .embed (gridded 1 2 grid12 [1, 0] 0) ∧
      (gridded 1 2 grid12 [1, 0] 0).srcLen.toNat ≤
        (gridded 1 2 grid12 [1, 0] 0).width.toNat * (gridded 1 2 grid12 [1, 0] 0).height.toNat ∧
      (gridded 1 2 grid12 [1, 0, 1] 0).mem.wf = true ∧ ChecksPass .embed (gridded 1 2 grid12 [1, 0, 1] 0) ∧
      (gridded 1 2 grid12 [1, 0, 1] 0).width.toNat * (gridded 1 2 grid12 [1, 0, 1] 0).height.toNat <
        (gridded 1 2 grid12 [1, 0, 1] 0).srcLen.toNat :=
  ⟨by decide +kernel, passes (by decide +kernel), by decide, by decide +kernel, passes (by decide +kernel), by decide⟩

theorem witness_ExtractReadsRedLsbs :
    (gridded 1 2 grid12 [] 2).mem.wf = true ∧ ChecksPass .extract (gridded 1 2 grid12 [] 2) ∧
      (gridded 1 2 grid12 [] 2).width.toNat * (gridded 1 2 grid12 [] 2).height.toNat ≤
        (gridded 1 2 grid12 [] 2).dstMax.toNat :=
  ⟨by decide +kernel, passes (by decide +kernel), by decide⟩

theorem witness_EmbeddingIsMinimalAndReadsBack : grid12.length = 4 * 2 ∧ [true].length ≤ 2 := by decide

theorem witness_FrameFitsExactlyUpToCapacity : (65535 ≤ 65535) ∧ 8 * 6 % 8 = 0 ∧ 7 * 7 % 8 ≠ 0 := by decide

/-- A frame as long as the grid. -/
theorem witness_EncodeEmbedsThePlainFrame :
    (gridded 7 7 g7 [0x48, 0x69] 0).mem.wf = true ∧ ChecksPass .encode (gridded 7 7 g7 [0x48, 0x69] 0) ∧
      (gridded 7 7 g7 [0x48, 0x69] 0).comp = false ∧ (gridded 7 7 g7 [0x48, 0x69] 0).enc = false ∧
      33 + 8 * (gridded 7 7 g7 [0x48, 0x69] 0).srcLen.toNat ≤
        (gridded 7 7 g7 [0x48, 0x69] 0).width.toNat * (gridded 7 7 g7 [0x48, 0x69] 0).height.toNat :=
  ⟨by decide +kernel, passes (by decide +kernel), by decide, by decide, by decide⟩

/-- A message compressed and sealed, into a grid as large as its frame. -/
theorem witness_EncodeAppliesTheStagesInOrder :
    let s := { gridded 145 1 [] [0x48, 0x69] 0 with comp := true, enc := true, keyLen := 32, gdstAddr := 0x1800 }
    s.mem.wf = true ∧ ChecksPass .encode s ∧
      33 + 8 * (s.nonce ++ plainStages.aeadSeal s.keyBytes s.nonce (plainStages.compress s.srcBytes)).length = s.pixels :=
  ⟨by decide +kernel, passes (by decide +kernel), by decide +kernel⟩

/-- A frame one bit longer than the grid. -/
theorem witness_EncodeAppliesTheStagesInOrder_tooLarge :
    (gridded 8 6 [] [0x48, 0x69] 0).mem.wf = true ∧ ChecksPass .encode (gridded 8 6 [] [0x48, 0x69] 0) ∧
      (gridded 8 6 [] [0x48, 0x69] 0).pixels < 33 + 8 * (gridded 8 6 [] [0x48, 0x69] 0).srcBytes.length :=
  ⟨by decide, passes (by decide +kernel), by decide +kernel⟩

/-- A 49 by 1 grid that carries `frame(0, 48 69)`. -/
def hiGrid : Bytes := hiFrame.flatMap fun b => [b, 0x40, 0x80, 0xFF]

theorem witness_DecodeReadsThePlainFrame :
    let s := gridded 49 1 hiGrid [] 2
    s.mem.wf = true ∧ ChecksPass .decode s ∧ s.enc = false ∧
      33 + 8 * (2 : Word).toNat ≤ s.width.toNat * s.height.toNat ∧ (s.mem.read s.gsrcAddr.toNat).getLsbD 0 = false ∧
      (∀ j, j < 32 → (s.mem.read (s.gsrcAddr.toNat + 4 * (1 + j))).getLsbD 0 = (2 : Word).getLsbD (31 - j)) ∧
      (2 : Word).toNat ≤ s.dstMax.toNat :=
  ⟨by decide +kernel, passes (by decide +kernel), by decide, by decide, by decide +kernel, by decide +kernel, by decide⟩

/-- A frame that parses, read with the cipher on; and a grid too small for a header. -/
theorem witness_DecodeUndoesTheStagesInOrder :
    let s := { gridded 49 1 hiGrid [] 2 with enc := true, keyLen := 32 }
    s.mem.wf = true ∧ ChecksPass .decode s ∧ parseFrame (extract s.gridBytes) = .ok ⟨false, 2, [0x48, 0x69]⟩ ∧
      ([0x48, 0x69] : Bytes).length < s.params.nonceBytes ∧
      (gridded 4 8 [] [] 2).mem.wf = true ∧ ChecksPass .decode (gridded 4 8 [] [] 2) ∧
      parseFrame (extract (gridded 4 8 [] [] 2).gridBytes) = .error ⟨.truncatedHeader, 33, 32⟩ :=
  ⟨by decide +kernel, passes (by decide +kernel), by decide +kernel, by decide, by decide, passes (by decide +kernel),
    by decide +kernel⟩

/-- With NONCE_BYTES 1: a blob of one nonce byte under flag 1, opened and rejected, with and without a decompressor; and
the opened message just fitting and a byte too long. -/
theorem witness_DecodeUndoesTheStagesInOrder_stages :
    let s := fun (comp : Bool) (m : Word) => { gridded 41 1 (aFrame.flatMap fun b => [b, 0, 0, 0]) [] m with
      params := { chip with noncePred := 0, hasComp := comp }, enc := true, keyLen := 32 }
    (s true 0).mem.wf = true ∧ ChecksPass .decode (s true 0) ∧ ChecksPass .decode (s false 0) ∧
      parseFrame (extract (s true 0).gridBytes) = .ok ⟨true, 1, [0x41]⟩ ∧
      (s true 0).params.nonceBytes ≤ ([0x41] : Bytes).length ∧
      rejectingStages.aeadOpen (s true 0).keyBytes [0x41] [] = none ∧
      plainStages.aeadOpen (s true 0).keyBytes [0x41] [] = some [] ∧ (s false 0).params.hasComp = false ∧
      (s true 0).params.hasComp = true ∧ rejectingStages.decompress [] = none ∧
      plainStages.decompress [] = some [] ∧ ([] : Bytes).length ≤ (s true 0).dstMax.toNat ∧
      (gridded 49 1 hiGrid [] 1).dstMax.toNat < ([0x48, 0x69] : Bytes).length ∧
      ChecksPass .decode (gridded 49 1 hiGrid [] 1) :=
  ⟨by decide +kernel, passes (by decide +kernel), passes (by decide +kernel), by decide +kernel, by decide, rfl, rfl, rfl,
    rfl, rfl, rfl, by decide, by decide, passes (by decide +kernel)⟩

/-- The chip with TAG_BYTES 32 and NONCE_BYTES 1. -/
def keyedChip : Params := { chip with tagBytes := 32, noncePred := 0 }

/-- The six properties of 42_payload_pipeline R130 hold together of the toy. -/
theorem witness_Stages :
    keyedStages.CompRT ∧ keyedStages.AeadRT keyedChip ∧ keyedStages.AeadLen keyedChip ∧
      keyedStages.AeadKey keyedChip ∧ keyedStages.AeadTamper keyedChip ∧ keyedStages.AeadShort keyedChip := by
  refine ⟨fun _ => rfl, fun k n m hk _ => ?_, fun k n m hk _ => ?_, fun k k' n m hk _ _ ne => ?_, fun k n c hk _ no => ?_,
    fun k n c hk _ short => ?_⟩ <;> simp only [IsKey] at hk
  · simp [keyedStages, ← hk]
  · simp [keyedStages, hk, keyedChip]; omega
  · simp [keyedStages, ← hk, ne.symm]
  · simp only [keyedStages] at no ⊢
    rw [if_neg]
    intro e
    exact no (c.drop 32) (by rw [← e, List.take_append_drop])
  · simp only [keyedStages]
    rw [if_neg]
    intro e
    have := congrArg List.length e
    rw [List.length_take, hk] at this
    have : c.length < 32 := short
    omega

/-- A message to encode, compressed, or compressed and sealed. -/
def toEncode (enc : Bool) : State :=
  { gridded 49 5 [] [0x48, 0x69] 2 with comp := true, enc := enc, keyLen := 32, gdstAddr := 0x1800 }

/-- What ENCODE over the plain stages leaves. -/
def encoded (enc : Bool) : State :=
  (toEncode enc).complete (checkedResult .encode (toEncode enc) (encodeBody plainStages (toEncode enc)))

/-- The machine that decodes it: under the same key where the frame is sealed, under another where it is not. -/
def toDecode (enc : Bool) : State :=
  { encoded enc with
    gsrcAddr := 0x1800, dstAddr := 0x300, dstMax := 2
    key := if enc then (encoded enc).key else Vector.replicate 8 1 }

theorem toEncode_passes (enc : Bool) : ChecksPass .encode (toEncode enc) := by cases enc <;> exact passes (by decide +kernel)

theorem toEncode_wf (enc : Bool) : (toEncode enc).mem.wf = true := by cases enc <;> decide +kernel

theorem encoded_wf (enc : Bool) : (encoded enc).mem.wf = true := by
  have kept : ∀ s, ChecksPass .encode s → s.mem.wf = true → (s.complete (encodeBody plainStages s)).mem.wf = true := by
    intro s p wf
    simp only [encodeBody]
    split
    · exact wf
    · exact (Memory.writeBytes_stores wf (p.fits (r := s.gdstRegion) (by simp [writtenRegions])
        (by simp [State.gdstRegion, State.gridSize]))).1
  rw [encoded, checkedResult_of_pass (toEncode_passes enc)]
  exact kept _ (toEncode_passes enc) (toEncode_wf enc)

theorem witness_DecodeUndoesEncode (enc : Bool) :
    let s := toEncode enc
    let t := encoded enc
    let u := toDecode enc
    (s.comp = true → plainStages.CompRT) ∧ (s.enc = true → plainStages.AeadRT s.params) ∧ s.mem.wf = true ∧ u.mem.wf = true ∧
      encodeWith plainStages s = .next t ∧ t.errCode = 0 ∧
      (∀ k, k < s.gridSize → u.mem.read (u.gsrcAddr.toNat + k) = t.mem.read (s.gdstAddr.toNat + k)) ∧
      u.params = s.params ∧ u.width = s.width ∧ u.height = s.height ∧ u.enc = s.enc ∧
      (s.enc = true → u.key = s.key) ∧
      ChecksPass .decode u ∧ s.srcLen.toNat ≤ u.dstMax.toNat := by
  refine ⟨fun _ _ => rfl, fun _ _ _ _ _ _ => rfl, toEncode_wf enc, encoded_wf enc, rfl, ?_, fun _ _ => rfl, ?_, ?_, ?_, ?_,
    ?_, ?_, ?_⟩
  · cases enc <;> decide +kernel
  · cases enc <;> decide +kernel
  · cases enc <;> decide +kernel
  · cases enc <;> decide +kernel
  · cases enc <;> decide +kernel
  · cases enc <;> decide +kernel
  · cases enc <;> exact passes (by decide +kernel)
  · cases enc <;> decide +kernel

/-- A key of 32 bytes 01. -/
def otherKey : Bytes := List.replicate 32 1

/-- A grid that carries one nonce byte and an empty plaintext sealed under that key. -/
def sealedGrid : Bytes :=
  (frame false ([0x41] ++ keyedStages.aeadSeal otherKey [0x41] [])).flatMap fun b => [bitElement b, 0, 0, 0]

/-- The sealed frame read under the key of zeros. -/
theorem witness_DecodeWithAnotherKeyFails :
    let u := { gridded 297 1 sealedGrid [] 2 with
      params := keyedChip, enc := true, keyLen := 32 }
    keyedStages.AeadKey u.params ∧ ChecksPass .decode u ∧ u.enc = true ∧ otherKey.length = 32 ∧
      u.keyBytes ≠ otherKey ∧ ([0x41] : Bytes).length = u.params.nonceBytes ∧
      ([0x41] ++ keyedStages.aeadSeal otherKey [0x41] []).length < 2 ^ 32 ∧
      extract (u.mem.readBytes u.gsrcAddr.toNat u.gridSize) =
        frame false ([0x41] ++ keyedStages.aeadSeal otherKey [0x41] []) ++ [] :=
  ⟨witness_Stages.2.2.2.1, passes (by decide +kernel), rfl, rfl,
    by decide +kernel, rfl, by decide, by decide +kernel⟩

end Sys2Proof.Tests.Slice0
end

section
/-! The implementation parameters are constant: every outcome of a step keeps them (00_scope R5, 10_state R49). -/

namespace Sys2Proof.Machine

/-- The host's turn keeps the parameters, whatever move it makes (10_state R49). -/
theorem hostTurn_params {s t : State} (h : hostTurn s = .next t) : t.params = s.params := by
  rcases hostTurn_cases h with
    ⟨rfl, -⟩ | ⟨m, rest, -, ⟨r, rfl⟩ | rfl | ⟨r, v, rfl⟩ | ⟨a, b, -, -, rfl⟩ | ⟨-, rfl⟩⟩
  · rfl
  · exact State.reply_params _ r
  · rfl
  · exact (writeReg_keeps _ r v).1
  · rfl
  · exact resetInput_params _

/-- A command's completion step keeps the parameters (40_command_engine R104). -/
theorem exec_params {i : Instr} {s t : State} (h : exec i s = .next t) : t.params = s.params := by
  rw [exec_eq_complete] at h
  rw [← Host.Outcome.next.inj h, State.complete_params]

/-- The completion of an illegal word keeps the parameters (40_command_engine R104). -/
theorem illegalCommand_params {s t : State} (h : illegalCommand s = .next t) : t.params = s.params := by
  rw [← Host.Outcome.next.inj h, State.complete_params]

/-- Settles O13: a step is a command's completion, an illegal word's completion or the host's turn, and each keeps
the parameters. -/
theorem parametersNeverChange : Obligations.ParametersNeverChange := by
  intro s t h
  rcases step_cases s with ⟨-, i, -, e⟩ | ⟨-, -, e⟩ | ⟨-, e⟩
  · exact exec_params (e ▸ h)
  · exact illegalCommand_params (e ▸ h)
  · exact hostTurn_params (e ▸ h)

end Sys2Proof.Machine
end

section
/-! The host's next move (70_reset_and_hazards R247): which move a step makes, over which state, and how an access at
an offset or at a platform address comes to the register there (10_state R22, R42, R43). -/

namespace Sys2Proof.Machine

/-- An idle block leaves the step to the host (40_command_engine R102). -/
theorem engineMoves_of_idle {s : State} (h : s.seq = .idle) : engineMoves s = false := by
  simp [engineMoves, State.busyBit, h]

/-- Before a move that is no WAIT only the delay decides which agent's step comes (log 4). -/
theorem engineMoves_of_move {s : State} {m : HostMove} {rest : List HostMove} (hh : s.host = m :: rest)
    (ne : m ≠ .wait) : engineMoves s = (s.busyBit && s.delay == 0) := by
  have acts : hostIdles s = false := by
    unfold hostIdles
    rw [hh]
    cases m with
    | wait => exact absurd rfl ne
    | _ => rfl
  simp [engineMoves, acts]

theorem step_of_not_engineMoves {s : State} (he : engineMoves s = false) : step s = hostTurn s := by
  simp [step, he]

/-- The host's turn makes its next move, if it is no WAIT, with that move taken off its list. -/
theorem hostTurn_move {s : State} {m : HostMove} {rest : List HostMove} (hh : s.host = m :: rest) (ne : m ≠ .wait) :
    hostTurn s = hostMove { s with host := rest, delay := s.delay - 1 } m := by
  unfold hostTurn
  rw [hh]
  cases m with
  | wait => exact absurd rfl ne
  | _ => rfl

theorem step_move {s : State} {m : HostMove} {rest : List HostMove} (he : engineMoves s = false)
    (hh : s.host = m :: rest) (ne : m ≠ .wait) :
    step s = hostMove { s with host := rest, delay := s.delay - 1 } m :=
  (step_of_not_engineMoves he).trans (hostTurn_move hh ne)

/-- A WAIT whose poll finds DONE = 1 is a read of STATUS (30_encoding R89). -/
theorem step_wait_done {s : State} {rest : List HostMove} (he : engineMoves s = false) (hh : s.host = .wait :: rest)
    (hd : s.done = true) :
    step s = .next ({ s with host := rest, delay := s.delay - 1 }.reply
      (.reg Reg.status.offset (readReg s .status))) := by
  rw [step_of_not_engineMoves he, hostTurn, hh]
  simp [hostWait, hd]

/-- A move put in another's place at the head of the host's list, neither a WAIT, leaves the host's step the host's. -/
theorem engineMoves_retarget {s : State} {m m' : HostMove} {rest : List HostMove} (he : engineMoves s = false)
    (hh : s.host = m :: rest) (ne : m ≠ .wait) (ne' : m' ≠ .wait) :
    engineMoves { s with host := m' :: rest } = false := by
  rw [engineMoves_of_move hh ne] at he
  rw [engineMoves_of_move rfl ne']
  exact he

/-- Moves that do the same over every state with the parameters of `s` give the same step. -/
theorem step_congr_move {s : State} {m m' : HostMove} {rest : List HostMove} (he : engineMoves s = false)
    (hh : s.host = m :: rest) (ne : m ≠ .wait) (ne' : m' ≠ .wait)
    (same : ∀ u : State, u.params = s.params → hostMove u m = hostMove u m') :
    step s = step { s with host := m' :: rest } := by
  rw [step_move he hh ne, step_move (engineMoves_retarget he hh ne ne') rfl ne']
  exact same _ rfl

/-! An access at an offset. -/

theorem atOffset_of_outside {off : Nat} (h : 256 ≤ off) (go : Host.Outcome State Fault Refusal) :
    atOffset off go = .refused .outsideRegisterWindow := by
  simp [atOffset, h]

theorem atOffset_of_misaligned {off : Nat} (lt : off < 256) (h : off % 4 ≠ 0)
    (go : Host.Outcome State Fault Refusal) : atOffset off go = .refused .misalignedRegisterAccess := by
  simp [atOffset, Nat.not_le.mpr lt, h]

theorem atOffset_of_aligned {off : Nat} (lt : off < 256) (h : off % 4 = 0) (go : Host.Outcome State Fault Refusal) :
    atOffset off go = go := by
  simp [atOffset, Nat.not_le.mpr lt, h]

theorem atBusAddress_of_below {p : Params} {addr : Nat} (h : addr < p.regBase)
    (go : Nat → Host.Outcome State Fault Refusal) : atBusAddress p addr go = .refused .outsideRegisterWindow := by
  simp [atBusAddress, h]

/-- An access at REG_BASE + `off` is the access at `off` (20_memory R70). -/
theorem step_busRead {s : State} {off : Nat} {rest : List HostMove} (he : engineMoves s = false)
    (hh : s.host = .busRead (s.params.regBase + off) :: rest) :
    step s = step { s with host := .regRead off :: rest } :=
  step_congr_move he hh nofun nofun fun u hu => hu ▸ atBusAddress_busAddress u.params off (hostRegRead u)

theorem step_busWrite {s : State} {off : Nat} {v : Word} {rest : List HostMove} (he : engineMoves s = false)
    (hh : s.host = .busWrite (s.params.regBase + off) v :: rest) :
    step s = step { s with host := .regWrite off v :: rest } :=
  step_congr_move he hh nofun nofun fun u hu =>
    hu ▸ atBusAddress_busAddress u.params off fun off => hostRegWrite u off v

@[simp] theorem readOffset_offset (s : State) (r : Reg) : readOffset s r.offset = readReg s r := by
  simp [readOffset, regAt_offset]

@[simp] theorem writeOffset_offset (s : State) (r : Reg) (v : Word) : writeOffset s r.offset v = writeReg s r v := by
  simp [writeOffset, regAt_offset]

/-- No register reads the host's side. -/
theorem readReg_hostSide (s : State) (rest : List HostMove) (d : Nat) (r : Reg) :
    readReg { s with host := rest, delay := d } r = readReg s r := by
  cases r <;> rfl

/-- A read at a register's offset answers the register's value and changes nothing else (10_state R45). -/
theorem step_regRead_offset {s : State} {r : Reg} {rest : List HostMove} (he : engineMoves s = false)
    (hh : s.host = .regRead r.offset :: rest) :
    step s = .next ({ s with host := rest, delay := s.delay - 1 }.reply (.reg r.offset (readReg s r))) := by
  rw [step_move he hh nofun, hostMove, hostRegRead, atOffset_reg, readOffset_offset, readReg_hostSide]

/-- A write at a register's offset is that register's write (10_state R44). -/
theorem step_regWrite_offset {s : State} {r : Reg} {v : Word} {rest : List HostMove} (he : engineMoves s = false)
    (hh : s.host = .regWrite r.offset v :: rest) :
    step s = .next (writeReg { s with host := rest, delay := s.delay - 1 } r v) := by
  rw [step_move he hh nofun, hostMove, hostRegWrite, atOffset_reg, writeOffset_offset]

/-! Reserved offsets (10_state R42). -/

/-- Every register lies below 0x54 or at 0x60 to 0x7C (10_state R22). -/
theorem Reg.offset_notReserved (r : Reg) : r.offset < 0x54 ∨ (0x60 ≤ r.offset ∧ r.offset < 0x80) := by
  cases r with
  | key k => simp [Reg.offset]; omega
  | _ => exact .inl (by decide)

theorem regAt_reserved {off : Nat} (h : (0x54 ≤ off ∧ off < 0x60) ∨ 0x80 ≤ off) : regAt off = none := by
  unfold regAt
  rw [List.find?_eq_none]
  intro r _ hr
  have := r.offset_notReserved
  have : r.offset = off := by simpa using hr
  omega

theorem readOffset_of_regAt_none {off : Nat} (h : regAt off = none) (s : State) : readOffset s off = 0 := by
  simp [readOffset, h]

theorem writeOffset_of_regAt_none {off : Nat} (h : regAt off = none) (s : State) (v : Word) :
    writeOffset s off v = s := by
  simp [writeOffset, h]

theorem step_regRead_reserved {s : State} {off : Nat} {rest : List HostMove} (vacant : regAt off = none)
    (lt : off < 256) (aligned : off % 4 = 0) (he : engineMoves s = false) (hh : s.host = .regRead off :: rest) :
    step s = .next ({ s with host := rest, delay := s.delay - 1 }.reply (.reg off 0)) := by
  rw [step_move he hh nofun, hostMove, hostRegRead, atOffset_of_aligned lt aligned, readOffset_of_regAt_none vacant]

theorem step_regWrite_reserved {s : State} {off : Nat} {v : Word} {rest : List HostMove} (vacant : regAt off = none)
    (lt : off < 256) (aligned : off % 4 = 0) (he : engineMoves s = false) (hh : s.host = .regWrite off v :: rest) :
    step s = .next { s with host := rest, delay := s.delay - 1 } := by
  rw [step_move he hh nofun, hostMove, hostRegWrite, atOffset_of_aligned lt aligned, writeOffset_of_regAt_none vacant]

/-! Accesses that the host does not have (10_state R43; logs 7, 18). -/

theorem step_offset_outside {s : State} {off : Nat} {v : Word} {rest : List HostMove} (he : engineMoves s = false)
    (hh : s.host = .regRead off :: rest ∨ s.host = .regWrite off v :: rest) (out : 256 ≤ off) :
    step s = .refused .outsideRegisterWindow := by
  rcases hh with hh | hh
  · exact (step_move he hh nofun).trans (atOffset_of_outside out _)
  · exact (step_move he hh nofun).trans (atOffset_of_outside out _)

theorem step_offset_misaligned {s : State} {off : Nat} {v : Word} {rest : List HostMove}
    (he : engineMoves s = false) (hh : s.host = .regRead off :: rest ∨ s.host = .regWrite off v :: rest)
    (lt : off < 256) (odd : off % 4 ≠ 0) : step s = .refused .misalignedRegisterAccess := by
  rcases hh with hh | hh
  · exact (step_move he hh nofun).trans (atOffset_of_misaligned lt odd _)
  · exact (step_move he hh nofun).trans (atOffset_of_misaligned lt odd _)

theorem step_bus_below {s : State} {addr : Nat} {v : Word} {rest : List HostMove} (he : engineMoves s = false)
    (hh : s.host = .busRead addr :: rest ∨ s.host = .busWrite addr v :: rest) (below : addr < s.params.regBase) :
    step s = .refused .outsideRegisterWindow := by
  rcases hh with hh | hh
  · exact (step_move he hh nofun).trans (atBusAddress_of_below below _)
  · exact (step_move he hh nofun).trans (atBusAddress_of_below below fun off => hostRegWrite _ off v)

/-- An access at REG_BASE + `off` steps as one of the same kind at `off`. -/
theorem step_bus_eq_step_offset {s : State} {off : Nat} {v : Word} {rest : List HostMove}
    (he : engineMoves s = false) (hh : s.host = .busRead (s.params.regBase + off) :: rest ∨
      s.host = .busWrite (s.params.regBase + off) v :: rest) :
    ∃ u, engineMoves u = false ∧ (u.host = .regRead off :: rest ∨ u.host = .regWrite off v :: rest) ∧
      step s = step u := by
  rcases hh with hh | hh
  · exact ⟨_, engineMoves_retarget (m' := .regRead off) he hh nofun nofun, .inl rfl, step_busRead he hh⟩
  · exact ⟨_, engineMoves_retarget (m' := .regWrite off v) he hh nofun nofun, .inr rfl, step_busWrite he hh⟩

/-- Settles O24: an access at a platform address is the one at its offset, and that one comes to the register. -/
theorem hostAccessesReachTheRegister : Obligations.HostAccessesReachTheRegister := by
  intro s r v m rest he hh u
  refine ⟨?_, ?_, fun off => ⟨?_, ?_⟩, ?_⟩
  · rintro (rfl | rfl)
    · exact step_regRead_offset he hh
    · exact (step_busRead he hh).trans (step_regRead_offset (engineMoves_retarget he hh nofun nofun) rfl)
  · rintro (rfl | rfl)
    · exact step_regWrite_offset he hh
    · exact (step_busWrite he hh).trans (step_regWrite_offset (engineMoves_retarget he hh nofun nofun) rfl)
  · rintro rfl
    exact step_busRead he hh
  · rintro rfl
    exact step_busWrite he hh
  · rintro rfl hd
    exact step_wait_done he hh hd

/-- Settles O30: the offset decides the refusal, and a platform address below REG_BASE has no offset. -/
theorem otherRegisterAccessesAreRefused : Obligations.OtherRegisterAccessesAreRefused := by
  intro s v rest he
  refine ⟨fun off hh => ⟨step_offset_outside he hh, step_offset_misaligned he hh⟩, fun addr hh => ⟨?_, ?_⟩⟩
  · rintro (below | above)
    · exact step_bus_below he hh below
    · obtain ⟨off, rfl⟩ := Nat.exists_eq_add_of_le (Nat.le_of_add_right_le above)
      obtain ⟨u, hu, access, e⟩ := step_bus_eq_step_offset he hh
      exact e.trans (step_offset_outside hu access (by omega))
  · rintro off lt odd rfl
    obtain ⟨u, hu, access, e⟩ := step_bus_eq_step_offset he hh
    exact e.trans (step_offset_misaligned hu access lt odd)

end Sys2Proof.Machine
end

section
/-! The register window (10_state R22–R26, R35–R37, R42, R44): what a write stores, when it is lost, and the bits a
read shows. -/

namespace Sys2Proof.Machine

/-! The rule of locked registers (10_state R44). -/

/-- The eighteen registers that are locked. -/
theorem locked_iff (r : Reg) :
    locked r = true ↔ r ∈ [Reg.cmd, .srcAddr, .srcLen, .dstAddr, .dstMax, .gsrcAddr, .gdstAddr, .width, .height,
      .policy] ∨ ∃ k, r = .key k := by
  cases r <;> simp [locked]

theorem writeReg_locked_busy {s : State} {r : Reg} (hl : locked r = true) (hb : s.seq = .busy) (v : Word) :
    writeReg s r v = { s with ovr := true } := by
  simp [writeReg, hl, State.busyBit, hb]

theorem writeReg_idle {s : State} (h : s.seq = .idle) (r : Reg) (v : Word) : writeReg s r v = storeReg s r v := by
  simp [writeReg, State.busyBit, h]

theorem writeReg_unlocked {r : Reg} (h : locked r = false) (s : State) (v : Word) :
    writeReg s r v = storeReg s r v := by
  simp [writeReg, h]

/-- Words that would be stored alike are written alike, idle or busy. -/
theorem writeReg_congr {s : State} {r : Reg} {v v' : Word} (h : storeReg s r v = storeReg s r v') :
    writeReg s r v = writeReg s r v' := by
  simp [writeReg, h]

/-! What a write that takes effect changes. -/

theorem storeReg_ovr (s : State) (r : Reg) (v : Word) :
    (storeReg s r v).ovr = (s.ovr && !(r == .status && v.getLsbD 3)) := by
  cases r <;> simp [storeReg]

/-- Only a write to CMD starts a command (40_command_engine R101). -/
theorem storeReg_seq (s : State) (r : Reg) (v : Word) :
    (storeReg s r v).seq = if r = .cmd then .busy else s.seq := by
  cases r <;> simp [storeReg]

theorem storeReg_mem (s : State) (r : Reg) (v : Word) : (storeReg s r v).mem = s.mem := by
  cases r <;> rfl

theorem storeReg_key_of_not_key {r : Reg} (h : ∀ k, r ≠ .key k) (s : State) (v : Word) :
    (storeReg s r v).key = s.key := by
  cases r with
  | key k => exact absurd rfl (h k)
  | _ => rfl

/-- A write that takes effect shows in its own register only, and in STATUS: no other register reads a field that it
stores. -/
theorem readReg_storeReg_other (s : State) {r r' : Reg} (v : Word) (ne : r' ≠ r) (ns : r' ≠ .status) :
    readReg (storeReg s r v) r' = readReg s r' := by
  cases r <;> cases r' <;> trivial

theorem storeReg_key_same (s : State) (k : Fin 8) (v : Word) : (storeReg s (.key k) v).key[k] = v := by
  simp [storeReg]

theorem storeReg_key_other (s : State) {j k : Fin 8} (v : Word) (ne : j ≠ k) :
    (storeReg s (.key k) v).key[j] = s.key[j] := by
  exact Vector.getElem_set_ne k.isLt j.isLt fun e => ne (Fin.ext e.symm)

/-! Words under a mask. -/

/-- A word none of whose bits lies under the mask. -/
theorem and_eq_zero_of_bits {w m : Word} (h : ∀ j < 32, m.getLsbD j = true → w.getLsbD j = false) : w &&& m = 0 := by
  apply BitVec.eq_of_getLsbD_eq
  intro j lt
  cases hm : m.getLsbD j with
  | false => simp [hm]
  | true => simp [h j lt hm]

/-! The implemented bits of CTRL, of WIDTH and HEIGHT, and of POLICY as masks (10_state R25, R35, R36). -/

theorem ctrlMask_getLsbD : ∀ j < 32, (0x00000001 : Word).getLsbD j = decide (j = 0) := by decide

theorem sizeMask_getLsbD : ∀ j < 32, (0x0000FFFF : Word).getLsbD j = decide (j < 16) := by decide

theorem policyMask_getLsbD :
    ∀ j < 32, (0x0000FF03 : Word).getLsbD j = decide (j = 0 ∨ j = 1 ∨ (8 ≤ j ∧ j < 16)) := by decide

theorem readReg_store_ctrl (s : State) (v : Word) : readReg (storeReg s .ctrl v) .ctrl = v &&& 0x00000001 := by
  apply BitVec.eq_of_getLsbD_eq
  intro j lt
  rw [BitVec.getLsbD_and, ctrlMask_getLsbD j lt]
  simp only [readReg, ctrlWord_getLsbD, storeReg]
  by_cases hj : j = 0
  · simp [hj]
  · simp [hj]

theorem extractLow16_zeroExtend (v : Word) : (v.extractLsb' 0 16).zeroExtend 32 = v &&& 0x0000FFFF := by
  apply BitVec.eq_of_getLsbD_eq
  intro j lt
  rw [BitVec.getLsbD_and, sizeMask_getLsbD j lt]
  simp [lt, Bool.and_comm]

theorem readReg_store_size (s : State) (v : Word) :
    ∀ r ∈ [Reg.width, .height], readReg (storeReg s r v) r = v &&& 0x0000FFFF := by
  simpa [readReg, storeReg] using extractLow16_zeroExtend v

theorem readReg_store_policy (s : State) (v : Word) :
    readReg (storeReg s .policy v) .policy = v &&& 0x0000FF03 := by
  apply BitVec.eq_of_getLsbD_eq
  intro j lt
  rw [BitVec.getLsbD_and, policyMask_getLsbD j lt]
  simp only [readReg, policyWord_getLsbD, storeReg]
  split_ifs with h0 h1
  · simp [h0]
  · simp [h1]
  · by_cases h8 : 8 ≤ j
    · simp [h0, h1, h8, Bool.and_comm, show j - 8 < 8 ↔ j < 16 by omega]
    · simp [h0, h1, h8]

/-! The reserved bits read 0 (10_state R42). -/

theorem readReg_ctrl_reserved (s : State) : readReg s .ctrl &&& 0xFFFFFFFE = 0 := by
  refine and_eq_zero_of_bits fun j lt hm => ?_
  have place : j ≠ 0 := by revert j; decide
  exact (ctrlWord_getLsbD s j).trans (by simp [place])

theorem readReg_status_reserved (s : State) : readReg s .status &&& 0xFFFFFFF0 = 0 := by
  refine and_eq_zero_of_bits fun j lt hm => ?_
  have place : j ≠ 0 ∧ j ≠ 1 ∧ j ≠ 2 ∧ j ≠ 3 := by revert j; decide
  exact (statusWord_getLsbD s j).trans (by simp [place])

theorem readReg_errCode_reserved (s : State) : readReg s .errCode &&& 0xFFFFFF00 = 0 := by
  refine and_eq_zero_of_bits fun j lt hm => ?_
  have place : 8 ≤ j := by revert j; decide
  simp [readReg, place]

theorem readReg_resFlag_reserved (s : State) : readReg s .resFlag &&& 0xFFFFFFFE = 0 := by
  refine and_eq_zero_of_bits fun j lt hm => ?_
  have place : j ≠ 0 := by revert j; decide
  exact (bitAt_getLsbD _ (by decide) j).trans (by simp [place])

theorem readReg_size_reserved (s : State) : ∀ r ∈ [Reg.width, .height], readReg s r &&& 0xFFFF0000 = 0 := by
  have high (x : BitVec 16) : x.zeroExtend 32 &&& (0xFFFF0000 : Word) = 0 := by
    refine and_eq_zero_of_bits fun j lt hm => ?_
    have place : 16 ≤ j := by revert j; decide
    simp [place]
  simp only [List.forall_mem_cons]
  exact ⟨high s.width, high s.height, nofun⟩

theorem readReg_policy_reserved (s : State) : readReg s .policy &&& 0xFFFF00FC = 0 := by
  refine and_eq_zero_of_bits fun j lt hm => ?_
  have place : j ≠ 0 ∧ j ≠ 1 ∧ (8 ≤ j → 8 ≤ j - 8) := by revert j; decide
  obtain ⟨h0, h1, h8⟩ := place
  rw [readReg, policyWord_getLsbD, if_neg h0, if_neg h1]
  by_cases le : 8 ≤ j
  · simp [BitVec.getLsbD_of_ge _ _ (h8 le)]
  · simp [le]

/-! A write to a field takes no notice of the register's reserved bits (10_state R42). -/

/-! Masks of a whole field, in the form in which `simp` leaves them. -/

@[simp] theorem and_allOnes8 (x : BitVec 8) : x &&& 0xFF#8 = x := BitVec.and_allOnes

@[simp] theorem and_allOnes16 (x : BitVec 16) : x &&& 0xFFFF#16 = x := BitVec.and_allOnes

theorem storeReg_ctrl_masked (s : State) (v : Word) :
    storeReg s .ctrl v = storeReg s .ctrl (v &&& 0x00000001) := by
  simp [storeReg]

theorem storeReg_status_masked (s : State) (v : Word) :
    storeReg s .status v = storeReg s .status (v &&& 0x0000000F) := by
  simp [storeReg]

theorem storeReg_size_masked (s : State) (v : Word) :
    ∀ r ∈ [Reg.width, .height], storeReg s r v = storeReg s r (v &&& 0x0000FFFF) := by
  simp [storeReg, BitVec.extractLsb'_and]

theorem storeReg_policy_masked (s : State) (v : Word) :
    storeReg s .policy v = storeReg s .policy (v &&& 0x0000FF03) := by
  simp [storeReg, BitVec.extractLsb'_and]

/-! PARAM as a number (10_state R24). -/

theorem bitAt_toNat (b : Bool) {i : Nat} (h : i < 32) : (bitAt b i).toNat = 2 ^ i * b.toNat := by
  have bit := b.toNat_lt
  have fits : b.toNat * 2 ^ i < 2 ^ 32 := calc
    b.toNat * 2 ^ i ≤ 1 * 2 ^ i := Nat.mul_le_mul_right _ (by omega)
    _ = 2 ^ i := one_mul _
    _ < 2 ^ 32 := Nat.pow_lt_pow_right (by decide) h
  rw [bitAt, BitVec.toNat_shiftLeft, zext32_toNat (by omega), Nat.shiftLeft_eq, Nat.mod_eq_of_lt fits, mul_comm]

/-- Fields that do not meet add up. -/
theorem or_two_pow_mul {i low : Nat} (h : low < 2 ^ i) (high : Nat) : low ||| 2 ^ i * high = low + 2 ^ i * high := by
  rw [Nat.or_comm, ← Nat.two_pow_add_eq_or_of_lt h, Nat.add_comm]

theorem paramWord_toNat (p : Params) :
    (paramWord p).toNat = p.hasComp.toNat + 2 * p.hasCipher.toNat + 256 * p.nonceBytes + 65536 * p.tagBytes.toNat := by
  have comp := p.hasComp.toNat_lt
  have cipher := p.hasCipher.toNat_lt
  have nonce : p.nonceBytes < 256 := by have := p.noncePred.isLt; unfold Params.nonceBytes; omega
  have tag := p.tagBytes.isLt
  have nonceField : (zext32 p.nonceBytes <<< 8).toNat = 2 ^ 8 * p.nonceBytes := by
    rw [BitVec.toNat_shiftLeft, zext32_toNat (by omega), Nat.shiftLeft_eq]
    omega
  have tagField : (p.tagBytes.zeroExtend 32 <<< 16).toNat = 2 ^ 16 * p.tagBytes.toNat := by
    rw [BitVec.toNat_shiftLeft, BitVec.zeroExtend, BitVec.toNat_setWidth, Nat.shiftLeft_eq]
    omega
  rw [paramWord, BitVec.toNat_or, BitVec.toNat_or, BitVec.toNat_or, bitAt_toNat _ (by decide),
    bitAt_toNat _ (by decide), nonceField, tagField, pow_zero, one_mul, or_two_pow_mul (i := 1) (by omega),
    or_two_pow_mul (i := 8) (by omega), or_two_pow_mul (i := 16) (by omega)]
  omega

/-! The statements. -/

/-- Settles O25: idle, a write is stored; each register reads its implemented bits back, and no other shows it. -/
theorem writableRegistersReadBack : Obligations.WritableRegistersReadBack := by
  intro s v idle
  simp only [writeReg_idle idle]
  exact ⟨readReg_store_ctrl s v, rfl, by simp [readReg, storeReg], readReg_store_size s v, readReg_store_policy s v,
    fun k => ⟨storeReg_key_same s k v, rfl, fun j ne => storeReg_key_other s v ne⟩,
    fun r r' ne ns => readReg_storeReg_other s v ne ns,
    fun r => ⟨storeReg_mem s r v, fun h => storeReg_key_of_not_key h s v⟩⟩

/-- Settles O26: the three registers read no state but the parameters, and ignore writes. -/
theorem identificationRegistersAreConstant : Obligations.IdentificationRegistersAreConstant := by
  intro s v
  exact ⟨rfl, rfl, paramWord_toNat s.params, writeReg_unlocked rfl s v, writeReg_unlocked rfl s v,
    writeReg_unlocked rfl s v⟩

/-- Settles O27: CTRL and STATUS bit by bit, what a write to each stores, and the flags that completions, starts and
lost writes set or clear. -/
theorem statusAndControlBits : Obligations.StatusAndControlBits := by
  intro s v
  have ctrl (b : Nat) : (readReg s .ctrl).getLsbD b = (s.irqEn && decide (b = 0)) := ctrlWord_getLsbD s b
  have status (b : Nat) : (readReg s .status).getLsbD b = if b = 0 then s.busyBit else if b = 1 then s.done else
      if b = 2 then s.errBit else if b = 3 then s.ovr else false := statusWord_getLsbD s b
  refine ⟨(ctrl 0).trans (Bool.and_true _), ?_, writeReg_unlocked rfl s v, ?_, status 1, ?_, status 3, ?_,
    writeReg_unlocked rfl s v, ?_, ?_, ?_, ?_⟩
  · intro b hb
    simp [ctrl, Nat.ne_of_gt hb]
  · rw [status]
    simp [State.busyBit]
  · rw [status]
    simp [State.errBit]
  · intro b hb
    simp [status, show b ≠ 0 ∧ b ≠ 1 ∧ b ≠ 2 ∧ b ≠ 3 by omega]
  · intro i
    exact ⟨_, exec_eq_complete i s, State.complete_done s _⟩
  · exact ⟨_, rfl, State.complete_done s _⟩
  · intro idle
    rw [writeReg_idle idle]
    exact State.start_done s v
  · intro r hl busy
    rw [writeReg_locked_busy hl busy]

/-- Settles O28: the lock refuses a write exactly while busy, and OVR and the start are the stored write's. -/
theorem lockedWritesWhileBusyAreLost : Obligations.LockedWritesWhileBusyAreLost := by
  intro s r v isLocked
  refine ⟨fun hl busy => writeReg_locked_busy ((locked_iff r).mpr hl) busy v, ?_, ?_⟩
  · rintro (idle | free)
    · exact ⟨writeReg_idle idle r v, storeReg_ovr s r v⟩
    · have : locked r = false := Bool.eq_false_iff.mpr fun hl => free ((locked_iff r).mp hl)
      exact ⟨writeReg_unlocked this s v, storeReg_ovr s r v⟩
  · intro idle
    rw [writeReg_idle idle, storeReg_seq, idle]

/-- Settles O29: no register lies at a reserved offset, and no reserved bit of a register is read or stored. -/
theorem reservedOffsetsAndBitsAreZero : Obligations.ReservedOffsetsAndBitsAreZero := by
  intro s v
  refine ⟨fun off aligned reserved => ?_, readReg_ctrl_reserved s, writeReg_congr (storeReg_ctrl_masked s v),
    readReg_status_reserved s, writeReg_congr (storeReg_status_masked s v), readReg_errCode_reserved s,
    readReg_resFlag_reserved s,
    fun r hr => ⟨readReg_size_reserved s r hr, writeReg_congr (storeReg_size_masked s v r hr)⟩,
    readReg_policy_reserved s, writeReg_congr (storeReg_policy_masked s v)⟩
  have vacant : regAt off = none := regAt_reserved (by omega)
  refine ⟨readOffset_of_regAt_none vacant s, writeOffset_of_regAt_none vacant s v, fun m rest he hh => ⟨?_, ?_⟩⟩
  · rintro rfl
    exact step_regRead_reserved vacant (by omega) aligned he hh
  · rintro rfl
    exact step_regWrite_reserved vacant (by omega) aligned he hh

end Sys2Proof.Machine
end

section
/-! What a command leaves behind and what the host can disturb (10_state R44, R45, R47): only a completion or a reset
changes the results, and nothing of an earlier command bears on a later one. -/

namespace Sys2Proof.Machine

/-! Between an accepted start and its completion (70_reset_and_hazards R242). -/

/-- The results and the report stay, and while a command runs its operands, its word and its running. -/
def KeepsCommand (s t : State) : Prop :=
  SameOutcome s t ∧ (s.seq = .busy → SameOperands s t ∧ t.cmd = s.cmd ∧ t.seq = .busy)

/-- CTRL, the flags, memory and the host's side are no part of a command. -/
theorem keepsCommand_of_rest (s : State) (irqEn done ovr : Bool) (mem : Memory) (host : List HostMove)
    (replies : List HostReply) (delay : Nat) :
    KeepsCommand s { s with irqEn := irqEn, done := done, ovr := ovr, mem := mem, host := host, replies := replies,
                            delay := delay } :=
  ⟨⟨rfl, rfl, rfl, rfl, rfl, rfl⟩,
    fun busy => ⟨⟨rfl, rfl, rfl, rfl, rfl, rfl, rfl, rfl, rfl, rfl, rfl, rfl⟩, rfl, busy⟩⟩

/-- Every move of the host but a reset keeps the command. -/
theorem hostTurn_keepsCommand {s t : State} (h : hostTurn s = .next t) (nr : ∀ rest, s.host ≠ .reset :: rest) :
    KeepsCommand s t := by
  rcases hostTurn_cases h with
    ⟨rfl, -⟩ | ⟨m, rest, hh, ⟨r, rfl⟩ | rfl | ⟨r, v, rfl⟩ | ⟨a, b, -, -, rfl⟩ | ⟨rfl, -⟩⟩
  · exact keepsCommand_of_rest t _ _ _ _ _ _ _
  · exact keepsCommand_of_rest s _ _ _ _ _ _ _
  · exact keepsCommand_of_rest s _ _ _ _ _ _ _
  · obtain ⟨-, -, -, -, outcome⟩ := writeReg_keeps { s with host := rest, delay := s.delay - 1 } r v
    refine ⟨⟨outcome.resLen, outcome.resAux, outcome.resFlag, outcome.errCode, outcome.errReq, outcome.errAvail⟩,
      fun busy => ?_⟩
    rw [writeReg_busy (s := { s with host := rest, delay := s.delay - 1 }) busy]
    exact (keepsCommand_of_rest s _ _ _ _ _ _ _).2 busy
  · exact keepsCommand_of_rest s _ _ _ _ _ _ _
  · exact absurd hh (nr rest)

/-- Settles O14: a step that is no completion is the host's turn. -/
theorem onlyCompletionChangesResults : Obligations.OnlyCompletionChangesResults := by
  intro s t he nr h
  exact hostTurn_keepsCommand (step_of_not_engineMoves he ▸ h) nr

/-! What a command's checks and body read (40_command_engine R105). -/

/-- `s` with everything of `h` that is no operand, no parameter and no memory: its flags, CMD, results and report, and
the model's own fields. -/
def State.withHistoryOf (s h : State) : State :=
  { h with
    params := s.params, srcAddr := s.srcAddr, srcLen := s.srcLen, dstAddr := s.dstAddr, dstMax := s.dstMax
    gsrcAddr := s.gsrcAddr, gdstAddr := s.gdstAddr, width := s.width, height := s.height, comp := s.comp
    enc := s.enc, keyLen := s.keyLen, key := s.key, mem := s.mem }

/-- A state with the operands, parameters and memory of `s` is `s` with another history. -/
theorem eq_withHistoryOf {s s' : State} (ops : SameOperands s s') (params : s'.params = s.params)
    (mem : s'.mem = s.mem) : s' = s.withHistoryOf s' := by
  obtain ⟨srcAddr, srcLen, dstAddr, dstMax, gsrcAddr, gdstAddr, width, height, comp, enc, keyLen, key⟩ := ops
  simp only [State.withHistoryOf, ← srcAddr, ← srcLen, ← dstAddr, ← dstMax, ← gsrcAddr, ← gdstAddr, ← width,
    ← height, ← comp, ← enc, ← keyLen, ← key, ← params, ← mem]

/-- The checks read operands and parameters only (40_command_engine R106). -/
theorem precheck_withHistoryOf (i : Instr) (s h : State) : precheck i (s.withHistoryOf h) = precheck i s := by
  cases i <;> rfl

/-- The draw that two states with the same parameters take, if they have taken as many before. -/
theorem nonce_withHistoryOf {s h : State} (draws : h.draws = s.draws) : (s.withHistoryOf h).nonce = s.nonce :=
  congrArg (fun n => (List.range s.params.nonceBytes).map (Config.nonceByte n)) draws

/-- With ENC = 0 the payload of ENCODE has no nonce (42_payload_pipeline R131). -/
theorem encodePayload_withHistoryOf (st : Stages) {s h : State} (draw : s.enc = true → h.draws = s.draws) :
    encodePayload st (s.withHistoryOf h) = encodePayload st s := by
  cases enc : s.enc with
  | false =>
    rw [encodePayload, encodePayload, show (s.withHistoryOf h).enc = s.enc from rfl, enc]
    rfl
  | true =>
    rw [encodePayload, encodePayload, nonce_withHistoryOf (draw enc)]
    rfl

/-- A body reads operands, parameters, memory and, where the command uses it, the draw (40_command_engine R102). -/
theorem bodyOf_withHistoryOf (i : Instr) (s h : State) (draw : UsesDraw i s → h.draws = s.draws) :
    bodyOf i (s.withHistoryOf h) = bodyOf i s := by
  cases i with
  | sealBlob =>
    simp only [bodyOf, sealBody, nonce_withHistoryOf (draw (.inl rfl))]
    rfl
  | encode =>
    simp only [bodyOf, encodeBody, encodePayload_withHistoryOf _ fun enc => draw (.inr ⟨rfl, enc⟩)]
    rfl
  | _ => rfl

/-- Results alike complete states with the same memory alike. -/
theorem State.complete_sameOutcome {s s' : State} (mem : s'.mem = s.mem) (r : Result) :
    SameOutcome (s.complete r) (s'.complete r) ∧ (s'.complete r).mem = (s.complete r).mem := by
  cases r with
  | ok c => exact ⟨⟨rfl, rfl, rfl, rfl, rfl, rfl⟩, congrArg (·.writeAll c.writes) mem⟩
  | error e => exact ⟨⟨rfl, rfl, rfl, rfl, rfl, rfl⟩, mem⟩

/-- Settles O18: such states differ in their history only, so their checks and bodies give the same result. -/
theorem nothingOfACommandSurvives : Obligations.NothingOfACommandSurvives := by
  intro i s s' ops params mem draw
  have result : checkedResult i s' (bodyOf i s') = checkedResult i s (bodyOf i s) := by
    rw [eq_withHistoryOf ops params mem, checkedResult, precheck_withHistoryOf, bodyOf_withHistoryOf i s s' draw,
      checkedResult]
  refine ⟨_, _, exec_eq_complete i s, exec_eq_complete i s', ?_⟩
  rw [result]
  exact State.complete_sameOutcome mem _

end Sys2Proof.Machine
end

section
/-! The KEY script (30_encoding R89): eight writes to the key registers, from an idle block (10_state R37, R38). -/

namespace Sys2Proof.Machine

/-- A run begins with its first step. -/
theorem run_succ_of_step {s u : State} (h : step s = .next u) (n : Nat) :
    Host.Core.run core (n + 1) s = Host.Core.run core n u := by
  have first : core.step s = .next u := h
  simp only [Host.Core.run, first]

/-! The moves of the script. -/

/-- Writes to the key registers `ks` of the words that `f` gives. -/
def keyWrites (f : Fin 8 → Word) (ks : List (Fin 8)) : List HostMove :=
  ks.map fun k => .regWrite (Reg.key k).offset (f k)

/-- The word that the KEY script writes to a key register. -/
def scriptKeyWord (bs : Bytes) (k : Fin 8) : Word := keyWord ((bs.drop (4 * k.val)).take 4)

theorem scriptKey_eq_keyWrites (bs : Bytes) : scriptKey bs = keyWrites (scriptKeyWord bs) (List.finRange 8) := rfl

/-- Idle, a write to a key register is stored in it and in no other, and the block stays idle. -/
theorem step_keyWrite {s : State} {k : Fin 8} {w : Word} {rest : List HostMove} (idle : s.seq = .idle)
    (hh : s.host = .regWrite (Reg.key k).offset w :: rest) :
    ∃ u, step s = .next u ∧ u.seq = .idle ∧ u.host = rest ∧ u.key[k] = w ∧ ∀ j, j ≠ k → u.key[j] = s.key[j] := by
  refine ⟨_, step_regWrite_offset (engineMoves_of_idle idle) hh, ?_⟩
  rw [writeReg_idle (s := { s with host := rest, delay := s.delay - 1 }) idle]
  exact ⟨idle, rfl, storeReg_key_same _ k w, fun j ne => storeReg_key_other _ w ne⟩

/-- Idle, the host's writes to key registers are stored one a step. -/
theorem run_keyWrites (f : Fin 8 → Word) (ks : List (Fin 8)) (rest : List HostMove) {s : State}
    (idle : s.seq = .idle) (hh : s.host = keyWrites f ks ++ rest) :
    ∃ t, Host.Core.run core ks.length s = .next t ∧ t.host = rest ∧
      ∀ k : Fin 8, t.key[k] = if k ∈ ks then f k else s.key[k] := by
  induction ks generalizing s with
  | nil => exact ⟨s, rfl, hh, fun k => by simp⟩
  | cons k ks ih =>
    obtain ⟨u, first, idle', hh', same, other⟩ := step_keyWrite idle hh
    obtain ⟨t, run, host, keys⟩ := ih idle' hh'
    refine ⟨t, (run_succ_of_step first _).trans run, host, fun j => ?_⟩
    rw [keys j]
    by_cases later : j ∈ ks
    · simp [later]
    · by_cases now : j = k
      · subst now
        simpa [later] using same
      · simpa [later, now] using other j now

/-! The key as bytes. -/

/-- The bits of a byte placed at byte `n` of a word. -/
theorem placedByte_getLsbD (x : Byte) {n i b : Nat} (hi : i < 4) (hb : b < 8) :
    (x.zeroExtend 32 <<< (8 * n)).getLsbD (8 * i + b) = (decide (n = i) && x.getLsbD b) := by
  rw [BitVec.getLsbD_shiftLeft, BitVec.zeroExtend, BitVec.getLsbD_setWidth]
  rcases Nat.lt_trichotomy n i with lt | rfl | gt
  · simp [BitVec.getLsbD_of_ge x (8 * i + b - 8 * n) (by omega), Nat.ne_of_lt lt]
  · simp [show 8 * n + b < 32 by omega, show b < 32 by omega]
  · simp [show 8 * i + b < 8 * n by omega, Nat.ne_of_gt gt]

/-- The four bytes of a key word, the first in the least significant byte (10_state R38). -/
theorem keyWord_extractLsb' (bs : Bytes) {i : Nat} (h : i < 4) :
    (keyWord bs).extractLsb' (8 * i) 8 = bs.getD i 0 := by
  have places : keyWord bs = (bs.getD 0 0).zeroExtend 32 <<< (8 * 0) ||| (bs.getD 1 0).zeroExtend 32 <<< (8 * 1) |||
      (bs.getD 2 0).zeroExtend 32 <<< (8 * 2) ||| (bs.getD 3 0).zeroExtend 32 <<< (8 * 3) := by
    rw [Nat.mul_zero, BitVec.shiftLeft_zero]
    rfl
  apply BitVec.eq_of_getLsbD_eq
  intro b hb
  rw [BitVec.getLsbD_extractLsb', places]
  simp only [BitVec.getLsbD_or, placedByte_getLsbD _ h hb]
  interval_cases i <;> simp [hb]

theorem State.keyByte_eq (s : State) {j : Nat} (h : j < 32) :
    s.keyByte j = (s.key[j / 4]'(by omega)).extractLsb' (8 * (j % 4)) 8 := by
  rw [State.keyByte, List.getD_eq_getElem _ _ (by simp; omega), Vector.getElem_toList]

theorem State.keyBytes_getElem? (s : State) {j : Nat} (h : j < 32) :
    s.keyBytes[j]? = (s.key[j / 4]?).map fun w => w.extractLsb' (8 * (j % 4)) 8 := by
  simp [State.keyBytes, h, State.keyByte_eq s h, show j / 4 < 8 by omega]

/-- Settles O33: the eight writes fill the eight key registers, and each register's word holds four of the bytes. -/
theorem keyScriptLoadsTheKey : Obligations.KeyScriptLoadsTheKey := by
  intro s bs rest idle len hh
  obtain ⟨t, run, host, keys⟩ := run_keyWrites (scriptKeyWord bs) (List.finRange 8) rest idle hh
  refine ⟨t, run, ?_, host, fun j h => t.keyBytes_getElem? h⟩
  apply List.ext_getElem
  · simp [State.keyBytes, len]
  · intro j h1 h2
    have word : t.key[j / 4]'(by omega) = scriptKeyWord bs ⟨j / 4, by omega⟩ := by
      simpa using keys ⟨j / 4, by omega⟩
    simp only [State.keyBytes, List.getElem_map, List.getElem_range]
    rw [State.keyByte_eq t (len ▸ h2), word, scriptKeyWord, keyWord_extractLsb' _ (by omega),
      List.getD_eq_getElem _ _ (by simp; omega), List.getElem_take, List.getElem_drop]
    simp only [Nat.div_add_mod]

end Sys2Proof.Machine
end

section
/-! Data memory over a step (20_memory R61, R62, R78): a completion writes one block inside the command's written
region or nothing, the host writes single bytes, a reset frees bytes that exist; so memory stays canonical. -/

namespace Sys2Proof.Machine

/-- All that a completion can do to memory: nothing, or, on success, one block in the command's one written region,
empty or below 2^32 (40_command_engine R104, R108, R110). -/
theorem exec_mem_cases {i : Instr} {s t : State} (h : exec i s = .next t) :
    t.mem = s.mem ∨
      t.errCode = 0 ∧ ∃ r out, writtenRegions i s = [r] ∧ out.length ≤ r.2 ∧
        (out = [] ∨ r.1 + out.length ≤ 2 ^ 32) ∧ t.mem = s.mem.writeBytes r.1 out := by
  rw [exec_eq_complete] at h
  obtain rfl := Host.Outcome.next.inj h
  rcases checkedResult_cases i s (bodyOf i s) with ⟨e, -, result⟩ | ⟨pass, result⟩
  · exact .inl (by rw [result, State.complete_error_mem])
  · rw [result]
    cases body : bodyOf i s with
    | error e => exact .inl (State.complete_error_mem s e)
    | ok c =>
      rw [State.complete_ok_mem]
      rcases bodyOf_ok body with nothing | ⟨r, out, region, block, len⟩
      · exact .inl (by rw [nothing, Memory.writeAll_nil])
      · exact .inr ⟨rfl, r, out, region, len, pass.fits (by simp [region]) len, by
          rw [block, Memory.writeAll_cons, Memory.writeAll_nil]⟩

/-- Every command answers a completed state (40_command_engine R104). -/
theorem exec_completes (i : Instr) (s : State) : ∃ t, exec i s = .next t ∧ Completes s t :=
  ⟨_, exec_eq_complete i s, s.complete_completes _⟩

/-- A command that fails writes no byte (20_memory R78). -/
theorem exec_mem_of_error {i : Instr} {s t : State} (h : exec i s = .next t) (failed : t.errCode ≠ 0) :
    t.mem = s.mem := by
  rcases exec_mem_cases h with same | ⟨ok, -⟩
  · exact same
  · exact absurd ok failed

/-- A command writes no byte outside its written regions (20_memory R78). -/
theorem exec_read_outside {i : Instr} {s t : State} (h : exec i s = .next t) {x : Nat}
    (out : ∀ r ∈ writtenRegions i s, x < r.1 ∨ r.1 + r.2 ≤ x) : t.mem.read x = s.mem.read x := by
  rcases exec_mem_cases h with same | ⟨-, r, bytes, region, len, -, mem⟩
  · rw [same]
  · have outside := out r (by simp [region])
    rw [mem, Memory.read_writeBytes_other s.mem (by omega)]

/-- Settles O15: a completion's one block lies in the written region, and an error writes none. -/
theorem commandsWriteOnlyTheirRegions : Obligations.CommandsWriteOnlyTheirRegions := by
  refine ⟨fun i s => ?_, fun s => ⟨_, rfl, s.complete_completes _, rfl⟩⟩
  obtain ⟨t, h, completes⟩ := exec_completes i s
  exact ⟨t, h, completes, exec_mem_of_error h, fun _ => exec_read_outside h⟩

/-- A command's completion keeps memory canonical: an admitted region lies below 2^32 (20_memory R61). -/
theorem exec_mem_wf {i : Instr} {s t : State} (wf : s.mem.wf = true) (h : exec i s = .next t) : t.mem.wf = true := by
  rcases exec_mem_cases h with same | ⟨-, r, out, -, -, fits, mem⟩
  · rwa [same]
  · rw [mem]
    exact (Memory.writeBytes_stores wf fits).1

/-- The completion of an illegal word writes nothing (30_encoding R86). -/
theorem illegalCommand_mem {s t : State} (h : illegalCommand s = .next t) : t.mem = s.mem := by
  rw [← Host.Outcome.next.inj h, State.complete_error_mem]

/-- The host's turn keeps memory canonical, whatever move it makes (70_reset_and_hazards R232, R247). -/
theorem hostTurn_mem_wf {s t : State} (wf : s.mem.wf = true) (h : hostTurn s = .next t) : t.mem.wf = true := by
  rcases hostTurn_cases h with
    ⟨rfl, -⟩ | ⟨m, rest, -, ⟨r, rfl⟩ | rfl | ⟨r, v, rfl⟩ | ⟨a, b, below, -, rfl⟩ | ⟨-, rfl⟩⟩
  · exact wf
  · exact wf
  · exact wf
  · obtain ⟨-, mem, -⟩ := writeReg_keeps { s with host := rest, delay := s.delay - 1 } r v
    rwa [mem]
  · exact Memory.write_wf wf b below
  · exact scrambleAll_wf _ wf _

/-- Settles O9: a step is a command's completion, an illegal word's completion or the host's turn, and each keeps
memory canonical. -/
theorem memoryStaysCanonical : Obligations.MemoryStaysCanonical := by
  intro s t wf h
  rcases step_cases s with ⟨-, i, -, e⟩ | ⟨-, -, e⟩ | ⟨-, e⟩
  · exact exec_mem_wf wf (e ▸ h)
  · rwa [illegalCommand_mem (e ▸ h)]
  · exact hostTurn_mem_wf wf (e ▸ h)

end Sys2Proof.Machine
end

section
/-! The decoder and the encoder (30_encoding R80–R86): a word is its three fields, each command has one word and one
row of the table, and the words of no command. -/

namespace Sys2Proof.Machine

/-! The fields of a word (30_encoding R80). -/

/-- OP, F and the reserved bits make up the whole word. -/
theorem word_eq_of_fields {w v : Word} (reserved : reservedField w = reservedField v)
    (flag : flagField w = flagField v) (op : opField w = opField v) : w = v := by
  apply BitVec.eq_of_getLsbD_eq
  intro j lt
  rcases Nat.lt_trichotomy j 8 with low | rfl | high
  · simpa [opField, low] using congrArg (·.getLsbD j) op
  · exact flag
  · obtain ⟨k, rfl⟩ := Nat.exists_eq_add_of_le (show 9 ≤ j from high)
    have inside : k < 23 := by omega
    simpa [reservedField, inside] using congrArg (·.getLsbD k) reserved

/-- Every command's word fits the table. -/
theorem wordFits : ∀ i : Instr, Laws.WordFits.Statement i
  | .ser => Laws.WordFits.ser
  | .deser => Laws.WordFits.deser
  | .compress => Laws.WordFits.compress
  | .decompress => Laws.WordFits.decompress
  | .sealBlob => Laws.WordFits.sealBlob
  | .openBlob => Laws.WordFits.openBlob
  | .frameBuild flag => Laws.WordFits.frameBuild flag
  | .frameParse => Laws.WordFits.frameParse
  | .embed => Laws.WordFits.embed
  | .extract => Laws.WordFits.extract
  | .capacity => Laws.WordFits.capacity
  | .encode => Laws.WordFits.encode
  | .decode => Laws.WordFits.decode

theorem reservedField_encode (i : Instr) : reservedField (encode i) = 0 := by
  obtain ⟨-, -, reserved, -⟩ := wordFits i
  exact reserved

/-- No command but FRAME_BUILD has the flag (30_encoding R82). -/
theorem flagField_encode {i : Instr} (h : ∀ f, i ≠ .frameBuild f) : flagField (encode i) = false := by
  obtain ⟨-, -, -, flag⟩ := wordFits i
  exact Bool.eq_false_iff.mpr fun set => h true (flag.mp set)

theorem flagField_encode_frameBuild (f : Bool) : flagField (encode (.frameBuild f)) = f := by
  cases f <;> rfl

theorem opField_encode_frameBuild (f : Bool) : opField (encode (.frameBuild f)) = 0x20#8 := by
  cases f <;> rfl

/-! What decodes (30_encoding R85). -/

/-- An operation number that decodes is the command's own. -/
theorem op_eq_of_decodeOp {op : Byte} {i : Instr} (h : decodeOp op = .ok i) :
    op = opField (encode i) ∧ ∀ f, i ≠ .frameBuild f := by
  unfold decodeOp at h
  split at h <;> cases h <;> exact ⟨rfl, nofun⟩

/-- The two ways in which a word decodes: as FRAME_BUILD with either flag, or by its operation number with F = 0. -/
theorem decode_eq_ok_iff (w : Word) (i : Instr) :
    decode w = .ok i ↔ reservedField w = 0#23 ∧
      (opField w = 0x20#8 ∧ i = .frameBuild (flagField w) ∨
        opField w ≠ 0x20#8 ∧ flagField w = false ∧ decodeOp (opField w) = .ok i) := by
  by_cases reserved : reservedField w = 0#23
  · by_cases op : opField w = 0x20#8
    · simp [decode, reserved, op, eq_comm (a := i)]
    · cases flag : flagField w <;> simp [decode, reserved, op, flag]
  · simp [decode, reserved]

theorem decode_encode (i : Instr) : decode (encode i) = .ok i := by
  cases i with
  | frameBuild flag => cases flag <;> rfl
  | _ => rfl

/-- A word that decodes has the fields of the command's word. -/
theorem eq_encode_of_decode {w : Word} {i : Instr} (h : decode w = .ok i) : w = encode i := by
  obtain ⟨reserved, ⟨op, rfl⟩ | ⟨-, flag, h⟩⟩ := (decode_eq_ok_iff w i).mp h
  · exact word_eq_of_fields (reserved.trans (reservedField_encode _).symm) (flagField_encode_frameBuild _).symm
      (op.trans (opField_encode_frameBuild _).symm)
  · obtain ⟨op, plain⟩ := op_eq_of_decodeOp h
    exact word_eq_of_fields (reserved.trans (reservedField_encode i).symm) (flag.trans (flagField_encode plain).symm) op

/-- Settles O1: the decoder answers each command's own word, and a word's fields determine it. -/
theorem decodeExactlyInvertsEncode : Obligations.DecodeExactlyInvertsEncode :=
  fun _ i => ⟨eq_encode_of_decode, fun own => own ▸ decode_encode i⟩

/-- Settles O4: five of the words are commands' own, and each of the others fails one test of R85. -/
theorem sampleWordsDecode : Obligations.SampleWordsDecode :=
  ⟨decode_encode .ser, decode_encode .openBlob, decode_encode (.frameBuild true), decode_encode .embed,
    decode_encode .decode, by decide, by decide, by decide⟩

/-! The rows of the table (30_encoding R84). -/

/-- The bits of a word that its row looks at: all but FRAME_BUILD's flag. -/
def maskOf : Instr → Word
  | .frameBuild _ => 0xFFFFFEFF
  | _ => BitVec.allOnes 32

/-- The row of a command. -/
def rowOf (i : Instr) : OpcodeRow := ⟨mnemonicOf i, encode i &&& maskOf i, maskOf i⟩

theorem rowOf_mem (i : Instr) : rowOf i ∈ opcodeTable := by
  cases i with
  | frameBuild flag => cases flag <;> decide
  | _ => decide

/-- No two rows have the same mnemonic. -/
theorem eq_rowOf {r : OpcodeRow} {i : Instr} (mem : r ∈ opcodeTable) (name : r.mnemonic = mnemonicOf i) :
    r = rowOf i :=
  List.inj_on_of_nodup_map (f := OpcodeRow.mnemonic) (by decide : (opcodeTable.map _).Nodup) mem (rowOf_mem i) name

/-- FRAME_BUILD's mask leaves out the flag only. -/
theorem eq_of_masked_of_flag {w v : Word} (masked : w &&& 0xFFFFFEFF = v &&& 0xFFFFFEFF)
    (flag : flagField w = flagField v) : w = v := by
  have seen : ∀ j < 32, j ≠ 8 → (0xFFFFFEFF : Word).getLsbD j = true := by decide
  apply BitVec.eq_of_getLsbD_eq
  intro j lt
  by_cases at8 : j = 8
  · rw [at8]
    exact flag
  · have bit := congrArg (·.getLsbD j) masked
    simpa only [BitVec.getLsbD_and, seen j lt at8, Bool.and_true] using bit

/-- A word selects a command's row, with the command's flag, when it is the command's word. -/
theorem selects_rowOf_iff (w : Word) (i : Instr) :
    (w &&& (rowOf i).mask = (rowOf i).pattern ∧ ∀ f, i = .frameBuild f → f = w.getLsbD 8) ↔ w = encode i := by
  constructor
  · rintro ⟨selected, flag⟩
    cases i with
    | frameBuild f => exact eq_of_masked_of_flag selected ((flag f rfl).symm.trans (flagField_encode_frameBuild f).symm)
    | _ => simpa only [rowOf, maskOf, BitVec.and_allOnes] using selected
  · rintro rfl
    exact ⟨rfl, fun f own => own ▸ (flagField_encode_frameBuild f).symm⟩

/-- Rows that one word selects agree on the bits that both masks keep; no two rows of the table do. -/
theorem row_eq_of_selects {w : Word} {r r' : OpcodeRow} (mem : r ∈ opcodeTable) (mem' : r' ∈ opcodeTable)
    (selected : w &&& r.mask = r.pattern) (selected' : w &&& r'.mask = r'.pattern) : r = r' := by
  have apart : ∀ r ∈ opcodeTable, ∀ r' ∈ opcodeTable, r.pattern &&& r'.mask = r'.pattern &&& r.mask → r = r' := by
    decide
  apply apart r mem r' mem'
  rw [← selected, ← selected', BitVec.and_assoc, BitVec.and_assoc, BitVec.and_comm r.mask]

/-- Settles O2: a command's row is the one with its mnemonic, and a word selects it when it is the command's. -/
theorem tableRowsSelectTheDecodedCommand : Obligations.TableRowsSelectTheDecodedCommand := by
  refine fun w => ⟨fun i => ?_, fun r mem r' mem' => row_eq_of_selects mem mem'⟩
  rw [decodeExactlyInvertsEncode w i, ← selects_rowOf_iff]
  refine and_congr_left fun _ => ⟨fun selected => ⟨rowOf i, rowOf_mem i, selected, rfl⟩, ?_⟩
  rintro ⟨r, mem, selected, name⟩
  exact eq_rowOf mem name ▸ selected

/-! Illegal words (30_encoding R86). -/

/-- The thirteen operation numbers of 30_encoding R83. -/
def assignedOps : List Byte :=
  [0x01#8, 0x02#8, 0x10#8, 0x11#8, 0x12#8, 0x13#8, 0x20#8, 0x21#8, 0x22#8, 0x23#8, 0x24#8, 0x25#8, 0x26#8]

theorem opField_encode_mem (i : Instr) : opField (encode i) ∈ assignedOps := by
  cases i with
  | frameBuild flag => rw [opField_encode_frameBuild]; decide
  | _ => decide

/-- Every assigned operation number but FRAME_BUILD's is some command's. -/
theorem decodeOp_of_mem {op : Byte} (mem : op ∈ assignedOps) (ne : op ≠ 0x20#8) : ∃ i, decodeOp op = .ok i := by
  have answers : ∀ op ∈ assignedOps, op ≠ 0x20#8 → (decodeOp op).isOk = true := by decide
  cases h : decodeOp op with
  | ok i => exact ⟨i, rfl⟩
  | error e => simpa [h, Except.isOk, Except.toBool] using answers op mem ne

/-- Which words are commands. -/
theorem exists_decode_iff (w : Word) :
    (∃ i, decode w = .ok i) ↔
      reservedField w = 0#23 ∧ (flagField w = true → opField w = 0x20#8) ∧ opField w ∈ assignedOps := by
  constructor
  · rintro ⟨i, h⟩
    have assigned := opField_encode_mem i
    rw [← eq_encode_of_decode h] at assigned
    obtain ⟨reserved, ⟨op, -⟩ | ⟨-, flag, -⟩⟩ := (decode_eq_ok_iff w i).mp h
    · exact ⟨reserved, fun _ => op, assigned⟩
    · exact ⟨reserved, by simp [flag], assigned⟩
  · rintro ⟨reserved, flag, assigned⟩
    by_cases op : opField w = 0x20#8
    · exact ⟨_, (decode_eq_ok_iff w _).mpr ⟨reserved, .inl ⟨op, rfl⟩⟩⟩
    · obtain ⟨i, h⟩ := decodeOp_of_mem assigned op
      exact ⟨i, (decode_eq_ok_iff w i).mpr ⟨reserved, .inr ⟨op, Bool.eq_false_iff.mpr (mt flag op), h⟩⟩⟩

/-- A word is no command when it fails one of the three tests. -/
theorem illegal_iff (w : Word) :
    (∀ i, decode w ≠ .ok i) ↔
      (reservedField w ≠ 0#23 ∨ (flagField w = true ∧ opField w ≠ 0x20#8) ∨ opField w ∉ assignedOps) := by
  rw [← not_exists, exists_decode_iff, not_and_or, not_and_or, Classical.not_imp]

/-- The completion step of a word that is no command (40_command_engine R106). -/
theorem step_of_illegal {s : State} (moves : engineMoves s = true) (illegal : ∀ i, decode s.cmd ≠ .ok i) :
    step s = illegalCommand s := by
  rcases step_cases s with ⟨-, i, h, -⟩ | ⟨-, -, e⟩ | ⟨idle, -⟩
  · exact absurd h (illegal i)
  · exact e
  · simp [moves] at idle

/-- Settles O3: the words are those that fail a test of R85; CMD takes any word while idle; and such a word's
completion is an error's. -/
theorem illegalWordsCompleteWithIllegalCommand : Obligations.IllegalWordsCompleteWithIllegalCommand := by
  refine ⟨illegal_iff, fun s w idle _ => ?_, fun s moves illegal => ?_⟩
  · rw [writeReg_idle idle]
    exact ⟨rfl, rfl⟩
  · exact ⟨_, step_of_illegal moves illegal, s.complete_error_failsWith ⟨.illegalCommand, 0, 0⟩⟩

end Sys2Proof.Machine
end

section
/-! The command engine: which agent's step comes, an accepted start, and the flags while a command runs
(40_command_engine R100–R104). -/

namespace Sys2Proof.Machine

/-- A running command's completion comes at once when the host only waits for it or its delay is over (log 4). -/
theorem engineMoves_of_busy {s : State} (busy : s.seq = .busy) (now : hostIdles s = true ∨ s.delay = 0) :
    engineMoves s = true := by
  simpa [engineMoves, State.busyBit, busy] using now

theorem hostIdles_of_nil {s : State} (hh : s.host = []) : hostIdles s = true := by
  simp [hostIdles, hh]

theorem hostIdles_of_wait {s : State} {rest : List HostMove} (hh : s.host = .wait :: rest) (hd : s.done = false) :
    hostIdles s = true := by
  simp [hostIdles, hh, hd]

theorem step_of_decode {s : State} {i : Instr} (moves : engineMoves s = true) (h : decode s.cmd = .ok i) :
    step s = exec i s := by
  simp [step, moves, h]

/-- All 32 bits of a fetched word come to CMD (log 11). -/
theorem withFetchWord_32 (s : State) {w : Nat} (lt : w < 2 ^ 32) :
    s.withFetchWord 32 w = s.commandAtHand (BitVec.ofNat 32 w) := by
  rw [State.withFetchWord, Nat.mod_eq_of_lt lt]

/-- Settles O5: the step's two branches, and the states in which the engine has the move. -/
theorem stepRunsTheDecodedCommand : Obligations.StepRunsTheDecodedCommand := by
  refine fun s => ⟨fun i => step_of_decode, step_of_not_engineMoves, engineMoves_of_idle, ?_, fun i w lt h => ?_⟩
  · rintro busy (empty | due | ⟨rest, polls, hd⟩)
    · exact engineMoves_of_busy busy (.inl (hostIdles_of_nil empty))
    · exact engineMoves_of_busy busy (.inr due)
    · exact engineMoves_of_busy busy (.inl (hostIdles_of_wait polls hd))
  · rw [withFetchWord_32 s lt]
    exact step_of_decode (engineMoves_of_busy rfl (.inr rfl)) h

/-- Settles O6: the write at CMD's offset is CMD's write, which starts while idle and is lost while busy. -/
theorem startSetsBusyAndNothingElse : Obligations.StartSetsBusyAndNothingElse := by
  refine fun s w rest hh => ⟨fun idle => ?_, fun busy he => ?_⟩
  · refine ⟨_, step_regWrite_offset (r := .cmd) (engineMoves_of_idle idle) hh, ?_⟩
    rw [writeReg_idle (s := { s with host := rest, delay := s.delay - 1 }) idle]
    exact ⟨rfl, rfl, rfl, rfl, rfl⟩
  · refine ⟨_, step_regWrite_offset (r := .cmd) he hh, ?_⟩
    rw [writeReg_locked_busy (s := { s with host := rest, delay := s.delay - 1 }) rfl busy]
    exact ⟨busy, rfl, rfl, rfl⟩

/-! DONE while a command runs (40_command_engine R100). -/

/-- A completion leaves no command running. -/
theorem State.complete_busyNotDone (s : State) (r : Result) : BusyNotDone (s.complete r) := by
  simp [BusyNotDone]

/-- A register write sets no DONE, and the one that sets BUSY, a start, clears it. -/
theorem storeReg_busyNotDone {s : State} (h : BusyNotDone s) (r : Reg) (v : Word) :
    BusyNotDone (storeReg s r v) := by
  cases r with
  | status =>
    intro busy
    simp [storeReg, h busy]
  | cmd => exact fun _ => State.start_done s v
  | _ => exact h

theorem writeReg_busyNotDone {s : State} (h : BusyNotDone s) (r : Reg) (v : Word) : BusyNotDone (writeReg s r v) := by
  unfold writeReg
  split
  · exact h
  · exact storeReg_busyNotDone h r v

/-- No move of the host sets DONE or, but for a start, BUSY. -/
theorem hostTurn_busyNotDone {s t : State} (inv : BusyNotDone s) (h : hostTurn s = .next t) : BusyNotDone t := by
  rcases hostTurn_cases h with
    ⟨rfl, -⟩ | ⟨m, rest, -, ⟨r, rfl⟩ | rfl | ⟨r, v, rfl⟩ | ⟨a, b, -, -, rfl⟩ | ⟨-, rfl⟩⟩
  · exact inv
  · exact inv
  · exact inv
  · exact writeReg_busyNotDone (s := { s with host := rest, delay := s.delay - 1 }) inv r v
  · exact inv
  · exact nofun

/-- Settles O8: a step is a command's completion, an illegal word's completion or the host's turn, and each keeps
the invariant. -/
theorem busyNeverShowsDone : Obligations.BusyNeverShowsDone := by
  intro s t inv h
  rcases step_cases s with ⟨-, i, -, e⟩ | ⟨-, -, e⟩ | ⟨-, e⟩
  · rw [e, exec_eq_complete] at h
    exact Host.Outcome.next.inj h ▸ s.complete_busyNotDone _
  · rw [e] at h
    exact Host.Outcome.next.inj h ▸ s.complete_busyNotDone _
  · exact hostTurn_busyNotDone inv (e ▸ h)

end Sys2Proof.Machine
end

section
/-! The checks before a command's body (40_command_engine R105–R109, R112, R113, R106): which commands each of them
stops, and with which report. -/

namespace Sys2Proof.Machine

/-! The commands that need a stage unit or a key (40_command_engine R107, R113). -/

theorem needsComp_iff (i : Instr) (s : State) :
    needsComp i s = true ↔ i = .compress ∨ i = .decompress ∨ (i = .encode ∧ s.comp = true) := by
  cases i <;> simp [needsComp]

theorem usesKey_iff (i : Instr) (s : State) :
    usesKey i s = true ↔ i = .sealBlob ∨ i = .openBlob ∨ ((i = .encode ∨ i = .decode) ∧ s.enc = true) := by
  cases i <;> simp [usesKey]

/-- The commands with a key are those with a cipher. -/
theorem needsCipher_eq_usesKey (i : Instr) (s : State) : needsCipher i s = usesKey i s := by
  cases i <;> rfl

theorem stageMissing_iff (i : Instr) (s : State) :
    stageMissing i s = true ↔
      (needsComp i s = true ∧ s.params.hasComp = false) ∨ (usesKey i s = true ∧ s.params.hasCipher = false) := by
  simp [stageMissing, needsCipher_eq_usesKey]

theorem keyLengthWrong_iff (i : Instr) (s : State) :
    keyLengthWrong i s = true ↔ usesKey i s = true ∧ s.keyLen ≠ 32 := by
  simp [keyLengthWrong]

/-! The regions that pass MEM_SIZE (20_memory R61, 40_command_engine R108). -/

theorem admitted_eq_false_iff (p : Params) (r : Region) :
    admitted p r = false ↔ r.2 ≠ 0 ∧ p.memSize < r.1 + r.2 := by
  simp [admitted]

theorem outOfRange_iff (i : Instr) (s : State) :
    outOfRange i s = true ↔ ∃ r : Region, (r ∈ readRegions i s ∨ r ∈ writtenRegions i s) ∧ r.2 ≠ 0 ∧
      s.params.memSize < r.1 + r.2 := by
  simp only [outOfRange, Bool.not_eq_true', Bool.and_eq_false_iff, List.all_eq_false, Bool.not_eq_true,
    admitted_eq_false_iff, or_and_right, exists_or]

/-! The first check that fails gives the report (40_command_engine R106). -/

theorem precheck_of_stageMissing {i : Instr} {s : State} (stage : stageMissing i s = true) :
    precheck i s = some ⟨.stageAbsent, 0, 0⟩ := by
  simp [precheck, stage]

theorem precheck_of_keyLengthWrong {i : Instr} {s : State} (stage : stageMissing i s = false)
    (key : keyLengthWrong i s = true) : precheck i s = some ⟨.invalidKeyLength, 32, s.keyLen.zeroExtend 32⟩ := by
  simp [precheck, stage, key]

theorem precheck_of_outOfRange {i : Instr} {s : State} (stage : stageMissing i s = false)
    (key : keyLengthWrong i s = false) (range : outOfRange i s = true) :
    precheck i s = some ⟨.addressRange, 0, 0⟩ := by
  simp [precheck, stage, key, range]

/-- Each error of the checks comes from its own check. -/
theorem precheck_error {i : Instr} {s : State} {e : Raise} (h : precheck i s = some e) :
    (e.err = .stageAbsent ∧ stageMissing i s = true) ∨ (e.err = .invalidKeyLength ∧ keyLengthWrong i s = true) ∨
      (e.err = .addressRange ∧ outOfRange i s = true) ∨ (e.err = .overlap ∧ overlapping i s = true) := by
  rcases precheck_cases i s with
    ⟨f, g⟩ | ⟨-, f, g⟩ | ⟨-, -, f, g⟩ | ⟨-, -, -, f, g⟩ | ⟨-, g⟩ <;> cases g.symm.trans h
  · exact .inl ⟨rfl, f⟩
  · exact .inr (.inl ⟨rfl, f⟩)
  · exact .inr (.inr (.inl ⟨rfl, f⟩))
  · exact .inr (.inr (.inr ⟨rfl, f⟩))

/-! Which codes a command ends with (60_exceptions R200). -/

/-- The errors of 60_exceptions R200. -/
def commandErrors : List CommandError :=
  [.invalidKeyLength, .messageTooLarge, .truncatedHeader, .truncatedPayload, .malformedLength, .corruptPayload,
    .authenticationFailed, .ciphertextTooShort, .illegalCommand, .stageAbsent, .addressRange, .overlap, .outputOverflow]

theorem mem_commandErrors (e : CommandError) : e ∈ commandErrors := by
  cases e <;> decide

/-- No two errors have the same code. -/
theorem errorCode_injective : Function.Injective errorCode := fun a b h =>
  List.inj_on_of_nodup_map (by decide : (commandErrors.map errorCode).Nodup) (mem_commandErrors a) (mem_commandErrors b)
    h

/-- A command ends with success, an error of its checks or an error of its body. -/
theorem exec_errCode_cases (i : Instr) (s : State) :
    ∃ t, exec i s = .next t ∧ (t.errCode = 0 ∨
      ∃ e, t.errCode = errorCode e.err ∧ (precheck i s = some e ∨ e.err ∈ bodyErrors)) := by
  refine ⟨_, exec_eq_complete i s, ?_⟩
  rcases checkedResult_cases i s (bodyOf i s) with ⟨e, failed, result⟩ | ⟨-, result⟩
  · exact .inr ⟨e, by rw [result, State.complete_error_errCode], .inl failed⟩
  · rw [result]
    cases body : bodyOf i s with
    | ok c => exact .inl (State.complete_ok_errCode s c)
    | error e => exact .inr ⟨e, State.complete_error_errCode s e, .inr (bodyOf_error body)⟩

/-- An error that no body raises is the checks' or none. -/
theorem exec_errCode_ne {i : Instr} {s : State} {x : CommandError} (body : x ∉ bodyErrors)
    (checks : ∀ e, precheck i s = some e → e.err ≠ x) : ∃ t, exec i s = .next t ∧ t.errCode ≠ errorCode x := by
  obtain ⟨t, h, ends⟩ := exec_errCode_cases i s
  refine ⟨t, h, fun code => ?_⟩
  rcases ends with ok | ⟨e, failed, source⟩
  · exact (errorCode_mem x).2 (code.symm.trans ok)
  · have same : e.err = x := errorCode_injective (failed.symm.trans code)
    rcases source with check | raised
    · exact checks e check same
    · exact body (same ▸ raised)

/-- Settles O20: such a command fails the stage check, which is the first. -/
theorem missingStageIsReported : Obligations.MissingStageIsReported := by
  intro i s absent
  rw [← needsComp_iff, ← usesKey_iff, ← stageMissing_iff] at absent
  exact exec_of_precheck (precheck_of_stageMissing absent)

/-- Settles O21: the key check is the next, and only it raises InvalidKeyLength. -/
theorem wrongKeyLengthIsReported : Obligations.WrongKeyLengthIsReported := by
  intro i s
  simp only [← usesKey_iff]
  refine ⟨fun uses wrong stage => ?_, fun fine => ?_⟩
  · rw [zext32, BitVec.ofNat_toNat]
    exact exec_of_precheck (precheck_of_keyLengthWrong stage ((keyLengthWrong_iff i s).mpr ⟨uses, wrong⟩))
  · refine exec_errCode_ne (x := .invalidKeyLength) (by decide) fun e failed same => fine ?_
    rw [← keyLengthWrong_iff]
    simpa [same] using precheck_error failed

/-- The regions of each command, the rows of 40_command_engine R105 (the table). -/
theorem regions_table (s : State) (f : Bool) :
    (∀ i ∈ [Instr.ser, .deser, .compress, .decompress, .sealBlob, .openBlob, .frameBuild f, .frameParse],
      readRegions i s = [s.srcRegion] ∧ writtenRegions i s = [s.dstRegion]) ∧
    (∀ i ∈ [Instr.embed, .encode],
      readRegions i s = [s.srcRegion, s.gsrcRegion] ∧ writtenRegions i s = [s.gdstRegion]) ∧
    (∀ i ∈ [Instr.extract, .decode], readRegions i s = [s.gsrcRegion] ∧ writtenRegions i s = [s.dstRegion]) ∧
    readRegions .capacity s = [] ∧ writtenRegions .capacity s = [] := by
  simp [readRegions, writtenRegions]

/-- Settles O22: the range check is the third, and only it raises AddressRange. -/
theorem regionsOutsideTheWindowAreReported : Obligations.RegionsOutsideTheWindowAreReported := by
  refine ⟨regions_table, fun i s => ?_⟩
  simp only [← outOfRange_iff]
  refine ⟨fun outside stage key => exec_of_precheck (precheck_of_outOfRange stage key outside), fun inside => ?_⟩
  refine exec_errCode_ne (x := .addressRange) (by decide) fun e failed same => inside ?_
  simpa [same] using precheck_error failed

/-! OutputOverflow (40_command_engine R112). -/

/-- A length that fits a register is reported as it is. -/
theorem sat32_of_lt {n : Nat} (h : n < 2 ^ 32) : sat32 n = BitVec.ofNat 32 n := by
  rw [sat32, Nat.min_eq_left (by omega)]

/-- A command whose body emits more than DST_MAX bytes fails OutputOverflow. -/
theorem exec_emit_overflows {i : Instr} {s : State} (pass : ChecksPass i s) {out : Bytes} {len : Nat} {aux : Word}
    {flag : Bool} (body : bodyOf i s = s.emit out len aux flag) {n : Nat} (length : out.length = n)
    (long : s.dstMax.toNat < n) : ∃ t, exec i s = .next t ∧ FailsWith s t 0x14 (sat32 n) s.dstMax := by
  subst length
  rw [exec_eq_runCommand, body]
  exact runCommand_emit_overflows pass long len aux flag

theorem deserBody_of_bytes {s : State} {out : Bytes} (h : bitsToBytes s.srcBits = some out) :
    deserBody s = s.emit out (s.srcLen.toNat / 8) 0 false := by
  rw [deserBody, h]

/-- Settles O41: each of the four emits an output of that length. -/
theorem longOutputsOverflow : Obligations.LongOutputsOverflow := by
  refine fun s => ⟨fun pass long => ?_, fun pass whole long => ?_, fun f pass long => ?_, fun pass long => ?_⟩
  · exact exec_emit_overflows pass rfl (by simp) long
  · obtain ⟨out, packed⟩ := bitsToBytes_total (s := s.srcBits) (by simpa using whole)
    have length := (bitsToBytes_spec packed).1
    rw [State.srcBits_length] at length
    rw [← sat32_of_lt (by omega)]
    exact exec_emit_overflows pass (deserBody_of_bytes packed) (by omega) long
  · exact exec_emit_overflows pass rfl (by simp) long
  · rw [← sat32_of_lt (n := s.width.toNat * s.height.toNat) s.pixels_lt]
    exact exec_emit_overflows pass rfl ((bitElements_length _).trans (extract_length s.gridBytes_length)) long

end Sys2Proof.Machine
end

section
/-! What a command reads and the bytes it writes (40_command_engine R102, R105): the first RES_LEN bytes of a linear
window or a whole grid, all of them given by the operands and read regions of the command's row. -/

namespace Sys2Proof.Machine

/-! The block of a commit (40_command_engine R105, R110). -/

/-- A result that commits is the body's, after checks that pass. -/
theorem checkedResult_ok {i : Instr} {s : State} {body : Result} {c : Commit} (h : checkedResult i s body = .ok c) :
    ChecksPass i s ∧ body = .ok c := by
  rcases checkedResult_cases i s body with ⟨e, -, failed⟩ | ⟨pass, result⟩
  · cases failed.symm.trans h
  · exact ⟨pass, result.symm.trans h⟩

/-- A commit of a command with a linear destination: RES_LEN bytes at DST_ADDR, empty or below 2^32, or no write and
RES_LEN = 0. -/
theorem linear_commit {i : Instr} (h1 : i ≠ .embed) (h2 : i ≠ .encode) {s : State} {c : Commit}
    (h : checkedResult i s (bodyOf i s) = .ok c) :
    (c.writes = [] ∧ (zext32 c.len).toNat = 0) ∨
      ∃ out, c.writes = [(s.dstAddr.toNat, out)] ∧ (zext32 c.len).toNat = out.length ∧
        (out = [] ∨ s.dstAddr.toNat + out.length ≤ 2 ^ 32) := by
  obtain ⟨pass, body⟩ := checkedResult_ok h
  rcases bodyOf_linear_ok h1 h2 body with ⟨-, nothing, none⟩ | ⟨region, out, block, len, le⟩
  · exact .inl ⟨nothing, by rw [none]; rfl⟩
  · have max := s.dstMax.isLt
    refine .inr ⟨out, block, by rw [len, zext32_toNat (by omega)], ?_⟩
    exact pass.fits (r := s.dstRegion) (by simp [region]) le

/-- A commit of EMBED or ENCODE: a whole grid at GDST_ADDR, empty or below 2^32. -/
theorem grid_commit {i : Instr} (hi : i = .embed ∨ i = .encode) {s : State} {c : Commit}
    (h : checkedResult i s (bodyOf i s) = .ok c) :
    ∃ out, c.writes = [(s.gdstAddr.toNat, out)] ∧ out.length = 4 * s.pixels ∧
      (out = [] ∨ s.gdstAddr.toNat + out.length ≤ 2 ^ 32) := by
  obtain ⟨pass, body⟩ := checkedResult_ok h
  obtain ⟨region, bits, block, -, -⟩ := bodyOf_grid_ok hi body
  have length : (embed s.gridBytes bits).length = 4 * s.pixels := by simp
  exact ⟨_, block, length, pass.fits (r := s.gdstRegion) (by simp [region]) (Nat.le_of_eq length)⟩

/-- Settles O16: a linear commit is its RES_LEN bytes, and an error writes nothing. -/
theorem linearCommandsWriteResLenBytes : Obligations.LinearCommandsWriteResLenBytes := by
  intro i s h1 h2
  refine ⟨_, exec_eq_complete i s, ?_⟩
  cases result : checkedResult i s (bodyOf i s) with
  | error e => exact fun _ _ => rfl
  | ok c =>
    rw [State.complete_ok_mem, State.complete_ok_resLen]
    rcases linear_commit h1 h2 result with ⟨nothing, -⟩ | ⟨out, block, len, -⟩
    · exact fun _ _ => by rw [nothing, Memory.writeAll_nil]
    · rw [block, len]
      exact fun _ outside => Memory.read_writeBytes_other s.mem outside

/-! Operands that agree. -/

theorem State.srcBytes_congr {s t : State} (addr : t.srcAddr = s.srcAddr) (len : t.srcLen = s.srcLen)
    (reads : ∀ x, s.srcRegion.covers x = true → t.mem.read x = s.mem.read x) : t.srcBytes = s.srcBytes := by
  rw [State.srcBytes, addr, len]
  exact Memory.readBytes_of_covers reads

theorem State.srcBits_congr {s t : State} (bytes : t.srcBytes = s.srcBytes) : t.srcBits = s.srcBits :=
  congrArg (List.map elementBit) bytes

theorem State.pixels_congr {s t : State} (width : t.width = s.width) (height : t.height = s.height) :
    t.pixels = s.pixels := by
  rw [State.pixels, width, height, State.pixels]

theorem State.capacity_congr {s t : State} (width : t.width = s.width) (height : t.height = s.height) :
    t.capacity = s.capacity := by
  rw [State.capacity, width, height, State.capacity]

theorem State.gridBytes_congr {s t : State} (addr : t.gsrcAddr = s.gsrcAddr) (pixels : t.pixels = s.pixels)
    (reads : ∀ x, s.gsrcRegion.covers x = true → t.mem.read x = s.mem.read x) : t.gridBytes = s.gridBytes := by
  rw [State.gridBytes, addr, State.gridSize, pixels]
  exact Memory.readBytes_of_covers reads

/-- The window alone decides what `emit` does with an output. -/
theorem State.emit_congr {s t : State} (addr : t.dstAddr = s.dstAddr) (max : t.dstMax = s.dstMax) :
    t.emit = s.emit := by
  funext out len aux flag
  rw [State.emit, addr, max, State.emit]

theorem State.keyBytes_congr {s t : State} (key : t.key = s.key) : t.keyBytes = s.keyBytes := by
  have bytes : t.keyByte = s.keyByte := by
    funext j
    rw [State.keyByte, key, State.keyByte]
  rw [State.keyBytes, bytes, State.keyBytes]

theorem State.nonce_congr {s t : State} (params : t.params = s.params) (draws : t.draws = s.draws) :
    t.nonce = s.nonce := by
  rw [State.nonce, params, draws, State.nonce]

/-! What agrees by a command's row (40_command_engine R105). -/

section
variable {i : Instr} {s t : State}

/-- A row names every register that its regions are made of. -/
theorem AgreeOnOperands.regions_eq (h : AgreeOnOperands i s t) :
    readRegions i t = readRegions i s ∧ writtenRegions i t = writtenRegions i s := by
  obtain ⟨-, -, -, row⟩ := h
  cases i with
  | ser | deser | compress | decompress | frameBuild | frameParse =>
    obtain ⟨srcAddr, srcLen, dstAddr, dstMax⟩ := row
    simp [readRegions, writtenRegions, State.srcRegion, State.dstRegion, *]
  | sealBlob | openBlob =>
    obtain ⟨srcAddr, srcLen, dstAddr, dstMax, -⟩ := row
    simp [readRegions, writtenRegions, State.srcRegion, State.dstRegion, *]
  | embed | encode =>
    obtain ⟨srcAddr, srcLen, gsrcAddr, gdstAddr, width, height⟩ := row
    simp [readRegions, writtenRegions, State.srcRegion, State.gsrcRegion, State.gdstRegion, State.gridSize,
      State.pixels, *]
  | extract | decode =>
    obtain ⟨gsrcAddr, width, height, dstAddr, dstMax⟩ := row
    simp [readRegions, writtenRegions, State.gsrcRegion, State.dstRegion, State.gridSize, State.pixels, *]
  | capacity => exact ⟨rfl, rfl⟩

theorem AgreeOnOperands.needsComp_eq (h : AgreeOnOperands i s t) : needsComp i t = needsComp i s := by
  obtain ⟨-, -, -, row⟩ := h
  cases i with
  | encode =>
    obtain ⟨-, -, -, -, -, -, comp, -⟩ := row
    exact comp
  | _ => rfl

/-- A row names ENC where it decides about the key, and KEY_LEN where the key is used (40_command_engine R107). -/
theorem AgreeOnOperands.usesKey_eq (h : AgreeOnOperands i s t) :
    usesKey i t = usesKey i s ∧ (usesKey i s = true → t.keyLen = s.keyLen) := by
  obtain ⟨-, -, -, row⟩ := h
  cases i with
  | sealBlob | openBlob =>
    obtain ⟨-, -, -, -, keyLen, -⟩ := row
    exact ⟨rfl, fun _ => keyLen⟩
  | encode =>
    obtain ⟨-, -, -, -, -, -, -, enc, keyLen, -⟩ := row
    exact ⟨enc, fun _ => keyLen⟩
  | decode =>
    obtain ⟨-, -, -, -, -, enc, keyLen, -⟩ := row
    exact ⟨enc, fun _ => keyLen⟩
  | _ => exact ⟨rfl, nofun⟩

/-- Only EMBED and ENCODE look at the grid addresses for the in-place exception (40_command_engine R109). -/
theorem AgreeOnOperands.inPlace_eq (h : AgreeOnOperands i s t) : inPlace i t = inPlace i s := by
  obtain ⟨-, -, -, row⟩ := h
  funext w r
  cases i with
  | embed | encode =>
    obtain ⟨-, -, gsrcAddr, gdstAddr, width, height⟩ := row
    simp [inPlace, State.gsrcRegion, State.gdstRegion, State.gridSize, State.pixels, *]
  | _ => rfl

/-- The checks read the row and the parameters only (40_command_engine R106). -/
theorem AgreeOnOperands.precheck_eq (h : AgreeOnOperands i s t) : precheck i t = precheck i s := by
  have params : t.params = s.params := h.1
  obtain ⟨reads, writes⟩ := h.regions_eq
  obtain ⟨uses, keyLen⟩ := h.usesKey_eq
  have stage : stageMissing i t = stageMissing i s := by
    simp only [stageMissing, needsCipher_eq_usesKey, params, h.needsComp_eq, uses]
  have range : outOfRange i t = outOfRange i s := by simp only [outOfRange, params, reads, writes]
  have overlap : overlapping i t = overlapping i s := by simp only [overlapping, reads, writes, h.inPlace_eq]
  have key : keyLengthWrong i t = keyLengthWrong i s := by
    cases used : usesKey i s with
    | false => simp only [keyLengthWrong, uses, used, Bool.false_and]
    | true => simp only [keyLengthWrong, uses, keyLen used]
  rw [precheck, stage, key, range, overlap, precheck]
  by_cases wrong : keyLengthWrong i s = true
  · rw [keyLen ((keyLengthWrong_iff i s).mp wrong).1]
  · simp only [if_neg wrong]

/-- With ENC = 0 the payload takes no nonce (42_payload_pipeline R131). -/
theorem encodePayload_congr (st : Stages) (src : t.srcBytes = s.srcBytes) (params : t.params = s.params)
    (comp : t.comp = s.comp) (enc : t.enc = s.enc) (key : t.key = s.key)
    (draw : s.enc = true → t.draws = s.draws) : encodePayload st t = encodePayload st s := by
  rw [encodePayload, src, comp, enc, State.keyBytes_congr key, encodePayload]
  cases used : s.enc with
  | false => rfl
  | true => rw [State.nonce_congr params (draw used)]

/-- A body reads the row, its read regions, the parameters and, where it uses it, the draw. -/
theorem AgreeOnOperands.bodyOf_eq (h : AgreeOnOperands i s t) : bodyOf i t = bodyOf i s := by
  obtain ⟨params, draw, reads, row⟩ := h
  cases i with
  | ser | deser | compress | decompress | frameBuild | frameParse =>
    obtain ⟨srcAddr, srcLen, dstAddr, dstMax⟩ := row
    have src := State.srcBytes_congr srcAddr srcLen (reads _ (by simp [readRegions]))
    simp only [bodyOf, serBody, deserBody, compressBody, decompressBody, frameBuildBody, frameParseBody,
      State.emitAll, src, State.srcBits_congr src, srcLen, State.emit_congr dstAddr dstMax]
  | sealBlob =>
    obtain ⟨srcAddr, srcLen, dstAddr, dstMax, -, key⟩ := row
    have src := State.srcBytes_congr srcAddr srcLen (reads _ (by simp [readRegions]))
    simp only [bodyOf, sealBody, State.emitAll, src, State.keyBytes_congr key,
      State.nonce_congr params (draw (.inl rfl)), State.emit_congr dstAddr dstMax]
  | openBlob =>
    obtain ⟨srcAddr, srcLen, dstAddr, dstMax, -, key⟩ := row
    have src := State.srcBytes_congr srcAddr srcLen (reads _ (by simp [readRegions]))
    simp only [bodyOf, openBody, State.emitAll, src, params, State.keyBytes_congr key,
      State.emit_congr dstAddr dstMax]
  | embed =>
    obtain ⟨srcAddr, srcLen, gsrcAddr, gdstAddr, width, height⟩ := row
    have src := State.srcBytes_congr srcAddr srcLen (reads _ (by simp [readRegions]))
    have pixels := State.pixels_congr width height
    have grid := State.gridBytes_congr gsrcAddr pixels (reads _ (by simp [readRegions]))
    simp only [bodyOf, embedBody, State.srcBits_congr src, srcLen, pixels, grid, gdstAddr]
  | extract =>
    obtain ⟨gsrcAddr, width, height, dstAddr, dstMax⟩ := row
    have pixels := State.pixels_congr width height
    have grid := State.gridBytes_congr gsrcAddr pixels (reads _ (by simp [readRegions]))
    simp only [bodyOf, extractBody, pixels, grid, State.emit_congr dstAddr dstMax]
  | capacity =>
    obtain ⟨width, height⟩ := row
    simp only [bodyOf, capacityBody, State.capacity_congr width height]
  | encode =>
    obtain ⟨srcAddr, srcLen, gsrcAddr, gdstAddr, width, height, comp, enc, -, key⟩ := row
    have src := State.srcBytes_congr srcAddr srcLen (reads _ (by simp [readRegions]))
    have pixels := State.pixels_congr width height
    have grid := State.gridBytes_congr gsrcAddr pixels (reads _ (by simp [readRegions]))
    have payload := encodePayload_congr Config.stages src params comp enc key fun used => draw (.inr ⟨rfl, used⟩)
    simp only [bodyOf, encodeBody, payload, pixels, State.capacity_congr width height, grid, gdstAddr, comp]
  | decode =>
    obtain ⟨gsrcAddr, width, height, dstAddr, dstMax, enc, -, key⟩ := row
    have pixels := State.pixels_congr width height
    have grid := State.gridBytes_congr gsrcAddr pixels (reads _ (by simp [readRegions]))
    simp only [bodyOf, decodeBody, grid, params, enc, State.keyBytes_congr key,
      State.emit_congr dstAddr dstMax]

/-- Over operands that agree a command has one result (40_command_engine R104). -/
theorem AgreeOnOperands.result_eq (h : AgreeOnOperands i s t) :
    checkedResult i t (bodyOf i t) = checkedResult i s (bodyOf i s) := by
  rw [checkedResult, h.precheck_eq, h.bodyOf_eq, checkedResult]

end

/-- The result alone decides the result and error registers. -/
theorem State.complete_outcome (s t : State) (r : Result) : SameOutcome (s.complete r) (t.complete r) := by
  cases r <;> exact ⟨rfl, rfl, rfl, rfl, rfl, rfl⟩

/-- One block reads alike over any two canonical memories. -/
theorem Memory.read_writeBytes_congr {m m' : Memory} (wf : m.wf = true) (wf' : m'.wf = true) {a : Nat} {out : Bytes}
    (fits : out = [] ∨ a + out.length ≤ 2 ^ 32) {k : Nat} (lt : k < out.length) :
    (m'.writeBytes a out).read (a + k) = (m.writeBytes a out).read (a + k) := by
  rw [(Memory.writeBytes_stores wf' fits).2.read lt, (Memory.writeBytes_stores wf fits).2.read lt]

/-- Settles O19: the two results are equal, and a commit's block is the bytes compared. -/
theorem commandsReadOnlyTheirOperands : Obligations.CommandsReadOnlyTheirOperands := by
  intro i s s' agree
  refine ⟨_, _, exec_eq_complete i s, exec_eq_complete i s', ?_⟩
  rw [agree.result_eq]
  refine ⟨State.complete_outcome s s' _, fun wf wf' => ?_⟩
  cases result : checkedResult i s (bodyOf i s) with
  | error e => exact ⟨fun _ _ k lt => absurd lt k.not_lt_zero, fun _ ok => absurd ok (errorCode_mem e.err).2⟩
  | ok c =>
    simp only [State.complete_ok_mem, State.complete_ok_resLen]
    constructor
    · intro h1 h2 k lt
      rcases linear_commit h1 h2 result with ⟨-, none⟩ | ⟨out, block, len, fits⟩
      · omega
      · rw [block]
        exact Memory.read_writeBytes_congr wf wf' fits (len ▸ lt)
    · intro hi _ k lt
      obtain ⟨out, block, len, fits⟩ := grid_commit hi result
      rw [block]
      exact Memory.read_writeBytes_congr wf wf' fits (len.symm ▸ lt)

end Sys2Proof.Machine
end

section
/-! The bitstream adapter (41_bitstream_adapter R120–R125): the conversion functions undo each other, SER and DESER
store what they give, and so DESER undoes SER. -/

namespace Sys2Proof.Machine

/-! The conversion functions (41_bitstream_adapter R120, R122, R124). -/

/-- The bytes of bytes' bits are those bytes. -/
theorem bitsToBytes_bytesToBits (bs : Bytes) : bitsToBytes (bytesToBits bs) = some bs := by
  induction bs with
  | nil => rfl
  | cons b bs ih =>
    have front : bitsToBytes (byteBits b ++ bytesToBits bs) =
        (bitsToBytes (bytesToBits bs)).map fun cs => BitVec.ofNat 8 (bitsToNat (byteBits b)) :: cs :=
      bitsToBytes_byte _ _ _ _ _ _ _ _ _
    rw [bytesToBits_cons, front, ih, packedByte_byteBits, Option.map_some]

/-- Exactly the bit sequences that leave a part of a byte over do not pack. -/
theorem bitsToBytes_eq_none_iff (s : Bits) : bitsToBytes s = none ↔ s.length % 8 ≠ 0 := by
  constructor
  · intro unpacked whole
    obtain ⟨bs, packed⟩ := bitsToBytes_total whole
    cases unpacked.symm.trans packed
  · intro part
    cases packed : bitsToBytes s with
    | none => rfl
    | some bs =>
      have length := (bitsToBytes_spec packed).1
      omega

/-- Settles O42: packing inverts serialising, and a length decides whether a sequence packs. -/
theorem bitsAndBytesRoundTrip : Obligations.BitsAndBytesRoundTrip := by
  refine ⟨bitsToBytes_bytesToBits, fun s whole => ?_, fun s => (bitsToBytes_eq_none_iff s).mpr⟩
  obtain ⟨bs, packed⟩ := bitsToBytes_total whole
  exact ⟨bs, packed, (bitsToBytes_spec packed).2⟩

/-! Bit sequences in memory (20_memory R64). -/

theorem bitElements_getElem (s : Bits) {k : Nat} (lt : k < (bitElements s).length) :
    (bitElements s)[k] = bitElement (s[k]'(by simpa using lt)) :=
  List.getElem_map bitElement

/-- The elements that stand for a bit sequence read back as it. -/
theorem Stores.readBits {m m' : Memory} {a : Nat} {bits : Bits} (h : Stores m m' a (bitElements bits)) :
    m'.readBits a bits.length = bits := by
  have elements : m'.readBytes a bits.length = bitElements bits := by simpa using h.1
  simp [Memory.readBits, elements, bitElements, Function.comp_def]

/-! SER (41_bitstream_adapter R121). -/

/-- SER whose output fits stores the elements of its source's bits. -/
theorem exec_ser_fits {s : State} (wf : s.mem.wf = true) (pass : ChecksPass .ser s)
    (fits : 8 * s.srcLen.toNat ≤ s.dstMax.toNat) :
    ∃ t, exec .ser s = .next t ∧ Succeeds s t (zext32 (8 * s.srcLen.toNat)) 0 false ∧
      Stores s.mem t.mem s.dstAddr.toNat (bitElements (bytesToBits s.srcBytes)) :=
  runCommand_emit_fits pass wf (by simp [writtenRegions]) (by simpa using fits) _ _ _

/-- Settles O38: element `8k + j` stored is the one of that bit, bit `7 − j` of source byte `k`. -/
theorem serWritesOneElementPerBit : Obligations.SerWritesOneElementPerBit := by
  intro s wf pass fits
  obtain ⟨t, h, ok, stores⟩ := exec_ser_fits wf pass fits
  refine ⟨t, h, ok, fun k j hk hj => ?_, ?_⟩
  · have lt : 8 * k + j < (bitElements (bytesToBits s.srcBytes)).length := by simp; omega
    rw [Nat.add_assoc, stores.read lt, bitElements_getElem _ lt, bytesToBits_getElem _ (by simpa using hk) hj,
      State.srcBytes_getElem]
    rfl
  · simpa using stores.2

/-- A command that ends with code 0 passed its checks, and its body committed. -/
theorem exec_errCode_zero {i : Instr} {s t : State} (h : exec i s = .next t) (ok : t.errCode = 0) :
    ChecksPass i s ∧ ∃ c, bodyOf i s = .ok c := by
  rw [exec_eq_complete] at h
  obtain rfl := Host.Outcome.next.inj h
  cases result : checkedResult i s (bodyOf i s) with
  | error e =>
    rw [result] at ok
    exact absurd ok (errorCode_mem e.err).2
  | ok c =>
    obtain ⟨pass, body⟩ := checkedResult_ok result
    exact ⟨pass, c, body⟩

/-- A SER that succeeded had room, and stored the elements of its source's bits. -/
theorem exec_ser_ok {s t : State} (wf : s.mem.wf = true) (h : exec .ser s = .next t) (ok : t.errCode = 0) :
    8 * s.srcLen.toNat ≤ s.dstMax.toNat ∧ t.resLen = zext32 (8 * s.srcLen.toNat) ∧
      Stores s.mem t.mem s.dstAddr.toNat (bitElements (bytesToBits s.srcBytes)) := by
  obtain ⟨pass, c, body⟩ := exec_errCode_zero h ok
  have fits : 8 * s.srcLen.toNat ≤ s.dstMax.toNat := by simpa using (State.emit_ok body).2
  obtain ⟨t', h', succeeds, stores⟩ := exec_ser_fits wf pass fits
  obtain rfl := Host.Outcome.next.inj (h.symm.trans h')
  exact ⟨fits, succeeds.resLen, stores⟩

/-! DESER (41_bitstream_adapter R123). -/

/-- DESER of bits that pack into bytes that fit stores these bytes. -/
theorem exec_deser_fits {s : State} (wf : s.mem.wf = true) (pass : ChecksPass .deser s) {out : Bytes}
    (packed : bitsToBytes s.srcBits = some out) (fits : out.length ≤ s.dstMax.toNat) :
    ∃ t, exec .deser s = .next t ∧ Succeeds s t (zext32 (s.srcLen.toNat / 8)) 0 false ∧
      Stores s.mem t.mem s.dstAddr.toNat out := by
  rw [exec_eq_runCommand, bodyOf, deserBody_of_bytes packed]
  exact runCommand_emit_fits pass wf (by simp [writtenRegions]) fits _ _ _

theorem deserBody_of_part {s : State} (h : s.srcLen.toNat % 8 ≠ 0) :
    deserBody s = .error (malformedLength s.srcLen.toNat) := by
  rw [deserBody, (bitsToBytes_eq_none_iff s.srcBits).mpr (by simpa using h)]

/-- Settles O39: byte `k` stored is the one packed from elements `8k` to `8k + 7`. -/
theorem deserPacksEightElementsPerByte : Obligations.DeserPacksEightElementsPerByte := by
  intro s wf pass whole fits
  obtain ⟨out, packed⟩ := bitsToBytes_total (s := s.srcBits) (by simpa using whole)
  have length : out.length = s.srcLen.toNat / 8 := by
    have bits := (bitsToBytes_spec packed).1
    rw [State.srcBits_length] at bits
    omega
  obtain ⟨t, h, ok, stores⟩ := exec_deser_fits wf pass packed (length ▸ fits)
  refine ⟨t, h, ok, fun k j hk hj => ?_, length ▸ stores.2⟩
  rw [stores.read (length ▸ hk), bitsToBytes_getLsbD packed _ hj (by simp; omega), State.srcBits_getElem,
    Nat.add_assoc]

/-- Settles O40: such bits do not pack, so the body raises MalformedLength before it looks at DST_MAX. -/
theorem deserRejectsPartialBytes : Obligations.DeserRejectsPartialBytes := by
  intro s pass part
  obtain ⟨t, h, fails⟩ := runCommand_error pass (malformedLength s.srcLen.toNat)
  refine ⟨t, ?_, ?_⟩
  · rw [exec_eq_runCommand, bodyOf, deserBody_of_part part, h]
  · simpa [malformedLength, errorCode, zext32] using fails

/-- Settles O43: DESER's source bits are those of SER's source bytes, and they pack into these bytes. -/
theorem deserUndoesSer : Obligations.DeserUndoesSer := by
  intro s t u wf h ok mem srcAddr srcLen pass room
  obtain ⟨fits, resLen, stored⟩ := exec_ser_ok wf h ok
  have len : u.srcLen.toNat = 8 * s.srcLen.toNat := by
    rw [srcLen, resLen, zext32_toNat (by omega)]
  have packed : bitsToBytes u.srcBits = some s.srcBytes := by
    have bits := stored.readBits
    rw [bytesToBits_length, State.srcBytes_length, ← len, ← mem, ← srcAddr] at bits
    exact (congrArg bitsToBytes bits).trans (bitsToBytes_bytesToBits _)
  have wf' : u.mem.wf = true := mem ▸ exec_mem_wf wf h
  obtain ⟨v, h', succeeds, stores⟩ := exec_deser_fits wf' pass packed (by simpa using room)
  refine ⟨v, h', ?_, ?_⟩
  · simpa [len, zext32] using succeeds
  · simpa [State.srcBytes] using stores.1

end Sys2Proof.Machine
end

section
/-! The payload pipeline's commands (42_payload_pipeline R133–R137) over any stage units: which result each body gives,
and how a command ends whose body emits an output or raises an error (40_command_engine R112, R110). -/

namespace Sys2Proof.Machine

/-! How a command ends whose checks pass. -/

/-- The end of a command that emits `out` (40_command_engine R112): `out` stored at DST_ADDR with these results where it
fits DST_MAX, OutputOverflow where it does not. -/
def Emits (s t : State) (out : Bytes) (len : Nat) (aux : Word) (flag : Bool) : Prop :=
  (out.length ≤ s.dstMax.toNat → Succeeds s t (zext32 len) aux flag ∧ Stores s.mem t.mem s.dstAddr.toNat out) ∧
  (s.dstMax.toNat < out.length → FailsWith s t 0x14 (sat32 out.length) s.dstMax)

theorem ChecksPass.emits {i : Instr} {s t : State} (pass : ChecksPass i s) (wf : s.mem.wf = true)
    (w : s.dstRegion ∈ writtenRegions i s) {out : Bytes} {len : Nat} {aux : Word} {flag : Bool}
    (h : runCommand i s (s.emit out len aux flag) = .next t) : Emits s t out len aux flag := by
  refine ⟨fun fits => ?_, fun long => ?_⟩
  · obtain ⟨t', h', ends⟩ := runCommand_emit_fits pass wf w fits len aux flag
    exact Host.Outcome.next.inj (h'.symm.trans h) ▸ ends
  · obtain ⟨t', h', ends⟩ := runCommand_emit_overflows pass long len aux flag
    exact Host.Outcome.next.inj (h'.symm.trans h) ▸ ends

theorem ChecksPass.failsWith {i : Instr} {s t : State} (pass : ChecksPass i s) {e : Raise}
    (h : runCommand i s (.error e) = .next t) : FailsWith s t (errorCode e.err) e.req e.avail := by
  obtain ⟨t', h', ends⟩ := runCommand_error pass e
  exact Host.Outcome.next.inj (h'.symm.trans h) ▸ ends

/-! COMPRESS and DECOMPRESS (42_payload_pipeline R133, R134). -/

theorem decompressBody_of_none {st : Stages} {s : State} (h : st.decompress s.srcBytes = none) :
    decompressBody st s = .error ⟨.corruptPayload, 0, 0⟩ := by
  rw [decompressBody, h]

theorem decompressBody_of_some {st : Stages} {s : State} {out : Bytes} (h : st.decompress s.srcBytes = some out) :
    decompressBody st s = s.emitAll out := by
  rw [decompressBody, h]

/-- Settles O44: COMPRESS emits what its stage gives, DECOMPRESS too unless the stage rejects the source. -/
theorem compressionCommandsApplyTheStage : Obligations.CompressionCommandsApplyTheStage := by
  intro st s wf
  refine ⟨fun pass => ⟨_, rfl, ?_, ?_⟩, fun pass => ⟨_, rfl, ?_, fun rejected => ?_, fun out unpacked => ?_⟩⟩
  · rintro rfl; rfl
  · exact pass.emits (t := s.complete _) wf (by simp [writtenRegions]) rfl
  · rintro rfl; rfl
  · rw [decompressBody_of_none rejected]
    exact pass.failsWith rfl
  · rw [decompressBody_of_some unpacked]
    exact pass.emits (t := s.complete _) wf (by simp [writtenRegions]) rfl

/-! SEAL and OPEN (42_payload_pipeline R135–R137). -/

theorem unsealBlob_of_short (st : Stages) {p : Params} (key : Bytes) {blob : Bytes} (h : blob.length < p.nonceBytes) :
    unsealBlob st p key blob = .error ⟨.ciphertextTooShort, zext32 p.nonceBytes, zext32 blob.length⟩ :=
  if_pos h

theorem unsealBlob_of_none {st : Stages} {p : Params} {key blob : Bytes} (long : p.nonceBytes ≤ blob.length)
    (h : st.aeadOpen key (blob.take p.nonceBytes) (blob.drop p.nonceBytes) = none) :
    unsealBlob st p key blob = .error ⟨.authenticationFailed, 0, 0⟩ := by
  rw [unsealBlob, if_neg (Nat.not_lt.mpr long), h]

theorem unsealBlob_of_some {st : Stages} {p : Params} {key blob plain : Bytes} (long : p.nonceBytes ≤ blob.length)
    (h : st.aeadOpen key (blob.take p.nonceBytes) (blob.drop p.nonceBytes) = some plain) :
    unsealBlob st p key blob = .ok plain := by
  rw [unsealBlob, if_neg (Nat.not_lt.mpr long), h]

theorem openBody_of_error {st : Stages} {s : State} {e : Raise}
    (h : unsealBlob st s.params s.keyBytes s.srcBytes = .error e) : openBody st s = .error e := by
  rw [openBody, h]

theorem openBody_of_ok {st : Stages} {s : State} {out : Bytes}
    (h : unsealBlob st s.params s.keyBytes s.srcBytes = .ok out) : openBody st s = s.emitAll out := by
  rw [openBody, h]

/-- Settles O45: SEAL emits the blob sealed under the draw, OPEN what the cipher opens unless the blob has no whole nonce
or the cipher rejects it. -/
theorem cipherCommandsApplyTheStage : Obligations.CipherCommandsApplyTheStage := by
  intro st s wf
  refine ⟨fun pass => ⟨_, rfl, ?_, ?_⟩,
    fun pass => ⟨_, rfl, ?_, fun short => ?_, fun long rejected => ?_, fun long out opened => ?_⟩⟩
  · rintro rfl; rfl
  · exact pass.emits (t := s.complete _) wf (by simp [writtenRegions]) rfl
  · rintro rfl; rfl
  · rw [← s.srcBytes_length] at short
    rw [openBody_of_error (unsealBlob_of_short st s.keyBytes short)]
    simpa [errorCode, zext32] using pass.failsWith rfl
  · rw [← s.srcBytes_length] at long
    rw [openBody_of_error (unsealBlob_of_none long rejected)]
    exact pass.failsWith rfl
  · rw [← s.srcBytes_length] at long
    rw [openBody_of_ok (unsealBlob_of_some long opened)]
    exact pass.emits (t := s.complete _) wf (by simp [writtenRegions]) rfl

end Sys2Proof.Machine
end

section
/-! The frame (43_frame_builder R150–R155): FRAME_BUILD stores a frame's elements, how a parse ends,
what FRAME_PARSE makes of each, and that parsing inverts building. -/

namespace Sys2Proof.Machine

/-- A number in a register is the register's word again. -/
theorem zext32_of_toNat (w : Word) : zext32 w.toNat = w := by
  rw [zext32, BitVec.ofNat_toNat, BitVec.setWidth_eq]

theorem sat32_of_toNat (w : Word) : sat32 w.toNat = w :=
  (sat32_of_lt w.isLt).trans (zext32_of_toNat w)

/-! FRAME_BUILD (43_frame_builder R152). -/

/-- An element of a stored bit sequence. -/
theorem Stores.read_bitElements {m m' : Memory} {a : Nat} {bits : Bits} (h : Stores m m' a (bitElements bits)) {k : Nat}
    (lt : k < bits.length) : m'.read (a + k) = if bits[k] then 0x01 else 0x00 := by
  have inside : k < (bitElements bits).length := by simpa using lt
  rw [h.read inside, bitElements_getElem bits inside, bitElement]

/-- FRAME_BUILD whose frame fits stores the frame's elements. -/
theorem exec_frameBuild_fits {s : State} {f : Bool} (wf : s.mem.wf = true) (pass : ChecksPass (.frameBuild f) s)
    (fits : 33 + 8 * s.srcLen.toNat ≤ s.dstMax.toNat) :
    ∃ t, exec (.frameBuild f) s = .next t ∧ Succeeds s t (zext32 (33 + 8 * s.srcLen.toNat)) s.srcLen f ∧
      Stores s.mem t.mem s.dstAddr.toNat (bitElements (frame f s.srcBytes)) :=
  runCommand_emit_fits pass wf (by simp [writtenRegions]) (by simpa using fits) _ _ _

/-- Settles O46: each element stored is the one of the frame's bit there: the flag, a length bit or a payload bit. -/
theorem frameBuildWritesTheFrame : Obligations.FrameBuildWritesTheFrame := by
  intro s f wf pass fits
  obtain ⟨t, h, ok, stores⟩ := exec_frameBuild_fits wf pass fits
  have length : (frame f s.srcBytes).length = 33 + 8 * s.srcLen.toNat := by simp
  refine ⟨t, h, ok, ?_, fun j hj => ?_, fun k j hk hj => ?_, ?_⟩
  · exact stores.read_bitElements (k := 0) (by omega)
  · rw [Nat.add_assoc, stores.read_bitElements (by omega), frame_lengthBit _ _ hj, State.srcBytes_length]
    rfl
  · rw [Nat.add_assoc _ 33, Nat.add_assoc, stores.read_bitElements (by omega),
      frame_payloadBit _ _ (by simpa using hk) hj, State.srcBytes_getElem]
  · simpa using stores.2

/-! How a parse ends (43_frame_builder R153). -/

/-- Bits 1 to 32 that are a word's bits, most significant first, declare that word as the length. -/
theorem frameLength_of_bits {s : Bits} (header : 33 ≤ s.length) {n : Word}
    (spelt : ∀ j (lt : j < 32), s[1 + j] = n.getLsbD (31 - j)) : frameLength s = n.toNat := by
  have length : ((s.drop 1).take 32).length = 32 := by simp; omega
  refine bitsToNat_eq_of_bits length fun j lt => ?_
  rw [List.getElem_take, List.getElem_drop, spelt j (length ▸ lt)]

theorem parseFrame_of_shortHeader {s : Bits} (h : s.length < 33) :
    parseFrame s = .error ⟨.truncatedHeader, 33, zext32 s.length⟩ :=
  if_pos h

theorem parseFrame_of_shortPayload {s : Bits} (header : 33 ≤ s.length) (h : s.length - 33 < 8 * frameLength s) :
    parseFrame s = .error ⟨.truncatedPayload, zext32 (frameLength s), zext32 ((s.length - 33) / 8)⟩ := by
  rw [parseFrame, if_neg (Nat.not_lt.mpr header)]
  exact if_pos h

/-- A parse that fails does so on a short header or a short payload: the payload's slice is whole bytes (R155). -/
theorem parseFrame_error_cases {s : Bits} {e : Raise} (h : parseFrame s = .error e) :
    e.err = .truncatedHeader ∨ e.err = .truncatedPayload := by
  by_cases header : s.length < 33
  · cases (parseFrame_of_shortHeader header).symm.trans h
    exact .inl rfl
  by_cases payload : s.length - 33 < 8 * frameLength s
  · cases (parseFrame_of_shortPayload (Nat.not_lt.mp header) payload).symm.trans h
    exact .inr rfl
  · obtain ⟨f, parsed⟩ := parseFrame_fits (s := s) (by omega)
    cases parsed.symm.trans h

/-- Bit `7 − j` of byte `k` of a parsed payload is bit `33 + 8k + j` of the frame. -/
theorem parseFrame_payloadBit {s : Bits} {f : Parsed} (h : parseFrame s = .ok f) {k j : Nat}
    (hk : k < f.payload.length) (hj : j < 8) (lt : 33 + (8 * k + j) < s.length) :
    f.payload[k].getLsbD (7 - j) = s[33 + (8 * k + j)] := by
  obtain ⟨-, -, -, -, bits⟩ := parseFrame_ok h
  have inside : 8 * k + j < (bytesToBits f.payload).length := by simp; omega
  rw [← bytesToBits_getElem f.payload hk hj inside, List.getElem_of_eq bits inside, List.getElem_take,
    List.getElem_drop]

/-! Parsing inverts building (43_frame_builder R155). -/

theorem frameLength_frame (f : Bool) {p : Bytes} (rest : Bits) (h : p.length < 2 ^ 32) :
    frameLength (frame f p ++ rest) = p.length := by
  rw [← zext32_toNat h]
  refine frameLength_of_bits (by simp; omega) fun j lt => ?_
  rw [List.getElem_append_left (by simp; omega), frame_lengthBit f p lt, zext32, BitVec.getLsbD_ofNat,
    decide_eq_true (by omega), Bool.true_and]

/-- Past the header a frame is its payload's bits. -/
theorem drop_frame (f : Bool) (p : Bytes) (rest : Bits) : (frame f p ++ rest).drop 33 = bytesToBits p ++ rest := by
  rw [frame, List.cons_append, List.drop_succ_cons, List.append_assoc]
  exact List.drop_left' (by simp)

theorem bytesToBits_injective : Function.Injective bytesToBits := fun p q h => by
  have packed := bitsToBytes_bytesToBits p
  rw [h, bitsToBytes_bytesToBits] at packed
  exact (Option.some.inj packed).symm

/-- A frame with anything after it parses into its parts. -/
theorem parseFrame_frame (f : Bool) {p : Bytes} (rest : Bits) (h : p.length < 2 ^ 32) :
    parseFrame (frame f p ++ rest) = .ok ⟨f, p.length, p⟩ := by
  have declared := frameLength_frame f rest h
  obtain ⟨⟨flag, len, payload⟩, parsed⟩ := parseFrame_fits (s := frame f p ++ rest) (by simp [declared])
  obtain ⟨lenEq, -, flagEq, -, bits⟩ := parseFrame_ok parsed
  obtain rfl : len = p.length := lenEq.trans declared
  obtain rfl : flag = f := flagEq
  rw [drop_frame, List.take_left' (bytesToBits_length p)] at bits
  obtain rfl : payload = p := bytesToBits_injective bits
  exact parsed

/-- Settles O49: a frame parses into its parts, and a parse that fails lacks a header or a payload. -/
theorem parseFrameInvertsFrame : Obligations.ParseFrameInvertsFrame := by
  refine ⟨fun f p rest h => parseFrame_frame f rest h, fun s e h => ?_⟩
  rcases parseFrame_error_cases h with header | payload
  · simp [header]
  · simp [payload]

/-! FRAME_PARSE (43_frame_builder R154). -/

theorem frameParseBody_of_error {s : State} {e : Raise} (h : parseFrame s.srcBits = .error e) :
    frameParseBody s = .error e := by
  rw [frameParseBody, h]

theorem frameParseBody_of_ok {s : State} {f : Parsed} (h : parseFrame s.srcBits = .ok f) :
    frameParseBody s = s.emit f.payload f.len (zext32 (33 + 8 * f.len)) f.flag := by
  rw [frameParseBody, h]

/-- The length that the elements at SRC_ADDR + 1 spell (20_memory R64). -/
theorem State.frameLength_srcBits {s : State} (header : 33 ≤ s.srcLen.toNat) {n : Word}
    (spelt : ∀ j, j < 32 → (s.mem.read (s.srcAddr.toNat + 1 + j)).getLsbD 0 = n.getLsbD (31 - j)) :
    frameLength s.srcBits = n.toNat := by
  refine frameLength_of_bits (by simpa using header) fun j lt => ?_
  rw [State.srcBits_getElem, ← Nat.add_assoc, spelt j lt]

/-- The flag of a source with a header is bit 0 of its first element. -/
theorem State.srcBits_headD {s : State} (h : 0 < s.srcLen.toNat) :
    s.srcBits.headD false = (s.mem.read s.srcAddr.toNat).getLsbD 0 := by
  rw [List.headD_eq_head?_getD, List.head?_eq_getElem?, List.getElem?_eq_getElem (by simpa using h),
    State.srcBits_getElem]
  rfl

/-- A source whose payload is there parses as a frame with the length spelt and the flag of its first element. -/
theorem State.parseFrame_srcBits {s : State} {n : Word} (there : 33 + 8 * n.toNat ≤ s.srcLen.toNat)
    (spelt : ∀ j, j < 32 → (s.mem.read (s.srcAddr.toNat + 1 + j)).getLsbD 0 = n.getLsbD (31 - j)) :
    ∃ p : Bytes, p.length = n.toNat ∧
      parseFrame s.srcBits = .ok ⟨(s.mem.read s.srcAddr.toNat).getLsbD 0, n.toNat, p⟩ := by
  have declared := State.frameLength_srcBits (by omega) spelt
  obtain ⟨⟨flag, len, p⟩, parsed⟩ := parseFrame_fits (s := s.srcBits) (by simpa [declared] using there)
  obtain ⟨lenEq, payload, flagEq, -, -⟩ := parseFrame_ok parsed
  obtain rfl : len = n.toNat := lenEq.trans declared
  obtain rfl : flag = (s.mem.read s.srcAddr.toNat).getLsbD 0 := flagEq.trans (State.srcBits_headD (by omega))
  exact ⟨p, payload, parsed⟩

/-- FRAME_PARSE of a source that parses, into a payload that fits, stores the payload. -/
theorem exec_frameParse_fits {s : State} (wf : s.mem.wf = true) (pass : ChecksPass .frameParse s) {f : Parsed}
    (parsed : parseFrame s.srcBits = .ok f) (fits : f.payload.length ≤ s.dstMax.toNat) :
    ∃ t, exec .frameParse s = .next t ∧ Succeeds s t (zext32 f.len) (zext32 (33 + 8 * f.len)) f.flag ∧
      Stores s.mem t.mem s.dstAddr.toNat f.payload := by
  rw [exec_eq_runCommand, bodyOf, frameParseBody_of_ok parsed]
  exact runCommand_emit_fits pass wf (by simp [writtenRegions]) fits _ _ _

/-- FRAME_PARSE of a source that does not parse fails with the parse's error. -/
theorem exec_frameParse_error {s : State} (pass : ChecksPass .frameParse s) {e : Raise}
    (failed : parseFrame s.srcBits = .error e) :
    ∃ t, exec .frameParse s = .next t ∧ FailsWith s t (errorCode e.err) e.req e.avail := by
  rw [exec_eq_runCommand, bodyOf, frameParseBody_of_error failed]
  exact runCommand_error pass e

/-- Settles O47: the source parses with that length and flag, and byte `k` stored is byte `k` of the payload. -/
theorem frameParseReadsTheFrame : Obligations.FrameParseReadsTheFrame := by
  intro s n wf pass there spelt fits
  obtain ⟨p, length, parsed⟩ := State.parseFrame_srcBits there spelt
  obtain ⟨t, h, ok, stores⟩ := exec_frameParse_fits wf pass parsed (length ▸ fits)
  refine ⟨t, h, by simpa only [zext32_of_toNat] using ok, fun k j hk hj => ?_, length ▸ stores.2⟩
  rw [stores.read (length ▸ hk), parseFrame_payloadBit parsed _ hj (by simp; omega), State.srcBits_getElem,
    ← Nat.add_assoc, ← Nat.add_assoc]

/-- Settles O48: a short header and a short payload stop the parse; a payload that is there overflows where it is
emitted. -/
theorem frameParseErrors : Obligations.FrameParseErrors := by
  refine fun s n pass => ⟨fun short => ?_, fun header spelt => ⟨fun short => ?_, fun there long => ?_⟩⟩
  · have failed := parseFrame_of_shortHeader (s := s.srcBits) (by simpa using short)
    rw [State.srcBits_length, zext32_of_toNat] at failed
    exact exec_frameParse_error pass failed
  · have declared := State.frameLength_srcBits header spelt
    have failed := parseFrame_of_shortPayload (s := s.srcBits) (by simpa using header) (by simpa [declared] using short)
    rw [declared, State.srcBits_length, zext32_of_toNat] at failed
    exact exec_frameParse_error pass failed
  · obtain ⟨p, length, parsed⟩ := State.parseFrame_srcBits (n := n) (by omega) spelt
    have ends := exec_emit_overflows pass (frameParseBody_of_ok parsed) length long
    rwa [sat32_of_toNat] at ends

end Sys2Proof.Machine
end

section
/-! The pixel walker (44_pixel_walker R160–R165): what embedding does to the bytes of a grid, that extraction
undoes it, and what EMBED and EXTRACT store. -/

namespace Sys2Proof.Machine

/-! Embedding and extracting (44_pixel_walker R164, R165). -/

/-- Overwriting a red LSB keeps the byte exactly where the LSB is the bit already. -/
theorem setRedLsb_eq_self_iff (r : Byte) (bit : Bool) : setRedLsb r bit = r ↔ r.getLsbD 0 = bit := by
  constructor
  · intro same
    rw [← same, setRedLsb_getLsbD, if_pos rfl]
  · intro lsb
    apply BitVec.eq_of_getLsbD_eq
    intro b _
    rw [setRedLsb_getLsbD]
    split
    · next zero => rw [zero, lsb]
    · rfl

section
variable {gb : Bytes} {s : Bits} {n : Nat} (grid : gb.length = 4 * n) (fits : s.length ≤ n)
include grid fits

/-- A byte that is not a carrying red byte stays. -/
theorem embed_getElem?_of_not_carrying {k : Nat} (other : ¬(k % 4 = 0 ∧ k / 4 < s.length)) :
    (embed gb s)[k]? = gb[k]? := by
  by_cases lt : k < gb.length
  · rw [List.getElem?_eq_getElem lt, List.getElem?_eq_getElem (by simpa using lt), embed_getElem grid fits,
      if_neg other]
  · rw [List.getElem?_eq_none (Nat.not_lt.mp lt), List.getElem?_eq_none (by simpa using lt)]

/-- A carrying red byte is overwritten with its bit. -/
theorem embed_getElem_red {i : Nat} (carrying : i < s.length) (lt : 4 * i < (embed gb s).length) :
    (embed gb s)[4 * i] = setRedLsb (gb[4 * i]'(by simpa using lt)) s[i] := by
  have pixel : 4 * i / 4 = i := by omega
  rw [embed_getElem grid fits, if_pos (by omega)]
  simp [pixel, carrying]

/-- Extraction after embedding gives the bits, then the rest of the grid's own. -/
theorem extract_embed : extract (embed gb s) = s ++ (extract gb).drop s.length := by
  have grid' : (embed gb s).length = 4 * n := by simpa using grid
  refine List.ext_getElem (by simp [extract_length grid, extract_length grid', fits]) fun i lt lt' => ?_
  rw [extract_getElem grid']
  by_cases carrying : i < s.length
  · rw [embed_getElem_red grid fits carrying, setRedLsb_getLsbD, if_pos rfl, List.getElem_append_left carrying]
  · have past : s.length + (i - s.length) = i := by omega
    rw [embed_getElem grid fits, if_neg (by omega), List.getElem_append_right (by omega), List.getElem_drop,
      extract_getElem grid]
    simp only [past]

end

/-- Settles O52: a carrying red byte is overwritten with its bit and every other byte stays, so extraction reads the
bits and then the old ones. -/
theorem embeddingIsMinimalAndReadsBack : Obligations.EmbeddingIsMinimalAndReadsBack := by
  intro gb s n grid fits
  have inGrid : ∀ i, i < s.length → 4 * i < gb.length := fun i carrying => by omega
  refine ⟨embed_length gb s, fun k => embed_getElem?_of_not_carrying grid fits, fun i carrying b upper => ?_,
    fun i carrying => ?_, ?_, ?_⟩
  · have lt := inGrid i carrying
    rw [List.getD_eq_getElem _ _ lt, List.getD_eq_getElem _ _ (by simpa using lt),
      embed_getElem_red grid fits carrying, setRedLsb_getLsbD, if_neg (by omega)]
  · have lt := inGrid i carrying
    rw [List.getD_eq_getElem _ _ lt, List.getD_eq_getElem _ _ carrying, List.getElem?_eq_getElem lt,
      List.getElem?_eq_getElem (by simpa using lt), embed_getElem_red grid fits carrying, ne_eq, Option.some.injEq,
      setRedLsb_eq_self_iff]
  · rw [extract_embed grid fits, List.take_left]
  · rw [extract_embed grid fits, List.drop_left]

/-! EMBED (44_pixel_walker R161). -/

/-- A byte of the source grid with bits embedded, stored at GDST_ADDR (44_pixel_walker R160). -/
theorem Stores.read_embed {s : State} {m : Memory} {bits : Bits}
    (h : Stores s.mem m s.gdstAddr.toNat (embed s.gridBytes bits)) (fits : bits.length ≤ s.pixels) {k : Nat}
    (lt : k < 4 * s.pixels) :
    m.read (s.gdstAddr.toNat + k) =
      if k % 4 = 0 ∧ k / 4 < bits.length then
        setRedLsb (s.mem.read (s.gsrcAddr.toNat + k)) (bits.getD (k / 4) false)
      else s.mem.read (s.gsrcAddr.toNat + k) := by
  rw [h.read (by simpa using lt), embed_getElem s.gridBytes_length fits, State.gridBytes_getElem]

theorem embedBody_of_fits {s : State} (h : s.srcLen.toNat ≤ s.pixels) :
    embedBody s = .ok ⟨[(s.gdstAddr.toNat, embed s.gridBytes s.srcBits)], s.srcLen.toNat, 0, false⟩ :=
  if_neg (Nat.not_lt.mpr h)

theorem embedBody_of_long {s : State} (h : s.pixels < s.srcLen.toNat) :
    embedBody s = .error ⟨.messageTooLarge, s.srcLen, zext32 s.pixels⟩ :=
  if_pos h

/-- Settles O50: byte `k` stored is byte `k` of the embedding, and a longer bit array raises before any write. -/
theorem embedWritesRedLsbs : Obligations.EmbedWritesRedLsbs := by
  refine fun s wf pass => ⟨fun fits => ?_, fun long => ?_⟩
  · obtain ⟨t, h, ok, stores⟩ :=
      runCommand_embed pass wf (by simp [writtenRegions]) s.srcBits s.srcLen.toNat 0 false
    refine ⟨t, ?_, zext32_of_toNat s.srcLen ▸ ok, fun k lt => ?_, ?_⟩
    · rw [exec_eq_runCommand, bodyOf, embedBody_of_fits fits, h]
    · rw [stores.read_embed (s.srcBits_length.trans_le fits) lt, State.srcBits_length]
      refine ite_congr rfl (fun carrying => ?_) fun _ => rfl
      have inside : k / 4 < s.srcBits.length := s.srcBits_length.symm ▸ carrying.2
      rw [List.getD_eq_getElem _ _ inside, State.srcBits_getElem]
      rfl
    · simpa [State.pixels] using stores.2
  · rw [exec_eq_runCommand, bodyOf, embedBody_of_long long]
    exact runCommand_error pass _

/-! EXTRACT (44_pixel_walker R163). -/

/-- Bit `k` of the source grid's extraction (44_pixel_walker R162). -/
theorem State.extract_gridBytes_getElem (s : State) {k : Nat} (lt : k < (extract s.gridBytes).length) :
    (extract s.gridBytes)[k] = (s.mem.read (s.gsrcAddr.toNat + 4 * k)).getLsbD 0 := by
  rw [extract_getElem s.gridBytes_length, State.gridBytes_getElem]

/-- Settles O51: element `k` stored is the one of the extraction's bit `k`. -/
theorem extractReadsRedLsbs : Obligations.ExtractReadsRedLsbs := by
  intro s wf pass fits
  have length : (extract s.gridBytes).length = s.width.toNat * s.height.toNat := extract_length s.gridBytes_length
  obtain ⟨t, h, ok, stores⟩ := runCommand_emit_fits pass wf (by simp [writtenRegions])
    (by rwa [bitElements_length, length]) s.pixels 0 false
  refine ⟨t, h, ok, fun k lt => ?_, ?_⟩
  · rw [stores.read_bitElements (length ▸ lt), State.extract_gridBytes_getElem]
  · simpa [length] using stores.2

end Sys2Proof.Machine
end

section
/-! The codec's operations on a whole grid (45_codec_operations R170–R177): the capacity, ENCODE as the embedding of the
frame of its payload, DECODE stage by stage, and that DECODE undoes ENCODE. -/

namespace Sys2Proof.Machine

/-! CAPACITY (45_codec_operations R170–R172). -/

/-- The capacity is the floor of `(W·H − 33) / 8`. -/
theorem capacity_floor (w h : Nat) :
    8 * capacity w h ≤ ((w * h : Nat) : Int) - 33 ∧ ((w * h : Nat) : Int) - 33 < 8 * capacity w h + 8 := by
  rw [capacity, Int.fdiv_eq_ediv_of_nonneg _ (by decide), ← Nat.cast_mul]
  omega

/-- CAPACITY has no stage, key or region, so no check can fail. -/
theorem capacity_checksPass (s : State) : ChecksPass .capacity s := ⟨rfl, rfl, rfl, rfl⟩

/-- Settles O53: CAPACITY passes its checks, and commits the capacity and no write. -/
theorem capacityIsTheFloor : Obligations.CapacityIsTheFloor := by
  intro s
  obtain ⟨t, h, ok, mem⟩ := runCommand_ok (capacity_checksPass s) ⟨[], 0, twos32 s.capacity, false⟩
  have floor := capacity_floor s.width.toNat s.height.toNat
  rw [Nat.cast_mul] at floor
  exact ⟨t, s.capacity, h, ok, mem, floor⟩

/-- Settles O54: each clause is linear in the capacity and the number of pixels, by the two bounds of the floor. -/
theorem frameFitsExactlyUpToCapacity : Obligations.FrameFitsExactlyUpToCapacity := by
  intro w h
  obtain ⟨low, high⟩ := capacity_floor w h
  refine ⟨fun n => by omega, fun hw hh => ?_, fun whole => by omega, fun part => by omega⟩
  have pixels : w * h ≤ 65535 * 65535 := Nat.mul_le_mul hw hh
  omega

/-! A grid stored with bits embedded in it (44_pixel_walker R160, R164). -/

section
variable {s : State} {m : Memory} {bits : Bits}
  (stores : Stores s.mem m s.gdstAddr.toNat (embed s.gridBytes bits)) (fits : bits.length ≤ s.pixels)
include stores fits

/-- No bit but the red LSBs of the first pixels can differ from the source grid's. -/
theorem Stores.embed_changesOnlyRedLsbs {k : Nat} (lt : k < 4 * s.pixels) :
    (k % 4 ≠ 0 ∨ bits.length ≤ k / 4 → m.read (s.gdstAddr.toNat + k) = s.mem.read (s.gsrcAddr.toNat + k)) ∧
      ∀ b, 1 ≤ b →
        (m.read (s.gdstAddr.toNat + k)).getLsbD b = (s.mem.read (s.gsrcAddr.toNat + k)).getLsbD b := by
  rw [stores.read_embed fits lt]
  refine ⟨fun other => if_neg (by omega), fun b upper => ?_⟩
  split
  · rw [setRedLsb_getLsbD, if_neg (by omega)]
  · rfl

/-- The red LSB of pixel `i` is bit `i`. -/
theorem Stores.embed_redLsb {i : Nat} (lt : i < bits.length) :
    (m.read (s.gdstAddr.toNat + 4 * i)).getLsbD 0 = bits[i] := by
  have pixel : 4 * i / 4 = i := by omega
  rw [stores.read_embed fits (by omega), if_pos (by omega), setRedLsb_getLsbD, if_pos rfl, pixel,
    List.getD_eq_getElem _ _ lt]

/-- The extraction of the stored grid is the bits, then the old ones. -/
theorem Stores.extract_embed :
    extract (m.readBytes s.gdstAddr.toNat s.gridSize) = bits ++ (extract s.gridBytes).drop bits.length := by
  have grid : m.readBytes s.gdstAddr.toNat s.gridSize = embed s.gridBytes bits := by
    simpa [State.gridSize] using stores.1
  rw [grid, Machine.extract_embed s.gridBytes_length fits]

end

/-- A commit of EMBED or ENCODE stores the source grid with RES_LEN bits embedded in it. -/
theorem grid_commit_stores {i : Instr} (hi : i = .embed ∨ i = .encode) {s : State} (wf : s.mem.wf = true) {c : Commit}
    (h : checkedResult i s (bodyOf i s) = .ok c) :
    ∃ bits, (zext32 c.len).toNat = bits.length ∧ bits.length ≤ s.pixels ∧
      Stores s.mem (s.mem.writeAll c.writes) s.gdstAddr.toNat (embed s.gridBytes bits) := by
  obtain ⟨pass, body⟩ := checkedResult_ok h
  obtain ⟨region, bits, block, len, fits⟩ := bodyOf_grid_ok hi body
  refine ⟨bits, ?_, fits, ?_⟩
  · rw [len, zext32_toNat (fits.trans_lt s.pixels_lt)]
  · rw [block]
    exact (Memory.writeBytes_stores wf (pass.fits (r := s.gdstRegion) (by simp [region])
      (by simp [State.gdstRegion, State.gridSize]))).2

/-- Settles O17: a commit stores an embedding of RES_LEN bits, and an error writes nothing. -/
theorem gridCommandsChangeOnlyRedLsbs : Obligations.GridCommandsChangeOnlyRedLsbs := by
  intro i s hi wf
  refine ⟨_, exec_eq_complete i s, ?_⟩
  cases result : checkedResult i s (bodyOf i s) with
  | error e => exact ⟨fun _ _ => rfl, fun ok => absurd ok (errorCode_mem e.err).2⟩
  | ok c =>
    obtain ⟨bits, len, fits, stores⟩ := grid_commit_stores hi wf result
    rw [State.complete_ok_mem, State.complete_ok_resLen, len]
    refine ⟨?_, fun _ k lt => stores.embed_changesOnlyRedLsbs fits lt⟩
    simpa [State.gridSize] using stores.2

/-! ENCODE (45_codec_operations R173). -/

section
variable {st : Stages} {s : State}

theorem encodeBody_of_fits (h : 33 + 8 * (encodePayload st s).length ≤ s.pixels) :
    encodeBody st s = .ok ⟨[(s.gdstAddr.toNat, embed s.gridBytes (frame s.comp (encodePayload st s)))],
      33 + 8 * (encodePayload st s).length, zext32 (encodePayload st s).length, s.comp⟩ :=
  if_neg (Nat.not_lt.mpr h)

theorem encodeBody_of_long (h : s.pixels < 33 + 8 * (encodePayload st s).length) :
    encodeBody st s = .error ⟨.messageTooLarge, sat32 (encodePayload st s).length, twos32 s.capacity⟩ :=
  if_pos h

/-- With no stage the payload is the message. -/
theorem encodePayload_plain (comp : s.comp = false) (enc : s.enc = false) : encodePayload st s = s.srcBytes := by
  simp [encodePayload, pipeEnc, comp, enc]

/-- ENCODE of a payload whose frame fits stores the source grid with that frame embedded in it. -/
theorem encodeWith_fits {t : State} (wf : s.mem.wf = true) (pass : ChecksPass .encode s)
    (fits : 33 + 8 * (encodePayload st s).length ≤ s.pixels) (run : encodeWith st s = .next t) :
    Succeeds s t (zext32 (33 + 8 * (encodePayload st s).length)) (zext32 (encodePayload st s).length) s.comp ∧
      Stores s.mem t.mem s.gdstAddr.toNat (embed s.gridBytes (frame s.comp (encodePayload st s))) := by
  rw [encodeWith, encodeBody_of_fits fits] at run
  obtain ⟨t', run', ends⟩ := runCommand_embed pass wf (by simp [writtenRegions]) _ _ _ _
  exact Host.Outcome.next.inj (run'.symm.trans run) ▸ ends

theorem encodeWith_long {t : State} (pass : ChecksPass .encode s)
    (long : s.pixels < 33 + 8 * (encodePayload st s).length) (run : encodeWith st s = .next t) :
    FailsWith s t 0x02 (sat32 (encodePayload st s).length) (twos32 s.capacity) := by
  rw [encodeWith, encodeBody_of_long long] at run
  exact pass.failsWith run

/-- An ENCODE that ended with code 0 passed its checks, and its frame fitted. -/
theorem encodeWith_errCode_zero {t : State} (run : encodeWith st s = .next t) (ok : t.errCode = 0) :
    ChecksPass .encode s ∧ 33 + 8 * (encodePayload st s).length ≤ s.pixels := by
  rcases checkedResult_cases .encode s (encodeBody st s) with ⟨e, -, failed⟩ | ⟨pass, -⟩
  · rw [encodeWith, runCommand_eq, failed] at run
    obtain rfl := Host.Outcome.next.inj run
    exact absurd ok (errorCode_mem e.err).2
  · refine ⟨pass, Nat.not_lt.mp fun long => ?_⟩
    rw [(encodeWith_long pass long run).errCode] at ok
    exact absurd ok (by decide)

end

/-- Settles O55: the payload is the message, and the stored red LSBs are the bits of its frame with flag 0. -/
theorem encodeEmbedsThePlainFrame : Obligations.EncodeEmbedsThePlainFrame := by
  intro s wf pass comp enc room
  have payload : encodePayload Config.stages s = s.srcBytes := encodePayload_plain comp enc
  have length : (frame false s.srcBytes).length = 33 + 8 * s.srcLen.toNat := by simp
  have fits : (frame false s.srcBytes).length ≤ s.pixels := length.trans_le room
  obtain ⟨t, run⟩ : ∃ t, encodeWith Config.stages s = .next t := ⟨_, rfl⟩
  obtain ⟨ok, stores⟩ := encodeWith_fits wf pass (by simpa [payload, State.pixels] using room) run
  rw [payload, comp] at stores
  rw [payload, comp, State.srcBytes_length, zext32_of_toNat] at ok
  refine ⟨t, run, ok, stores.embed_redLsb fits (i := 0) (by omega), fun j hj => ?_, fun k j hk hj => ?_,
    fun k lt => ?_, ?_⟩
  · rw [stores.embed_redLsb fits (by omega), frame_lengthBit _ _ hj, State.srcBytes_length]
    rfl
  · rw [stores.embed_redLsb fits (by omega), frame_payloadBit _ _ (by simpa using hk) hj, State.srcBytes_getElem]
  · rw [← length]
    exact (stores.embed_changesOnlyRedLsbs fits lt).symm
  · simpa [State.pixels] using stores.2

/-- Settles O56: the payload is what the stages in use give, and its frame is embedded or too long. -/
theorem encodeAppliesTheStagesInOrder : Obligations.EncodeAppliesTheStagesInOrder := by
  intro st s wf pass msg nonce p1 payload bits pixels
  obtain ⟨t, run⟩ : ∃ t, encodeWith st s = .next t := ⟨_, rfl⟩
  refine ⟨t, run, by rintro rfl; exact run, fun fits => ?_, fun long => ?_⟩
  · obtain ⟨ok, stores⟩ := encodeWith_fits wf pass fits run
    refine ⟨ok, fun k lt => ?_, ?_⟩
    · rw [stores.read_embed ((frame_length _ _).trans_le fits) lt, frame_length]
      rfl
    · simpa [State.pixels] using stores.2
  · have ends := encodeWith_long pass long run
    rwa [State.capacity, capacity, ← Nat.cast_mul] at ends

/-! The stages of DECODE (42_payload_pipeline R135, R138). -/

section
variable {st : Stages} {p : Params} {key nonce cipher : Bytes}

/-- A blob that begins with a nonce is opened under that nonce. -/
theorem unsealBlob_append_of_some (whole : IsNonce p nonce) {plain : Bytes}
    (opened : st.aeadOpen key nonce cipher = some plain) : unsealBlob st p key (nonce ++ cipher) = .ok plain :=
  unsealBlob_of_some (by rw [List.length_append, whole]; omega)
    (by rwa [List.take_left' whole, List.drop_left' whole])

theorem unsealBlob_append_of_none (whole : IsNonce p nonce) (rejected : st.aeadOpen key nonce cipher = none) :
    unsealBlob st p key (nonce ++ cipher) = .error ⟨.authenticationFailed, 0, 0⟩ :=
  unsealBlob_of_none (by rw [List.length_append, whole]; omega)
    (by rwa [List.take_left' whole, List.drop_left' whole])

end

section
variable {st : Stages} {p : Params} {p1 : Bytes}

theorem unpack_of_absent (h : p.hasComp = false) : unpack st p true p1 = .error ⟨.stageAbsent, 0, 0⟩ := by
  simp [unpack, h]

theorem unpack_of_none (has : p.hasComp = true) (h : st.decompress p1 = none) :
    unpack st p true p1 = .error ⟨.corruptPayload, 0, 0⟩ := by
  simp [unpack, has, h]

theorem unpack_of_some (has : p.hasComp = true) {msg : Bytes} (h : st.decompress p1 = some msg) :
    unpack st p true p1 = .ok msg := by
  simp [unpack, has, h]

variable {payload key : Bytes} {flag : Bool}

theorem pipeDec_of_plain : pipeDec st p payload flag false key = unpack st p flag payload := rfl

theorem pipeDec_of_sealed_error {e : Raise} (h : unsealBlob st p key payload = .error e) :
    pipeDec st p payload flag true key = .error e := by
  simp [pipeDec, h]

theorem pipeDec_of_sealed_ok (h : unsealBlob st p key payload = .ok p1) :
    pipeDec st p payload flag true key = unpack st p flag p1 := by
  simp [pipeDec, h]

end

/-- `pipeDec` undoes `pipeEnc`, each stage by its own property (42_payload_pipeline R130). -/
theorem pipeDec_pipeEnc {st : Stages} {p : Params} {comp enc : Bool} {key key' nonce : Bytes} (msg : Bytes)
    (compRT : comp = true → p.hasComp = true ∧ st.CompRT) (aeadRT : enc = true → st.AeadRT p ∧ key' = key)
    (isKey : IsKey key) (isNonce : IsNonce p nonce) :
    pipeDec st p (pipeEnc st msg comp enc key nonce) comp enc key' = .ok msg := by
  have unpacked : unpack st p comp (if comp then st.compress msg else msg) = .ok msg := by
    cases comp with
    | false => rfl
    | true =>
      obtain ⟨has, inverse⟩ := compRT rfl
      exact unpack_of_some has (inverse msg)
  cases enc with
  | false => exact unpacked
  | true =>
    obtain ⟨inverse, rfl⟩ := aeadRT rfl
    exact (pipeDec_of_sealed_ok (unsealBlob_append_of_some isNonce (inverse _ _ _ isKey isNonce))).trans unpacked

/-! DECODE (45_codec_operations R175). -/

section
variable {st : Stages} {s t : State} {f : Parsed}

theorem decodeBody_of_frameError {e : Raise} (h : parseFrame (extract s.gridBytes) = .error e) :
    decodeBody st s = .error e := by
  rw [decodeBody, h]

theorem decodeBody_of_stageError {e : Raise} (parsed : parseFrame (extract s.gridBytes) = .ok f)
    (h : pipeDec st s.params f.payload f.flag s.enc s.keyBytes = .error e) : decodeBody st s = .error e := by
  simp [decodeBody, parsed, h]

theorem decodeBody_of_message {msg : Bytes} (parsed : parseFrame (extract s.gridBytes) = .ok f)
    (h : pipeDec st s.params f.payload f.flag s.enc s.keyBytes = .ok msg) :
    decodeBody st s = s.emit msg msg.length (zext32 f.len) f.flag := by
  simp [decodeBody, parsed, h]

theorem decodeWith_failsWith (pass : ChecksPass .decode s) (run : decodeWith st s = .next t) {e : Raise}
    (body : decodeBody st s = .error e) : FailsWith s t (errorCode e.err) e.req e.avail :=
  pass.failsWith (body ▸ run)

/-- DECODE of a grid that parses emits the message that the stages give. -/
theorem decodeWith_emits {msg : Bytes} (wf : s.mem.wf = true) (pass : ChecksPass .decode s)
    (run : decodeWith st s = .next t) (parsed : parseFrame (extract s.gridBytes) = .ok f)
    (h : pipeDec st s.params f.payload f.flag s.enc s.keyBytes = .ok msg) :
    Emits s t msg msg.length (zext32 f.len) f.flag := by
  rw [decodeWith, decodeBody_of_message parsed h] at run
  exact pass.emits wf (by simp [writtenRegions]) run

end

/-- Bits with a payload of the length spelt parse as a frame with that length and the first bit as the flag. -/
theorem parseFrame_of_spelt {s : Bits} {n : Word} (there : 33 + 8 * n.toNat ≤ s.length)
    (spelt : ∀ j (lt : j < 32), s[1 + j] = n.getLsbD (31 - j)) :
    ∃ p : Bytes, p.length = n.toNat ∧ parseFrame s = .ok ⟨s[0], n.toNat, p⟩ := by
  have declared := frameLength_of_bits (by omega) spelt
  obtain ⟨⟨flag, len, p⟩, parsed⟩ := parseFrame_fits (s := s) (by omega)
  obtain ⟨lenEq, payload, flagEq, -, -⟩ := parseFrame_ok parsed
  obtain rfl : len = n.toNat := lenEq.trans declared
  obtain rfl : flag = s.headD false := flagEq
  have first : s.headD false = s[0] := by
    rw [List.headD_eq_head?_getD, List.head?_eq_getElem?, List.getElem?_eq_getElem (by omega), Option.getD_some]
  exact ⟨p, payload, first ▸ parsed⟩

/-- Settles O57: the extraction parses with that length and flag 0, and no stage is in use, so the message is the
frame's payload. -/
theorem decodeReadsThePlainFrame : Obligations.DecodeReadsThePlainFrame := by
  intro s n wf pass enc there flag spelt room
  have length : (extract s.gridBytes).length = s.width.toNat * s.height.toNat := extract_length s.gridBytes_length
  obtain ⟨p, len, parsed⟩ := parseFrame_of_spelt (s := extract s.gridBytes) (n := n) (by omega) fun j lt => by
    rw [State.extract_gridBytes_getElem, spelt j lt]
  rw [State.extract_gridBytes_getElem, Nat.mul_zero, Nat.add_zero, flag] at parsed
  obtain ⟨t, run⟩ : ∃ t, decodeWith Config.stages s = .next t := ⟨_, rfl⟩
  have message : pipeDec Config.stages s.params p false s.enc s.keyBytes = .ok p := by rw [enc]; rfl
  obtain ⟨ok, stores⟩ := (decodeWith_emits wf pass run parsed message).1 (len ▸ room)
  refine ⟨t, run, by simpa only [len, zext32_of_toNat] using ok, fun k j hk hj => ?_, len ▸ stores.2⟩
  rw [stores.read (len ▸ hk), parseFrame_payloadBit parsed _ hj (by omega), State.extract_gridBytes_getElem,
    ← Nat.add_assoc]

/-- Settles O58: the parse, the opening, the decompression and the emission each stop DECODE with their own error, in
this order. -/
theorem decodeUndoesTheStagesInOrder : Obligations.DecodeUndoesTheStagesInOrder := by
  intro st s wf pass grid n
  obtain ⟨t, run⟩ : ∃ t, decodeWith st s = .next t := ⟨_, rfl⟩
  refine ⟨t, run, by rintro rfl; exact run,
    fun e failed => decodeWith_failsWith pass run (decodeBody_of_frameError failed), fun f parsed => ?_⟩
  have stageFails {e : Raise} (h : pipeDec st s.params f.payload f.flag s.enc s.keyBytes = .error e) :
      FailsWith s t (errorCode e.err) e.req e.avail :=
    decodeWith_failsWith pass run (decodeBody_of_stageError parsed h)
  refine ⟨fun enc short => ?_, fun enc long rejected => ?_, fun p1 opened => ?_⟩
  · rw [enc] at stageFails
    exact stageFails (pipeDec_of_sealed_error (unsealBlob_of_short st s.keyBytes short))
  · rw [enc] at stageFails
    exact stageFails (pipeDec_of_sealed_error (unsealBlob_of_none long rejected))
  · have unpacks : pipeDec st s.params f.payload f.flag s.enc s.keyBytes = unpack st s.params f.flag p1 := by
      rcases opened with ⟨enc, rfl⟩ | ⟨enc, long, opened⟩
      · rw [enc, pipeDec_of_plain]
      · rw [enc, pipeDec_of_sealed_ok (unsealBlob_of_some long opened)]
    rw [unpacks] at stageFails
    refine ⟨fun flag absent => ?_, fun flag has rejected => ?_, fun msg unpacked => ?_⟩
    · exact stageFails (flag ▸ unpack_of_absent absent)
    · exact stageFails (flag ▸ unpack_of_none has rejected)
    · refine decodeWith_emits wf pass run parsed (unpacks.trans ?_)
      rcases unpacked with ⟨flag, rfl⟩ | ⟨flag, has, unpacked⟩
      · rw [flag]; rfl
      · rw [flag, unpack_of_some has unpacked]

/-! DECODE after ENCODE (45_codec_operations R176, R177). -/

/-- ENCODE with COMP = 1 passes its checks only on a chip with a compressor (40_command_engine R113). -/
theorem ChecksPass.hasComp_of_encode {s : State} (pass : ChecksPass .encode s) (comp : s.comp = true) :
    s.params.hasComp = true := by
  by_contra absent
  have missing := (stageMissing_iff .encode s).mpr (.inl ⟨comp, Bool.eq_false_iff.mpr absent⟩)
  exact absurd (pass.stage.symm.trans missing) (by decide)

/-- Settles O59: the grid's extraction begins with the frame of ENCODE's payload, which parses into that payload, and the
stages turn it back into the message. -/
theorem decodeUndoesEncode : Obligations.DecodeUndoesEncode := by
  intro st s t u compRT aeadRT wf wf' encoded ok grid params width height enc key pass room
  obtain ⟨passed, fits⟩ := encodeWith_errCode_zero encoded ok
  obtain ⟨succeeds, stores⟩ := encodeWith_fits wf passed fits encoded
  have pixels : u.pixels = s.pixels := State.pixels_congr width height
  have copied : u.gridBytes = t.mem.readBytes s.gdstAddr.toNat s.gridSize := by
    rw [State.gridBytes, State.gridSize, pixels]
    exact Memory.readBytes_congr grid
  have parsed : parseFrame (extract u.gridBytes) =
      .ok ⟨s.comp, (encodePayload st s).length, encodePayload st s⟩ := by
    have small := s.pixels_lt
    rw [copied, stores.extract_embed ((frame_length _ _).trans_le fits)]
    exact parseFrame_frame _ _ (by omega)
  have message : pipeDec st u.params (encodePayload st s) s.comp u.enc u.keyBytes = .ok s.srcBytes := by
    rw [params, enc]
    exact pipeDec_pipeEnc s.srcBytes (fun comp => ⟨passed.hasComp_of_encode comp, compRT comp⟩)
      (fun used => ⟨aeadRT used, State.keyBytes_congr (key used)⟩) s.keyBytes_isKey s.nonce_isNonce
  obtain ⟨v, run⟩ : ∃ v, decodeWith st u = .next v := ⟨_, rfl⟩
  obtain ⟨ends, stored⟩ := (decodeWith_emits wf' pass run parsed message).1 (by simpa using room)
  rw [State.srcBytes_length, zext32_of_toNat, ← succeeds.resAux] at ends
  exact ⟨v, run, ends, by simpa [State.srcBytes] using stored.1⟩

/-- Settles O60: the extraction parses into the sealed blob, and the cipher does not open it under the other key. -/
theorem decodeWithAnotherKeyFails : Obligations.DecodeWithAnotherKeyFails := by
  intro st u k nonce plain flag rest aeadKey pass enc isKey other isNonce short spelt
  have parsed : parseFrame (extract u.gridBytes) = .ok ⟨flag, _, nonce ++ st.aeadSeal k nonce plain⟩ :=
    (congrArg parseFrame spelt).trans (parseFrame_frame flag rest short)
  have rejected := unsealBlob_append_of_none isNonce (aeadKey k _ nonce plain isKey u.keyBytes_isKey isNonce other)
  have body := decodeBody_of_stageError parsed (enc ▸ pipeDec_of_sealed_error rejected)
  obtain ⟨v, run⟩ : ∃ v, decodeWith st u = .next v := ⟨_, rfl⟩
  exact ⟨v, run, decodeWith_failsWith pass run body⟩

end Sys2Proof.Machine
end

section
/-! What the host sees of errors and completions (60_exceptions): the report of one completed command, the interrupt
output, the idle block, and the keys that no reply shows. -/

namespace Sys2Proof.Machine

/-! The report (60_exceptions R200, R203; 10_state R45). -/

/-- The invariant speaks of the result and error registers only. -/
theorem ReportConsistent.of_sameOutcome {s t : State} (inv : ReportConsistent s) (same : SameOutcome s t) :
    ReportConsistent t where
  code := by rw [same.errCode]; exact inv.code
  report := by rw [same.errCode, same.errReq, same.errAvail]; exact inv.report
  result := by rw [same.errCode, same.resLen, same.resAux, same.resFlag]; exact inv.result

/-- A completion reports a success with no error, or an error of the table with no result (40_command_engine R104). -/
theorem State.complete_reportConsistent (s : State) (r : Result) : ReportConsistent (s.complete r) := by
  cases r with
  | ok c => exact ⟨List.mem_cons_self, fun _ => ⟨rfl, rfl⟩, fun failed => absurd rfl failed⟩
  | error e =>
    obtain ⟨listed, failed⟩ := errorCode_mem e.err
    exact ⟨listed, fun ok => absurd ok failed, fun _ => ⟨rfl, rfl, rfl⟩⟩

theorem State.reset_reportConsistent : ReportConsistent State.reset :=
  ⟨List.mem_cons_self, fun _ => ⟨rfl, rfl⟩, fun failed => absurd rfl failed⟩

/-- A reset clears the result and error registers (70_reset_and_hazards R230). -/
theorem resetInput_sameOutcome (s : State) : SameOutcome State.reset (resetInput s) :=
  ⟨rfl, rfl, rfl, rfl, rfl, rfl⟩

/-- The host resets the report or keeps it. -/
theorem hostTurn_reportConsistent {s t : State} (inv : ReportConsistent s) (h : hostTurn s = .next t) :
    ReportConsistent t := by
  by_cases resets : ∃ rest, s.host = .reset :: rest
  · obtain ⟨rest, hh⟩ := resets
    rw [hostTurn_move hh nofun] at h
    obtain rfl := Host.Outcome.next.inj h
    exact State.reset_reportConsistent.of_sameOutcome (resetInput_sameOutcome _)
  · exact inv.of_sameOutcome (hostTurn_keepsCommand h (not_exists.mp resets)).1

/-- Settles O7: a completion writes the whole report anew, and the host's turn keeps or resets it. -/
theorem reportStaysConsistent : Obligations.ReportStaysConsistent := by
  intro s t inv h
  rcases step_cases s with ⟨-, i, -, e⟩ | ⟨-, -, e⟩ | ⟨-, e⟩
  · rw [e, exec_eq_complete] at h
    exact Host.Outcome.next.inj h ▸ s.complete_reportConsistent _
  · rw [e] at h
    exact Host.Outcome.next.inj h ▸ s.complete_reportConsistent _
  · exact hostTurn_reportConsistent inv (e ▸ h)

/-! The idle block (60_exceptions R221, 70_reset_and_hazards R247). -/

/-- A host that only waits leaves the machine as it is (log 12). -/
theorem hostTurn_of_hostIdles {s : State} (idles : hostIdles s = true) : hostTurn s = .next s := by
  unfold hostIdles at idles
  unfold hostTurn
  split at idles
  · rfl
  · rw [hostWait, if_neg (by simpa using idles)]
  · exact absurd idles (by decide)

/-- Settles O11: idle, the step is the host's, who has nothing to do but wait. -/
theorem idleBlockDoesNothing : Obligations.IdleBlockDoesNothing := by
  intro s idle waits
  rw [step_of_not_engineMoves (engineMoves_of_idle idle)]
  rcases waits with ended | ⟨rest, polls, hd⟩
  · exact hostTurn_of_hostIdles (hostIdles_of_nil ended)
  · exact hostTurn_of_hostIdles (hostIdles_of_wait polls hd)

/-! The interrupt output (60_exceptions R210, R211). -/

theorem State.irq_iff (s : State) : s.irq = true ↔ s.done = true ∧ s.irqEn = true := Bool.and_eq_true_iff

theorem State.irq_of_not_done {s : State} (h : s.done = false) : s.irq = false := by
  simp [State.irq, h]

theorem State.irq_of_not_irqEn {s : State} (h : s.irqEn = false) : s.irq = false := by
  simp [State.irq, h]

/-- Every completion, of success and error alike, raises the output where it is enabled (60_exceptions R211). -/
@[simp] theorem State.complete_irq (s : State) (r : Result) : (s.complete r).irq = s.irqEn := by
  simp [State.irq]

/-- Settles O31: a completion sets DONE; a write of 1 to DONE, a start and a reset clear it, and a write to CTRL can
clear IRQ_EN. -/
theorem interruptOutputIsLevel : Obligations.InterruptOutputIsLevel := by
  refine fun s v => ⟨s.irq_iff, fun i => ⟨_, exec_eq_complete i s, s.complete_irq _⟩, ⟨_, rfl, s.complete_irq _⟩,
    fun one => ?_, fun idle => ?_, fun zero => ?_, State.irq_of_not_done rfl⟩
  · rw [writeReg_unlocked rfl]
    exact State.irq_of_not_done (by simp [storeReg, one])
  · rw [writeReg_idle idle]
    exact State.irq_of_not_done (s.start_done v)
  · rw [writeReg_unlocked rfl]
    exact State.irq_of_not_irqEn zero

/-! The keys are never read back (60_exceptions R216, 10_state R37): over a machine with another key, each of the
host's moves gives it the same replies. -/

/-- The machine with another key. -/
def State.withKey (s : State) (k : Vector Word 8) : State := { s with key := k }

/-- What the host has got back after an outcome that answers a next state. -/
def repliesAfter : Host.Outcome State Fault Refusal → Option (List HostReply)
  | .next t => some t.replies
  | .fault _ => none
  | .refused _ => none

theorem repliesAfter_eq_some_iff (o : Host.Outcome State Fault Refusal) (replies : List HostReply) :
    repliesAfter o = some replies ↔ ∃ t, o = .next t ∧ t.replies = replies := by
  cases o <;> simp [repliesAfter]

/-! An access guarded by its address gives the replies of what it guards. -/

theorem atOffset_replies_congr (off : Nat) {go go' : Host.Outcome State Fault Refusal}
    (h : repliesAfter go' = repliesAfter go) : repliesAfter (atOffset off go') = repliesAfter (atOffset off go) := by
  unfold atOffset
  split_ifs <;> trivial

theorem atBusAddress_replies_congr (p : Params) (addr : Nat) {go go' : Nat → Host.Outcome State Fault Refusal}
    (h : ∀ off, repliesAfter (go' off) = repliesAfter (go off)) :
    repliesAfter (atBusAddress p addr go') = repliesAfter (atBusAddress p addr go) := by
  unfold atBusAddress
  split
  · rfl
  · exact h _

theorem atMemAddress_replies_congr (addr : Nat) {go go' : Host.Outcome State Fault Refusal}
    (h : repliesAfter go' = repliesAfter go) :
    repliesAfter (atMemAddress addr go') = repliesAfter (atMemAddress addr go) := by
  unfold atMemAddress
  split
  · rfl
  · exact h

theorem hostTurn_wait {s : State} {rest : List HostMove} (hh : s.host = .wait :: rest) :
    hostTurn s = hostWait s rest := by
  rw [hostTurn, hh]

section
variable (s : State) (k : Vector Word 8)

/-! Register accesses. -/

/-- No register reads a key byte; the key registers read 0 (10_state R37). -/
theorem readReg_withKey (r : Reg) : readReg (s.withKey k) r = readReg s r := by
  cases r <;> rfl

theorem readOffset_withKey (off : Nat) : readOffset (s.withKey k) off = readOffset s off := by
  unfold readOffset
  split
  · exact readReg_withKey s k _
  · rfl

/-- A write gives no reply. -/
theorem writeOffset_replies (off : Nat) (v : Word) : (writeOffset s off v).replies = s.replies := by
  rcases writeOffset_cases s off v with same | ⟨r, write⟩
  · rw [same]
  · obtain ⟨-, -, -, replies, -⟩ := writeReg_keeps s r v
    rw [write, replies]

theorem hostRegRead_withKey (off : Nat) :
    repliesAfter (hostRegRead (s.withKey k) off) = repliesAfter (hostRegRead s off) := by
  apply atOffset_replies_congr
  rw [readOffset_withKey]
  rfl

theorem hostRegWrite_withKey (off : Nat) (v : Word) :
    repliesAfter (hostRegWrite (s.withKey k) off v) = repliesAfter (hostRegWrite s off v) := by
  apply atOffset_replies_congr
  simp only [repliesAfter, writeOffset_replies]
  rfl

/-! Memory accesses: which bytes the host may touch is a matter of the operands' addresses and lengths. -/

theorem regions_withKey (i : Instr) :
    readRegions i (s.withKey k) = readRegions i s ∧ writtenRegions i (s.withKey k) = writtenRegions i s := by
  cases i <;> exact ⟨rfl, rfl⟩

theorem runningReads_withKey : runningReads (s.withKey k) = runningReads s := by
  unfold runningReads
  simp only [regions_withKey]
  rfl

theorem runningWrites_withKey : runningWrites (s.withKey k) = runningWrites s := by
  unfold runningWrites
  simp only [regions_withKey]
  rfl

theorem mayRead_withKey (a : Nat) : mayRead (s.withKey k) a = mayRead s a := by
  rw [mayRead, runningWrites_withKey, mayRead]

theorem mayWrite_withKey (a : Nat) : mayWrite (s.withKey k) a = mayWrite s a := by
  rw [mayWrite, mayRead_withKey, runningReads_withKey, mayWrite]

theorem hostMemRead_withKey (a : Nat) :
    repliesAfter (hostMemRead (s.withKey k) a) = repliesAfter (hostMemRead s a) := by
  apply atMemAddress_replies_congr
  rw [mayRead_withKey]
  split <;> rfl

theorem hostMemWrite_withKey (a : Nat) (b : Byte) :
    repliesAfter (hostMemWrite (s.withKey k) a b) = repliesAfter (hostMemWrite s a b) := by
  apply atMemAddress_replies_congr
  rw [mayWrite_withKey]
  split <;> rfl

/-! The host's turn. -/

theorem hostWait_withKey (rest : List HostMove) :
    repliesAfter (hostWait (s.withKey k) rest) = repliesAfter (hostWait s rest) := by
  simp only [hostWait, apply_ite repliesAfter, readReg_withKey]
  rfl

theorem hostMove_withKey (m : HostMove) :
    repliesAfter (hostMove (s.withKey k) m) = repliesAfter (hostMove s m) := by
  cases m with
  | regRead off => exact hostRegRead_withKey s k off
  | regWrite off v => exact hostRegWrite_withKey s k off v
  | busRead addr => exact atBusAddress_replies_congr _ addr (hostRegRead_withKey s k)
  | busWrite addr v => exact atBusAddress_replies_congr _ addr fun off => hostRegWrite_withKey s k off v
  | memRead addr => exact hostMemRead_withKey s k addr
  | memWrite addr b => exact hostMemWrite_withKey s k addr b
  | wait => exact hostWait_withKey s k s.host
  | reset => rfl

theorem hostTurn_withKey : repliesAfter (hostTurn (s.withKey k)) = repliesAfter (hostTurn s) := by
  cases hh : s.host with
  | nil =>
    rw [hostTurn_of_hostIdles (hostIdles_of_nil hh), hostTurn_of_hostIdles (s := s.withKey k) (hostIdles_of_nil hh)]
    rfl
  | cons m rest =>
    by_cases polls : m = .wait
    · subst polls
      rw [hostTurn_wait hh, hostTurn_wait (s := s.withKey k) hh]
      exact hostWait_withKey s k rest
    · rw [hostTurn_move hh polls, hostTurn_move (s := s.withKey k) hh polls]
      exact hostMove_withKey { s with host := rest, delay := s.delay - 1 } k m

end

/-- Settles O32: the step is the host's turn under either key. -/
theorem keysAreNeverReadBack : Obligations.KeysAreNeverReadBack := by
  intro s k t he h
  refine (repliesAfter_eq_some_iff (step (s.withKey k)) t.replies).mp ?_
  rw [step_of_not_engineMoves (s := s.withKey k) he, hostTurn_withKey, ← step_of_not_engineMoves he, h, repliesAfter]

end Sys2Proof.Machine
end

section
/-! The overlap check (40_command_engine R109, 20_memory R72): which commands it stops. -/

namespace Sys2Proof.Machine

theorem overlaps_iff (w r : Region) :
    overlaps w r = true ↔ 0 < w.2 ∧ 0 < r.2 ∧ w.1 < r.1 + r.2 ∧ r.1 < w.1 + w.2 := by
  simp [overlaps, and_assoc]

theorem mayEmbedInPlace_iff (i : Instr) : mayEmbedInPlace i = true ↔ i = .embed ∨ i = .encode := by
  cases i <;> simp [mayEmbedInPlace]

/-- The exception compares regions by value (log 10). -/
theorem inPlace_iff (i : Instr) (s : State) (w r : Region) :
    inPlace i s w r = true ↔ (i = .embed ∨ i = .encode) ∧ w = (s.gdstAddr.toNat, s.gridSize) ∧
      r = (s.gsrcAddr.toNat, s.gridSize) ∧ s.gdstAddr = s.gsrcAddr := by
  simp [inPlace, mayEmbedInPlace_iff, State.gdstRegion, State.gsrcRegion, and_assoc]

theorem overlapping_iff (i : Instr) (s : State) :
    overlapping i s = true ↔ ∃ w ∈ writtenRegions i s, ∃ r ∈ readRegions i s,
      0 < w.2 ∧ 0 < r.2 ∧ w.1 < r.1 + r.2 ∧ r.1 < w.1 + w.2 ∧
      ¬((i = .embed ∨ i = .encode) ∧ w = (s.gdstAddr.toNat, s.gridSize) ∧ r = (s.gsrcAddr.toNat, s.gridSize) ∧
        s.gdstAddr = s.gsrcAddr) := by
  simp only [overlapping, List.any_eq_true, Bool.and_eq_true, Bool.not_eq_true', ← Bool.not_eq_true, overlaps_iff,
    inPlace_iff, and_assoc]

theorem precheck_of_overlapping {i : Instr} {s : State} (stage : stageMissing i s = false)
    (key : keyLengthWrong i s = false) (range : outOfRange i s = false) (shared : overlapping i s = true) :
    precheck i s = some ⟨.overlap, 0, 0⟩ := by
  simp [precheck, stage, key, range, shared]

/-- Settles O23: the overlap check is the last, and only it raises Overlap. -/
theorem overlappingRegionsAreReported : Obligations.OverlappingRegionsAreReported := by
  intro i s
  simp only [← overlapping_iff]
  refine ⟨fun shared stage key range => exec_of_precheck (precheck_of_overlapping stage key range shared),
    fun apart => ?_⟩
  refine exec_errCode_ne (x := .overlap) (by decide) fun e failed same => apart ?_
  simpa [same] using precheck_error failed

end Sys2Proof.Machine
end

section
/-! The running command's regions and data memory as the host reaches it (70_reset_and_hazards R240, R247; 20_memory
R62). -/

namespace Sys2Proof.Machine

/-! The regions of the running command (40_command_engine R105). -/

section
variable {s : State}

theorem running_of_idle (idle : s.seq = .idle) : runningReads s = [] ∧ runningWrites s = [] := by
  simp [runningReads, runningWrites, idle]

theorem running_of_decode {i : Instr} (busy : s.seq = .busy) (h : decode s.cmd = .ok i) :
    runningReads s = readRegions i s ∧ runningWrites s = writtenRegions i s := by
  simp [runningReads, runningWrites, busy, h]

/-- An illegal word has no regions. -/
theorem running_of_illegal (illegal : ∀ i, decode s.cmd ≠ .ok i) : runningReads s = [] ∧ runningWrites s = [] := by
  cases h : decode s.cmd with
  | ok i => exact absurd h (illegal i)
  | error e => simp [runningReads, runningWrites, h]

theorem exists_runningReads_iff (busy : s.seq = .busy) (P : Region → Prop) :
    (∃ r ∈ runningReads s, P r) ↔ ∃ i, decode s.cmd = .ok i ∧ ∃ r ∈ readRegions i s, P r := by
  cases h : decode s.cmd with
  | ok i => simp [running_of_decode busy h]
  | error e => simp [running_of_illegal (s := s) (by simp [h])]

theorem exists_runningWrites_iff (busy : s.seq = .busy) (P : Region → Prop) :
    (∃ r ∈ runningWrites s, P r) ↔ ∃ i, decode s.cmd = .ok i ∧ ∃ r ∈ writtenRegions i s, P r := by
  cases h : decode s.cmd with
  | ok i => simp [running_of_decode busy h]
  | error e => simp [running_of_illegal (s := s) (by simp [h])]

end

/-! No region depends on the host's side. -/

section
variable (s : State) (rest : List HostMove) (d : Nat)

theorem regions_hostSide (i : Instr) :
    readRegions i { s with host := rest, delay := d } = readRegions i s ∧
      writtenRegions i { s with host := rest, delay := d } = writtenRegions i s := by
  cases i <;> exact ⟨rfl, rfl⟩

theorem running_hostSide :
    runningReads { s with host := rest, delay := d } = runningReads s ∧
      runningWrites { s with host := rest, delay := d } = runningWrites s := by
  simp only [runningReads, runningWrites, regions_hostSide, and_self]

theorem mayRead_hostSide (a : Nat) : mayRead { s with host := rest, delay := d } a = mayRead s a := by
  rw [mayRead, (running_hostSide s rest d).2, mayRead]

theorem mayWrite_hostSide (a : Nat) : mayWrite { s with host := rest, delay := d } a = mayWrite s a := by
  rw [mayWrite, mayRead_hostSide, (running_hostSide s rest d).1, mayWrite]

end

/-! Which bytes the host may touch (70_reset_and_hazards R240). -/

section
variable {s : State} {a : Nat}

theorem Region.covers_iff (r : Region) (a : Nat) : r.covers a = true ↔ r.1 ≤ a ∧ a < r.1 + r.2 := by
  simp [Region.covers]

theorem mayRead_eq_false_iff (busy : s.seq = .busy) :
    mayRead s a = false ↔ ∃ i, decode s.cmd = .ok i ∧ ∃ r ∈ writtenRegions i s, r.1 ≤ a ∧ a < r.1 + r.2 := by
  simp only [mayRead, Bool.not_eq_false', List.any_eq_true, Region.covers_iff, exists_runningWrites_iff busy]

theorem mayWrite_eq_false_iff (busy : s.seq = .busy) :
    mayWrite s a = false ↔
      (∃ i, decode s.cmd = .ok i ∧ ∃ r ∈ readRegions i s, r.1 ≤ a ∧ a < r.1 + r.2) ∨
        ∃ i, decode s.cmd = .ok i ∧ ∃ r ∈ writtenRegions i s, r.1 ≤ a ∧ a < r.1 + r.2 := by
  simp only [mayWrite, Bool.and_eq_false_iff, mayRead_eq_false_iff busy, Bool.not_eq_false', List.any_eq_true,
    Region.covers_iff, exists_runningReads_iff busy]
  exact or_comm

theorem mayRead_of_idle (idle : s.seq = .idle) : mayRead s a = true := by
  simp [mayRead, running_of_idle idle]

theorem mayWrite_of_idle (idle : s.seq = .idle) : mayWrite s a = true := by
  simp [mayWrite, mayRead_of_idle idle, running_of_idle idle]

end

/-! A step that is an access to data memory (70_reset_and_hazards R247). -/

section
variable {s : State} {a : Nat} {b : Byte} {rest : List HostMove} (he : engineMoves s = false)
include he

theorem step_memRead (hh : s.host = .memRead a :: rest) (lt : a < 2 ^ 32) :
    step s = if mayRead s a then
        .next ({ s with host := rest, delay := s.delay - 1 }.reply (.byte a (s.mem.read a)))
      else .refused .runningRegionAccess := by
  rw [step_move he hh nofun, hostMove, hostMemRead, atMemAddress_of_lt lt, mayRead_hostSide]

theorem step_memWrite (hh : s.host = .memWrite a b :: rest) (lt : a < 2 ^ 32) :
    step s = if mayWrite s a then
        .next { s with host := rest, delay := s.delay - 1, mem := s.mem.write a b }
      else .refused .runningRegionAccess := by
  rw [step_move he hh nofun, hostMove, hostMemWrite, atMemAddress_of_lt lt, mayWrite_hostSide]

/-- There is no byte at 2^32 or above (10_state R46; log 23). -/
theorem step_mem_outside (hh : s.host = .memWrite a b :: rest ∨ s.host = .memRead a :: rest) (ge : 2 ^ 32 ≤ a) :
    step s = .refused .outsideDataMemory := by
  rcases hh with hh | hh
  · exact (step_move he hh nofun).trans (if_pos ge)
  · exact (step_move he hh nofun).trans (if_pos ge)

end

/-- Settles O35: the host may touch a byte exactly when no region of the running command that R240 names has it. -/
theorem runningRegionsAreTheEngines : Obligations.RunningRegionsAreTheEngines := by
  intro s a b rest busy he lt inRegions reads writes
  have unreadable : mayRead s a = false ↔ writes := mayRead_eq_false_iff busy
  have unwritable : mayWrite s a = false ↔ reads ∨ writes := mayWrite_eq_false_iff busy
  refine ⟨fun hh => ?_, fun hh => ?_⟩
  · rw [step_memRead he hh lt, ← unreadable]
    exact ⟨fun taken => by simp [taken], fun free => ⟨_, if_pos (by simpa using free), rfl⟩⟩
  · rw [step_memWrite he hh lt, ← unwritable]
    exact ⟨fun taken => by simp [taken], fun free => ⟨_, if_pos (by simpa using free), rfl⟩⟩

/-- Settles O34: idle, no region is the engine's, so an access goes through wherever there is a byte. -/
theorem idleHostOwnsMemory : Obligations.IdleHostOwnsMemory := by
  intro s a b rest
  refine ⟨fun idle lt => ⟨fun hh => ?_, fun hh => ?_⟩, fun he ge hh => step_mem_outside he hh ge⟩
  · refine ⟨_, (step_memWrite (engineMoves_of_idle idle) hh lt).trans (if_pos (mayWrite_of_idle idle)), ?_⟩
    exact ⟨fun wf => Memory.read_write_same wf a b, fun x ne => Memory.read_write_other s.mem b ne, rfl, rfl⟩
  · exact ⟨_, (step_memRead (engineMoves_of_idle idle) hh lt).trans (if_pos (mayRead_of_idle idle)), rfl, rfl, rfl⟩

end Sys2Proof.Machine
end

section
/-! The reset input (70_reset_and_hazards R230–R232): the registers after it, and the free bytes it leaves in a running
command's written regions. -/

namespace Sys2Proof.Machine

/-- Settles O10: after reset no command runs, the report is that of a success, and memory lists no byte. -/
theorem resetMeetsTheInvariants : Obligations.ResetMeetsTheInvariants :=
  ⟨State.reset_reportConsistent, nofun, emptyMemory_wf⟩

theorem step_reset {s : State} {rest : List HostMove} (he : engineMoves s = false) (hh : s.host = .reset :: rest) :
    step s = .next (resetInput { s with host := rest, delay := s.delay - 1 }) :=
  step_move he hh nofun

/-! The registers (70_reset_and_hazards R230). -/

/-- Every register but the three constants is at its reset value, which is 0 (10_state R22). -/
theorem readReg_resetInput (s : State) {r : Reg} (h1 : r ≠ .id) (h2 : r ≠ .version) (h3 : r ≠ .param) :
    readReg (resetInput s) r = 0 := by
  cases r with
  | id => exact absurd rfl h1
  | version => exact absurd rfl h2
  | param => exact absurd rfl h3
  | status => exact (by decide : State.reset.statusWord = 0)
  | policy => exact (by decide : State.reset.policyWord = 0)
  | _ => rfl

theorem readReg_resetInput_constant (s : State) :
    ∀ r ∈ [Reg.id, .version, .param], readReg (resetInput s) r = readReg s r := by
  simp [readReg]

theorem resetInput_key_getElem (s : State) (k : Fin 8) : (resetInput s).key[k] = 0 := by
  simp [State.reset]

/-- With no command running no byte of memory is freed (70_reset_and_hazards R231). -/
theorem resetInput_mem_of_idle {s : State} (idle : s.seq = .idle) : (resetInput s).mem = s.mem := by
  rw [resetInput_mem, (running_of_idle idle).2, scrambleAll]

/-- Settles O36: the step is the reset input, which clears every stored register. -/
theorem resetInputClearsTheRegisters : Obligations.ResetInputClearsTheRegisters := by
  intro s rest he hh
  exact ⟨_, step_reset he hh, rfl, State.irq_of_not_done rfl, rfl, fun r => readReg_resetInput _,
    resetInput_key_getElem _, readReg_resetInput_constant _, fun idle => resetInput_mem_of_idle idle⟩

/-! The free bytes (70_reset_and_hazards R232; log 9). -/

theorem read_scrambleAll_other (d : Nat) (m : Memory) {rs : List Region} {x : Nat}
    (out : ∀ r ∈ rs, x < r.1 ∨ r.1 + r.2 ≤ x) : (scrambleAll d m rs).read x = m.read x := by
  induction rs generalizing m with
  | nil => rfl
  | cons r rs ih =>
    obtain ⟨here, later⟩ := List.forall_mem_cons.mp out
    exact (ih _ later).trans (read_scramble_other d m here)

/-- The free byte of an address is the same whichever region of the list has it last. -/
theorem read_scrambleAll_inside (d : Nat) {m : Memory} (wf : m.wf = true) {rs : List Region} {r : Region}
    (mem : r ∈ rs) {x : Nat} (ge : r.1 ≤ x) (lt : x < r.1 + r.2) (ex : x < 2 ^ 32) :
    (scrambleAll d m rs).read x = Config.resetByte d x := by
  induction rs generalizing m r with
  | nil => cases mem
  | cons q rs ih =>
    by_cases later : ∃ r ∈ rs, r.1 ≤ x ∧ x < r.1 + r.2
    · obtain ⟨r, mem, ge, lt⟩ := later
      exact ih (scramble_wf d wf q.1 q.2) mem ge lt
    · have out : ∀ r ∈ rs, x < r.1 ∨ r.1 + r.2 ≤ x := fun r mem =>
        (Nat.lt_or_ge x r.1).imp_right fun ge => Nat.le_of_not_lt fun lt => later ⟨r, mem, ge, lt⟩
      obtain rfl : r = q := (List.mem_cons.mp mem).resolve_right fun mem => later ⟨r, mem, ge, lt⟩
      exact (read_scrambleAll_other d _ out).trans (read_scramble_inside d wf ge lt ex)

/-- The memory that a reset leaves, whatever the host has still to do. -/
theorem resetInput_mem_hostSide (s : State) (rest : List HostMove) (d : Nat) :
    (resetInput { s with host := rest, delay := d }).mem = scrambleAll s.draws s.mem (runningWrites s) := by
  rw [resetInput_mem, (running_hostSide s rest d).2]

/-- Settles O37: the reset input frees the bytes of the running command's written regions. -/
theorem resetDuringACommandFreesItsOutput : Obligations.ResetDuringACommandFreesItsOutput := by
  intro s rest busy he hh wf
  refine ⟨_, step_reset he hh, rfl, rfl, ?_⟩
  rw [resetInput_mem_hostSide]
  refine ⟨fun i h => ?_, fun illegal => ?_⟩
  · rw [(running_of_decode busy h).2]
    exact ⟨fun r mem x => read_scrambleAll_inside s.draws wf mem, fun x => read_scrambleAll_other s.draws s.mem⟩
  · rw [(running_of_illegal illegal).2, scrambleAll]

end Sys2Proof.Machine
end

section
/-! A running command comes to an end (40_command_engine R102, 70_reset_and_hazards R245): each host move while it
runs ends it, stops the run, or takes one from its delay. -/

namespace Sys2Proof.Machine

/-! The moves the host does not have (logs 6, 7, 18, 23). -/

/-- The refusals of a host move. -/
def hostRefusals : List Refusal :=
  [.runningRegionAccess, .misalignedRegisterAccess, .outsideRegisterWindow, .outsideDataMemory]

/-- A refusal, if the outcome is one, is that of a host move. -/
def RefusesAsHost (o : Host.Outcome State Fault Refusal) : Prop := ∀ r, o = .refused r → r ∈ hostRefusals

theorem refusesAsHost_next (t : State) : RefusesAsHost (.next t) := nofun

theorem refusesAsHost_refused {r : Refusal} (h : r ∈ hostRefusals) : RefusesAsHost (.refused r) := fun r' e => by
  obtain rfl := Host.Outcome.refused.inj e
  exact h

section
variable {go : Host.Outcome State Fault Refusal}

theorem atOffset_refusesAsHost (off : Nat) (h : RefusesAsHost go) : RefusesAsHost (atOffset off go) := by
  unfold atOffset
  split
  · exact refusesAsHost_refused (by decide)
  · split
    · exact refusesAsHost_refused (by decide)
    · exact h

theorem atMemAddress_refusesAsHost (a : Nat) (h : RefusesAsHost go) : RefusesAsHost (atMemAddress a go) := by
  unfold atMemAddress
  split
  · exact refusesAsHost_refused (by decide)
  · exact h

end

theorem atBusAddress_refusesAsHost (p : Params) (a : Nat) {go : Nat → Host.Outcome State Fault Refusal}
    (h : ∀ off, RefusesAsHost (go off)) : RefusesAsHost (atBusAddress p a go) := by
  unfold atBusAddress
  split
  · exact refusesAsHost_refused (by decide)
  · exact h _

/-- An access that is answered where the host may make it and refused elsewhere. -/
theorem ite_refusesAsHost (may : Bool) (t : State) :
    RefusesAsHost (if may then .next t else .refused .runningRegionAccess) := by
  cases may
  · exact refusesAsHost_refused (by decide)
  · exact refusesAsHost_next t

theorem hostWait_refusesAsHost (s : State) (rest : List HostMove) : RefusesAsHost (hostWait s rest) := by
  unfold hostWait
  split
  · exact refusesAsHost_next _
  · exact refusesAsHost_next _

theorem hostMove_refusesAsHost (s : State) (m : HostMove) : RefusesAsHost (hostMove s m) := by
  cases m with
  | regRead off => exact atOffset_refusesAsHost off (refusesAsHost_next _)
  | regWrite off v => exact atOffset_refusesAsHost off (refusesAsHost_next _)
  | busRead a => exact atBusAddress_refusesAsHost _ a fun off => atOffset_refusesAsHost off (refusesAsHost_next _)
  | busWrite a v => exact atBusAddress_refusesAsHost _ a fun off => atOffset_refusesAsHost off (refusesAsHost_next _)
  | memRead a => exact atMemAddress_refusesAsHost a (ite_refusesAsHost _ _)
  | memWrite a b => exact atMemAddress_refusesAsHost a (ite_refusesAsHost _ _)
  | wait => exact hostWait_refusesAsHost s s.host
  | reset => exact refusesAsHost_next _

theorem hostTurn_refusesAsHost (s : State) : RefusesAsHost (hostTurn s) := by
  unfold hostTurn
  split
  · exact refusesAsHost_next s
  · exact hostWait_refusesAsHost s _
  · exact hostMove_refusesAsHost _ _

/-! Progress. -/

/-- When the engine moves, the command completes. -/
theorem step_completes {s : State} (moves : engineMoves s = true) : ∃ t, step s = .next t ∧ t.seq = .idle := by
  rcases step_cases s with ⟨-, i, -, e⟩ | ⟨-, -, e⟩ | ⟨waits, -⟩
  · exact ⟨_, e.trans (exec_eq_complete i s), s.complete_seq _⟩
  · exact ⟨_, e, s.complete_seq _⟩
  · simp [moves] at waits

/-- A running command is left waiting only for a host that has a move to make. -/
theorem hostIdles_eq_false_of_busy {s : State} (busy : s.seq = .busy) (waits : engineMoves s = false) :
    hostIdles s = false :=
  Bool.eq_false_iff.mpr fun idles => by simp [engineMoves_of_busy busy (.inl idles)] at waits

/-- A move that the host makes while a command runs ends the command, by a reset, or takes one from its delay. -/
theorem hostTurn_busy {s t : State} (busy : s.seq = .busy) (acts : hostIdles s = false) (h : hostTurn s = .next t) :
    t.seq = .idle ∨ (t.seq = .busy ∧ t.delay = s.delay - 1) := by
  rcases hostTurn_cases h with
    ⟨-, idles⟩ | ⟨m, rest, -, ⟨r, rfl⟩ | rfl | ⟨r, v, rfl⟩ | ⟨a, b, -, -, rfl⟩ | ⟨-, rfl⟩⟩
  · simp [acts] at idles
  · exact .inr ⟨busy, rfl⟩
  · exact .inr ⟨busy, rfl⟩
  · rw [writeReg_busy (s := { s with host := rest, delay := s.delay - 1 }) busy]
    exact .inr ⟨busy, rfl⟩
  · exact .inr ⟨busy, rfl⟩
  · exact .inl rfl

/-- After `k` steps the engine is idle, or it is the host's turn and its move is one it does not have. -/
def EndsAfter (k : Nat) (s : State) : Prop :=
  (∃ t, Host.Core.run core k s = .next t ∧ t.seq = .idle) ∨
    ∃ u r, Host.Core.run core k s = .next u ∧ engineMoves u = false ∧ step u = .refused r ∧ r ∈ hostRefusals

theorem endsAfter_zero_of_idle {s : State} (idle : s.seq = .idle) : EndsAfter 0 s := .inl ⟨s, rfl, idle⟩

theorem endsAfter_zero_of_refused {s : State} {r : Refusal} (waits : engineMoves s = false)
    (h : step s = .refused r) : EndsAfter 0 s :=
  .inr ⟨s, r, rfl, waits, h, hostTurn_refusesAsHost s r (step_of_not_engineMoves waits ▸ h)⟩

theorem EndsAfter.of_step {s u : State} {k : Nat} (h : step s = .next u) (ends : EndsAfter k u) :
    EndsAfter (k + 1) s := by
  simpa only [EndsAfter, run_succ_of_step h] using ends

theorem endsAfter_one_of_engineMoves {s : State} (moves : engineMoves s = true) : EndsAfter 1 s := by
  obtain ⟨t, h, idle⟩ := step_completes moves
  exact (endsAfter_zero_of_idle idle).of_step h

/-- The delay bounds the steps of a running command. -/
theorem busy_endsAfter (n : Nat) {s : State} (busy : s.seq = .busy) (delay : s.delay = n) :
    ∃ k, k ≤ n + 1 ∧ EndsAfter k s := by
  induction n generalizing s with
  | zero => exact ⟨1, le_rfl, endsAfter_one_of_engineMoves (engineMoves_of_busy busy (.inr delay))⟩
  | succ n ih =>
    cases moves : engineMoves s with
    | true => exact ⟨1, by omega, endsAfter_one_of_engineMoves moves⟩
    | false =>
      have acts := hostIdles_eq_false_of_busy busy moves
      cases h : step s with
      | next t =>
        rcases hostTurn_busy busy acts (step_of_not_engineMoves moves ▸ h) with idle | ⟨busy', delay'⟩
        · exact ⟨1, by omega, (endsAfter_zero_of_idle idle).of_step h⟩
        · obtain ⟨k, le, ends⟩ := ih busy' (by omega)
          exact ⟨k + 1, by omega, ends.of_step h⟩
      | fault f => cases f
      | refused r => exact ⟨0, by omega, endsAfter_zero_of_refused moves h⟩

/-- Settles O12: by induction on the delay. -/
theorem busyCommandsComplete : Obligations.BusyCommandsComplete :=
  fun s busy => busy_endsAfter s.delay busy rfl

end Sys2Proof.Machine
end
